-- ==== Sys2Proof/Word.lean ====
section
/-! DEFINITION. The word types of HUFF's ports and fields (00_scope.md R7, R8, R9).

Counts, weights and lengths of `CNT_W` bits are natural numbers: `CNT_W` is a parameter of the block (log 3) and no sum
of the block ever wraps (40_frequency_analyzer.md R122, 41_tree_builder.md R149; log 4). -/

namespace Sys2Proof

/-- A command word, 16 bits (30_encoding.md R80). -/
abbrev CmdWord := BitVec 16

/-- A byte of the input or output stream (20_memory.md R62). -/
abbrev Byte := BitVec 8

/-- One bit of a code or of the payload: `true` is 1, the one-branch; `false` is 0, the zero-branch (30_encoding.md R101). -/
abbrev Bit := Bool

/-- A bit string: a finite sequence of bits, the first bit nearest the root and emitted first; not a number
(00_scope.md R9). -/
abbrev BitString := List Bit

/-- A node index as the registers ROOT and CUR and the links `c0`, `c1` hold it: `IDX_W` = 10 bits (00_scope.md R7). -/
abbrev NodeIndex := BitVec 10

end Sys2Proof
end

