-- ==== Sys2Proof/Config.lean ====
section
/-! DEFINITION. The parameters of HUFF (00_scope.md R7): the fixed ones as constants, the open one, `CNT_W`, as the record
`Config` that every state carries (log 3). The spec leaves no value free, so there is no free value here. -/

namespace Sys2Proof

/-- What an instance of the block fixes: `CNT_W`, the width in bits of a count, a weight, LEN and the response data
(00_scope.md R7: OPEN, default 32, constraint 16 <= `CNT_W`). -/
structure Config where
  cntW : Nat
  deriving DecidableEq, Repr

/-- The default instance, `CNT_W` = 32 (00_scope.md R7). DESIGN CHOICE for `State.reset` (log 3). -/
def Config.standard : Config := { cntW := 32 }

/-- `MAXCNT` = 2^`CNT_W` - 1, the largest count or weight (00_scope.md R7). -/
def Config.maxCnt (c : Config) : Nat := 2 ^ c.cntW - 1

/-- The constraint on `CNT_W` (00_scope.md R7). -/
def Config.legal (c : Config) : Bool := 16 ≤ c.cntW

/-- `NSYM`, the number of symbols (00_scope.md R7). -/
abbrev nsym : Nat := 257

/-- `TERM`, the symbol index of the terminator (00_scope.md R7). -/
abbrev termIndex : Nat := 256

/-- `NOT_A_CHAR`, the number that spells the `sym` field of an internal node (00_scope.md R7). -/
abbrev notAChar : Nat := 257

/-- `NNODE_MAX`, the capacity of the node arena (00_scope.md R7). -/
abbrev nnodeMax : Nat := 513

/-- `NIL`, the node index that means absent (00_scope.md R7). -/
abbrev nilIndex : NodeIndex := 0x3FF#10

/-- `MAXLEN`, the largest possible code length (00_scope.md R7). -/
abbrev maxLen : Nat := 256

end Sys2Proof
end

