-- ==== Sys2Proof/Syntax.lean ====
section
/-! DEFINITION. The command set (30_encoding.md R81, R90), whole: one constructor of `Instr` per row of the opcode table, and the
operands as tagged types, so that the machine never sees a raw operand field (10_state.md R21). -/

namespace Sys2Proof

/-- A Symbol is one of 257 values: a byte or the terminator (10_state.md R21). -/
inductive Symbol where
  | byte (b : Byte)
  | terminator
  deriving DecidableEq, Repr

/-- The status registers `ST.READ` reads, in the order of their numbers 0 to 9 (10_state.md R40). -/
inductive StReg where
  | phase
  | fcode
  | fsticky
  | finfo
  | len
  | nleaf
  | nnode
  | root
  | cur
  | rootw
  deriving DecidableEq, Repr

/-- What the host offers to `DEC.STEP`: the next bit of its bit source, or that the source is exhausted
(30_encoding.md R81 format O, R82). -/
inductive Offer where
  | bit0
  | bit1
  | endMark
  deriving DecidableEq, Repr

/-- The twelve commands (30_encoding.md R90). `cnt` of `ftLoad` is the write-data operand `wdata`. -/
inductive Instr where
  | nop
  | clr
  | stRead (r : StReg)
  | ftRead (sym : Symbol)
  | ftLoad (sym : Symbol) (cnt : Nat)
  | faByte (byte : Byte)
  | faEnd
  | tbBuild
  | cmGen
  | encByte (byte : Byte)
  | encEnd
  | decStep (offer : Offer)
  deriving DecidableEq, Repr

/-- The opcodes in use, the field `op` of the command word (30_encoding.md R90). -/
inductive Opcode where
  | nop
  | clr
  | stRead
  | ftRead
  | ftLoad
  | faByte
  | faEnd
  | tbBuild
  | cmGen
  | encByte
  | encEnd
  | decStep
  deriving DecidableEq, Repr

/-- The operand formats of 30_encoding.md R81. -/
inductive Format where
  | none
  | byte
  | symbol
  | symbolCount
  | register
  | offer
  deriving DecidableEq, Repr

/-- Why a command word is not legal, in the order the checks are made (30_encoding.md R91, R92, R93; 60_exceptions.md
R245 check 2). -/
inductive Illegal where
  | reservedOpcode
  | reservedBits
  | operandOutOfRange
  deriving DecidableEq, Repr

end Sys2Proof
end

