-- ==== Sys2Proof/Decode.lean ====
section
/-! DEFINITION. The decoder of command words (30_encoding.md R80 to R94), total, rejecting by name; then the encoder, written from the
same tables; then `decodeTableWord`, the decoder on the opcode table's bit numbering. -/

namespace Sys2Proof

/-- The number of an opcode, the value of `op` = `cmd_word[15:12]` (30_encoding.md R90). -/
def Opcode.num : Opcode → BitVec 4
  | .nop => 0x0#4
  | .clr => 0x1#4
  | .stRead => 0x2#4
  | .ftRead => 0x3#4
  | .ftLoad => 0x4#4
  | .faByte => 0x5#4
  | .faEnd => 0x6#4
  | .tbBuild => 0x7#4
  | .cmGen => 0x8#4
  | .encByte => 0x9#4
  | .encEnd => 0xA#4
  | .decStep => 0xB#4

/-- The opcode a number names; `none` for the reserved numbers 0xC to 0xF (30_encoding.md R90, R91). -/
def Opcode.ofNum (n : BitVec 4) : Option Opcode :=
  match n.toNat with
  | 0 => some .nop
  | 1 => some .clr
  | 2 => some .stRead
  | 3 => some .ftRead
  | 4 => some .ftLoad
  | 5 => some .faByte
  | 6 => some .faEnd
  | 7 => some .tbBuild
  | 8 => some .cmGen
  | 9 => some .encByte
  | 10 => some .encEnd
  | 11 => some .decStep
  | _ => none

/-- The operand format of an opcode (30_encoding.md R81, R90). -/
def Opcode.format : Opcode → Format
  | .nop => .none
  | .clr => .none
  | .stRead => .register
  | .ftRead => .symbol
  | .ftLoad => .symbolCount
  | .faByte => .byte
  | .faEnd => .none
  | .tbBuild => .none
  | .cmGen => .none
  | .encByte => .byte
  | .encEnd => .none
  | .decStep => .offer

/-- The field `op`, bits [15:12] (30_encoding.md R80). -/
def opField (w : CmdWord) : BitVec 4 := w.extractLsb' 12 4

/-- The reserved field `z`, bits [11:10] (30_encoding.md R80). -/
def zField (w : CmdWord) : BitVec 2 := w.extractLsb' 10 2

/-- The operand field `arg`, bits [9:0] (30_encoding.md R80). -/
def argField (w : CmdWord) : BitVec 10 := w.extractLsb' 0 10

/-- The word `{op, 00, arg}` (30_encoding.md R80). -/
def mkWord (op : BitVec 4) (arg : BitVec 10) : CmdWord := (op.setWidth 16 <<< 12) ||| arg.setWidth 16

/-- The number of bits of `arg` that a format's field takes, from bit 0 up (30_encoding.md R81). -/
def Format.argBits : Format → Nat
  | .none => 0
  | .byte => 8
  | .symbol => 9
  | .symbolCount => 9
  | .register => 4
  | .offer => 2

/-- The bits of `arg` outside the format's field are all 0 (30_encoding.md R81, R92). -/
def Format.argClean (f : Format) (arg : BitVec 10) : Bool := arg.toNat < 2 ^ f.argBits

/-- The symbol index of a symbol: byte b is b, the terminator is 256 (10_state.md R21). -/
def Symbol.idx : Symbol → Nat
  | .byte b => b.toNat
  | .terminator => termIndex

/-- The symbol of an index; 257 and above are not symbols (10_state.md R21, 30_encoding.md R93). -/
def Symbol.ofIdx (n : Nat) : Option Symbol :=
  if n < 256 then some (.byte (BitVec.ofNat 8 n))
  else if n = termIndex then some .terminator
  else none

/-- The number of a status register (10_state.md R40). -/
def StReg.num : StReg → Nat
  | .phase => 0
  | .fcode => 1
  | .fsticky => 2
  | .finfo => 3
  | .len => 4
  | .nleaf => 5
  | .nnode => 6
  | .root => 7
  | .cur => 8
  | .rootw => 9

/-- The status register of a number; 10 and above are reserved (10_state.md R40, 30_encoding.md R93). -/
def StReg.ofNum : Nat → Option StReg
  | 0 => some .phase
  | 1 => some .fcode
  | 2 => some .fsticky
  | 3 => some .finfo
  | 4 => some .len
  | 5 => some .nleaf
  | 6 => some .nnode
  | 7 => some .root
  | 8 => some .cur
  | 9 => some .rootw
  | _ => none

/-- The number of an offer (30_encoding.md R81 format O). -/
def Offer.num : Offer → Nat
  | .bit0 => 0
  | .bit1 => 1
  | .endMark => 2

/-- The offer of a number; 3 is illegal (30_encoding.md R81 format O, R93). -/
def Offer.ofNum : Nat → Option Offer
  | 0 => some .bit0
  | 1 => some .bit1
  | 2 => some .endMark
  | _ => none

/-- A decoded operand, or the rejection of one outside its legal values (30_encoding.md R93). -/
def operandOr (o : Option Instr) : Except Illegal Instr :=
  match o with
  | some i => .ok i
  | none => .error .operandOutOfRange

/-- The command of an opcode, its clean operand field and the write data (30_encoding.md R81, R82, R90). -/
def decodeOperand (op : Opcode) (arg : BitVec 10) (wdata : Nat) : Except Illegal Instr :=
  match op with
  | .nop => .ok .nop
  | .clr => .ok .clr
  | .stRead => operandOr ((StReg.ofNum arg.toNat).map .stRead)
  | .ftRead => operandOr ((Symbol.ofIdx arg.toNat).map .ftRead)
  | .ftLoad => operandOr ((Symbol.ofIdx arg.toNat).map fun sy => .ftLoad sy wdata)
  | .faByte => .ok (.faByte (arg.extractLsb' 0 8))
  | .faEnd => .ok .faEnd
  | .tbBuild => .ok .tbBuild
  | .cmGen => .ok .cmGen
  | .encByte => .ok (.encByte (arg.extractLsb' 0 8))
  | .encEnd => .ok .encEnd
  | .decStep => operandOr ((Offer.ofNum arg.toNat).map .decStep)

/-- The decoder of command words: total, in the order reserved opcode, reserved bits, operand range
(30_encoding.md R91 to R94; 60_exceptions.md R245 check 2). `wdata` is used by `FT.LOAD` only (R80). -/
def decode (w : CmdWord) (wdata : Nat) : Except Illegal Instr :=
  match Opcode.ofNum (opField w) with
  | none => .error .reservedOpcode
  | some op =>
    if zField w = 0#2 ∧ op.format.argClean (argField w) then decodeOperand op (argField w) wdata
    else .error .reservedBits

/-- The opcode of a command (30_encoding.md R90). -/
def Instr.opcode : Instr → Opcode
  | .nop => .nop
  | .clr => .clr
  | .stRead _ => .stRead
  | .ftRead _ => .ftRead
  | .ftLoad _ _ => .ftLoad
  | .faByte _ => .faByte
  | .faEnd => .faEnd
  | .tbBuild => .tbBuild
  | .cmGen => .cmGen
  | .encByte _ => .encByte
  | .encEnd => .encEnd
  | .decStep _ => .decStep

/-- The operand field of a command (30_encoding.md R81). -/
def Instr.arg : Instr → BitVec 10
  | .nop => 0#10
  | .clr => 0#10
  | .stRead r => BitVec.ofNat 10 r.num
  | .ftRead sy => BitVec.ofNat 10 sy.idx
  | .ftLoad sy _ => BitVec.ofNat 10 sy.idx
  | .faByte b => b.setWidth 10
  | .faEnd => 0#10
  | .tbBuild => 0#10
  | .cmGen => 0#10
  | .encByte b => b.setWidth 10
  | .encEnd => 0#10
  | .decStep o => BitVec.ofNat 10 o.num

/-- The write data a command is presented with: `cnt` for `FT.LOAD`, 0 for the others, which ignore it (30_encoding.md R80). -/
def Instr.wdata : Instr → Nat
  | .nop => 0
  | .clr => 0
  | .stRead _ => 0
  | .ftRead _ => 0
  | .ftLoad _ cnt => cnt
  | .faByte _ => 0
  | .faEnd => 0
  | .tbBuild => 0
  | .cmGen => 0
  | .encByte _ => 0
  | .encEnd => 0
  | .decStep _ => 0

/-- The 16-bit command word of a command; legal words and commands correspond one to one but for `wdata`
(30_encoding.md R94). -/
def cmdWord (i : Instr) : CmdWord := mkWord i.opcode.num i.arg

/-- The encoder: the command word and the write data (30_encoding.md R80, R90). -/
def encode (i : Instr) : CmdWord × Nat := (cmdWord i, i.wdata)

/-- The command word and the write data of an instruction whose bits are numbered as the opcode table numbers them:
`cmd_word` is bits 15..0, `wdata` the bits above; every bit from `nbits` up is 0 (log 19). -/
def tableWord (nbits w : Nat) : CmdWord × Nat :=
  (BitVec.ofNat 16 (w % 2 ^ nbits), w % 2 ^ nbits / 2 ^ 16)

/-- What the decoder reads from the bits `w` of a row of the opcode table. -/
def decodeTableWord (nbits w : Nat) : Option Instr :=
  match decode (tableWord nbits w).1 (tableWord nbits w).2 with
  | .ok i => some i
  | .error _ => none

end Sys2Proof
end

