-- ==== Sys2Proof/Machine/State.lean ====
section
/-! DEFINITION. The state of HUFF as plain data (10_state.md R20), what it answers (30_encoding.md R95, R96), what the host presents
to it, and the state after reset (10_state.md R55, 70_reset_and_hazards.md R260). -/

namespace Sys2Proof.Machine

/-- The ten values of PHASE; the values 10 to 15 are never held (10_state.md R23; log 8). -/
inductive Phase where
  | idle
  | count
  | load
  | table
  | tree
  | mapped
  | encode
  | decode
  | done
  | fault
  deriving DecidableEq, Repr

/-- The six faults of the block (60_exceptions.md R230). Taking one is a next state, not a stop of the model. -/
inductive FaultKind where
  | missingCodeForSymbol
  | truncatedStream
  | malformedHeader
  | overflow
  | illegalCommand
  | illegalSequence
  deriving DecidableEq, Repr

/-- The status of a response; the values 8 to 15 are never produced (30_encoding.md R96; log 8). -/
inductive Status where
  | ok
  | faultTaken (f : FaultKind)
  | faulted
  deriving DecidableEq, Repr

/-- The three response flags (30_encoding.md R95). -/
structure RspFlags where
  consumed : Bool
  emitted : Bool
  done : Bool
  deriving DecidableEq, Repr

/-- A response (30_encoding.md R95). -/
structure Response where
  status : Status
  flags : RspFlags
  rdata : Nat
  deriving DecidableEq, Repr

/-- The `sym` field of a node: a symbol, or the internal-node marker, never confused with one (10_state.md R21, R45). -/
inductive NodeSym where
  | symbol (s : Symbol)
  | internal
  deriving DecidableEq, Repr

/-- The fields of a valid node (10_state.md R45). -/
structure Node where
  weight : Nat
  sym : NodeSym
  c0 : NodeIndex
  c1 : NodeIndex
  deriving DecidableEq, Repr

/-- The frequency table: one count per symbol index, 0 for an absent symbol (10_state.md R44). -/
abbrev FreqTable := Vector Nat nsym

/-- The node arena; `none` is an invalid entry, whose fields hold no value (10_state.md R45; log 6). -/
abbrev NodeArena := Vector (Option Node) nnodeMax

/-- The code map; `none` is an absent entry, `some []` a present one with the empty code (10_state.md R48; log 7). -/
abbrev CodeMap := Vector (Option BitString) nsym

/-- What the host presents: a command word with its write data, or an assertion of `rst` between commands
(00_scope.md R13, 30_encoding.md R80, 70_reset_and_hazards.md R261; log 1, log 12). -/
inductive HostInput where
  | command (word : CmdWord) (wdata : Nat)
  | reset
  deriving DecidableEq, Repr

/-- Why the model stops on a state that no run from reset reaches (93_implementation_defined.md U5, U11). -/
inductive Fault where
  /-- A node that is not valid, or an index above 512, was read: raised by `DEC.STEP`, `CM.GEN` and `ST.READ ROOTW`
  (10_state.md R45: a read of an invalid entry is "a type error or a fault and never a number"). Safe (log 6). -/
  | invalidNodeRead
  /-- A leaf carries the internal-node marker: raised by `DEC.STEP` and `CM.GEN` (10_state.md R21: the categories "must
  never be confused"). Safe (log 9). -/
  | leafWithoutSymbol
  /-- The descent of `DEC.STEP` met an absent child (44_decoder.md R185: "No step ever follows a `NIL` child"). Safe
  (log 9). -/
  | absentChildFollowed
  /-- The walk of `CM.GEN` went deeper than any tree the arena holds (42_code_map_generator.md R161). Safe (log 10). -/
  | walkTooDeep
  deriving DecidableEq, Repr

/-- Why the model has no meaning for a command. -/
inductive Refusal where
  /-- An instruction whose meaning has not been written: raised in `exec`'s arm of that name only; no arm raises it now.
  Safe. -/
  | notModelled (mnemonic : String)
  deriving DecidableEq, Repr

/-- The state: the spec's nine scalar registers, three arrays and two traces (10_state.md R20), then the model's own three
fields: the instance's parameters, what the host presents next, and the responses given (log 1, log 3, log 11). -/
structure State where
  phase : Phase
  fcode : BitVec 4
  fsticky : BitVec 8
  finfo : BitVec 16
  len : Nat
  nleaf : BitVec 9
  nnode : BitVec 10
  root : NodeIndex
  cur : NodeIndex
  ft : FreqTable
  node : NodeArena
  code : CodeMap
  bitout : List Bit
  byteout : List Byte
  cfg : Config
  inputs : List HostInput
  responses : List Response
  deriving DecidableEq, Repr

/-- The outcome of a command or a step of HUFF. -/
abbrev Result := Host.Outcome State Fault Refusal

/-- The state after reset (10_state.md R55, 70_reset_and_hazards.md R260), of the default instance, with a host that has
presented nothing yet. -/
def State.reset : State where
  phase := .idle
  fcode := 0#4
  fsticky := 0#8
  finfo := 0#16
  len := 0
  nleaf := 0#9
  nnode := 0#10
  root := nilIndex
  cur := nilIndex
  ft := Vector.replicate nsym 0
  node := Vector.replicate nnodeMax none
  code := Vector.replicate nsym none
  bitout := []
  byteout := []
  cfg := Config.standard
  inputs := []
  responses := []

end Sys2Proof.Machine
end

