-- ==== Sys2Proof/Machine/Flags.lean ====
section
/-! DEFINITION. Every status, flag and code computation the spec gives: the numbers of PHASE, of the faults and of the response
status, the response flags, the sticky record, the level outputs. HUFF has no condition codes (10_state.md R34). -/

namespace Sys2Proof.Machine

/-- The 4-bit encoding of PHASE (10_state.md R23). -/
def Phase.code : Phase → BitVec 4
  | .idle => 0#4
  | .count => 1#4
  | .load => 2#4
  | .table => 3#4
  | .tree => 4#4
  | .mapped => 5#4
  | .encode => 6#4
  | .decode => 7#4
  | .done => 8#4
  | .fault => 9#4

/-- The code of a fault, 1 to 6 (60_exceptions.md R230). -/
def FaultKind.code : FaultKind → BitVec 4
  | .missingCodeForSymbol => 1#4
  | .truncatedStream => 2#4
  | .malformedHeader => 3#4
  | .overflow => 4#4
  | .illegalCommand => 5#4
  | .illegalSequence => 6#4

/-- The 4-bit value of a response status (30_encoding.md R96). -/
def Status.code : Status → BitVec 4
  | .ok => 0#4
  | .faultTaken f => f.code
  | .faulted => 7#4

/-- No flag set: "each 0 unless a rule says otherwise" (30_encoding.md R95). -/
def RspFlags.zero : RspFlags := { consumed := false, emitted := false, done := false }

/-- The flag field of a response: bit 0 `consumed`, bit 1 `emitted`, bit 2 `done` (30_encoding.md R95). -/
def RspFlags.bits (f : RspFlags) : BitVec 3 :=
  BitVec.ofBool f.done ++ (BitVec.ofBool f.emitted ++ BitVec.ofBool f.consumed)

/-- FSTICKY with the bit of a fault set: `FSTICKY | (1 << c)` (60_exceptions.md R240). -/
def stickySet (sticky : BitVec 8) (f : FaultKind) : BitVec 8 := sticky ||| (1#8 <<< f.code.toNat)

/-- The response to a command that completed (30_encoding.md R95, R96, R97). -/
def okResponse (flags : RspFlags) (rdata : Nat) : Response :=
  { status := .ok, flags := flags, rdata := rdata }

/-- The response to a command that took a fault: the fault's code as status, `emitted` as given, the command word as data
(60_exceptions.md R240, 30_encoding.md R97). -/
def faultResponse (f : FaultKind) (word : CmdWord) (emitted : Bool) : Response :=
  { status := .faultTaken f
    flags := { consumed := false, emitted := emitted, done := false }
    rdata := word.toNat }

/-- The response of a block in PHASE FAULT to a command it refuses (60_exceptions.md R242). -/
def faultedResponse : Response := { status := .faulted, flags := RspFlags.zero, rdata := 0 }

/-- The level output `fault_o` (60_exceptions.md R244, 20_memory.md R75). -/
def State.faultO (s : State) : Bool := s.phase == .fault

/-- The level output `done_o` (60_exceptions.md R244, 20_memory.md R75). -/
def State.doneO (s : State) : Bool := s.phase == .done

end Sys2Proof.Machine
end

