-- ==== Sys2Proof/Machine/Operands.lean ====
section
/-! DEFINITION. Operand and array access: the three arrays by index (00_scope.md R10), the leaf test, the status register map and
the write-data port. -/

namespace Sys2Proof.Machine

/-- A symbol index is below 257, so it selects an entry of FT and of CODE (10_state.md R21, 20_memory.md R61). -/
theorem symbol_idx_lt (sy : Symbol) : sy.idx < nsym := by
  cases sy with
  | byte b => exact Nat.lt_of_lt_of_le b.isLt (by decide)
  | terminator => decide

/-- `FT[s]` (00_scope.md R10, 10_state.md R44). -/
def ftGet (ft : FreqTable) (sy : Symbol) : Nat := ft[sy.idx]'(symbol_idx_lt sy)

/-- `FT[s] <- v` (00_scope.md R10). -/
def ftSet (ft : FreqTable) (sy : Symbol) (v : Nat) : FreqTable := ft.set sy.idx v (symbol_idx_lt sy)

/-- `CODE[s]` (00_scope.md R10, 10_state.md R48). -/
def codeGet (cm : CodeMap) (sy : Symbol) : Option BitString := cm[sy.idx]'(symbol_idx_lt sy)

/-- `CODE[s] <- {present = 1, len = |p|, bits = p}` (42_code_map_generator.md R161). -/
def codeSet (cm : CodeMap) (sy : Symbol) (p : BitString) : CodeMap := cm.set sy.idx (some p) (symbol_idx_lt sy)

/-- `NODE[i]`: the entry's fields, or `none` when the entry is invalid or there is no entry of that index
(10_state.md R45, 20_memory.md R61). -/
def nodeGet (ar : NodeArena) (i : NodeIndex) : Option Node :=
  if h : i.toNat < nnodeMax then ar[i.toNat] else none

/-- `NODE[i] <- {valid = 1, ...}` (00_scope.md R10). -/
def nodeSet (ar : NodeArena) (i : Nat) (n : Node) : NodeArena :=
  if h : i < nnodeMax then ar.set i (some n) else ar

/-- The leaf test: both children absent, and nothing else (10_state.md R46). -/
def Node.isLeaf (n : Node) : Bool := n.c0 == nilIndex && n.c1 == nilIndex

/-- The child followed on a bit: the zero-branch on 0, the one-branch on 1 (30_encoding.md R101). -/
def Node.child (n : Node) (b : Bit) : NodeIndex := if b then n.c1 else n.c0

/-- The number that spells the `sym` field of a node (10_state.md R21, R45). -/
def NodeSym.num : NodeSym → Nat
  | .symbol sy => sy.idx
  | .internal => notAChar

/-- The symbols in ascending order: the bytes, then the terminator (10_state.md R22), the order of
`for s in 0..256` (00_scope.md R10). -/
def allSymbols : List Symbol :=
  (List.range 256).map (fun n => .byte (BitVec.ofNat 8 n)) ++ [.terminator]

/-- The ROOTW view: `NODE[ROOT].weight` if ROOT is not `NIL`, else 0; a stop when ROOT names an invalid node
(10_state.md R41). -/
def rootWeight (s : State) : Except Fault Nat :=
  if s.root = nilIndex then .ok 0
  else
    match nodeGet s.node s.root with
    | some n => .ok n.weight
    | none => .error .invalidNodeRead

/-- The status register map `x[r]`, zero-extended (10_state.md R40). -/
def readReg (r : StReg) (s : State) : Except Fault Nat :=
  match r with
  | .phase => .ok s.phase.code.toNat
  | .fcode => .ok s.fcode.toNat
  | .fsticky => .ok s.fsticky.toNat
  | .finfo => .ok s.finfo.toNat
  | .len => .ok s.len
  | .nleaf => .ok s.nleaf.toNat
  | .nnode => .ok s.nnode.toNat
  | .root => .ok s.root.toNat
  | .cur => .ok s.cur.toNat
  | .rootw => rootWeight s

/-- The bit an offer shows; `none` for the end marker (30_encoding.md R82). -/
def offerBit : Offer → Option Bit
  | .bit0 => some false
  | .bit1 => some true
  | .endMark => none

/-- The write data as the port's `CNT_W` wires carry it (30_encoding.md R80, 20_memory.md R75; log 5). -/
def portData (c : Config) (wdata : Nat) : Nat := wdata % 2 ^ c.cntW

end Sys2Proof.Machine
end

