-- ==== Sys2Proof/Machine/Ops.lean ====
section
/-! DEFINITION. The operations the commands share: responding, taking a fault and returning from one, the phase table and the common
checks, the traces, and what stands around a command: the host's next input, an illegal word, reset. -/

namespace Sys2Proof.Machine

/-- `respond(...)`: exactly one response ends the command (00_scope.md R10, 30_encoding.md R95). -/
def respond (r : Response) (s : State) : State := { s with responses := s.responses ++ [r] }

/-- `raise F` in a command with word `w`: fault entry (60_exceptions.md R240). FCODE, the sticky bit, FINFO and PHASE are
written and the response given; nothing else changes. -/
def raiseFault (f : FaultKind) (w : CmdWord) (emitted : Bool) (s : State) : State :=
  respond (faultResponse f w emitted)
    { s with fcode := f.code, fsticky := stickySet s.fsticky f, finfo := w, phase := .fault }

/-- The return from a fault, and the end of any session: what `CLR` writes (45_system.md R201, 60_exceptions.md R243).
FSTICKY and the traces keep their values. -/
def clearSession (s : State) : State :=
  { s with
    ft := Vector.replicate nsym 0
    node := Vector.replicate nnodeMax none
    code := Vector.replicate nsym none
    len := 0
    nleaf := 0#9
    nnode := 0#10
    root := nilIndex
    cur := nilIndex
    fcode := 0#4
    finfo := 0#16
    phase := .idle }

/-- The commands whose legal words a block in PHASE FAULT still executes: `NOP`, `CLR`, `ST.READ` (60_exceptions.md R242,
R245 check 1). -/
def runsInFault : Instr → Bool
  | .nop => true
  | .clr => true
  | .stRead _ => true
  | .ftRead _ => false
  | .ftLoad _ _ => false
  | .faByte _ => false
  | .faEnd => false
  | .tbBuild => false
  | .cmGen => false
  | .encByte _ => false
  | .encEnd => false
  | .decStep _ => false

/-- The phases in which a command is legal (10_state.md R32). -/
def legalIn (i : Instr) (p : Phase) : Bool :=
  match i with
  | .nop => true
  | .clr => true
  | .stRead _ => true
  | .ftRead _ => p != .fault
  | .ftLoad _ _ => p == .idle || p == .load
  | .faByte _ => p == .idle || p == .count
  | .faEnd => p == .idle || p == .count
  | .tbBuild => p == .idle || p == .load || p == .table
  | .cmGen => p == .tree
  | .encByte _ => p == .mapped || p == .encode
  | .encEnd => p == .mapped || p == .encode
  | .decStep _ => p == .tree || p == .mapped || p == .decode

/-- `common_checks` of a command whose word is legal, then the command's own body: refused in PHASE FAULT unless it runs
there; IllegalSequence in a phase that is not legal for it (60_exceptions.md R245 checks 1 and 3; check 2 is
`illegalWord`). -/
def commonChecks (i : Instr) (body : State → Result) (s : State) : Result :=
  if s.phase = .fault ∧ runsInFault i = false then .next (respond faultedResponse s)
  else if legalIn i s.phase then body s
  else .next (raiseFault .illegalSequence (cmdWord i) false s)

/-- What the block does with a command word that is not legal: refused without a new fault in PHASE FAULT, else
IllegalCommand (60_exceptions.md R236, R242, R245 checks 1 and 2). -/
def illegalWord (w : CmdWord) (s : State) : State :=
  if s.phase = .fault then respond faultedResponse s
  else raiseFault .illegalCommand w false s

/-- The command completes: status OK with the flags and data given (30_encoding.md R96, R97). -/
def complete (flags : RspFlags) (rdata : Nat) (s : State) : Result :=
  .next (respond (okResponse flags rdata) s)

/-- `BITOUT.put` of every bit of a code, first bit first (20_memory.md R63, R66; 10_state.md R50). -/
def putBits (p : BitString) (s : State) : State := { s with bitout := s.bitout ++ p }

/-- `BYTEOUT.put(v)` (10_state.md R50). -/
def putByte (b : Byte) (s : State) : State := { s with byteout := s.byteout ++ [b] }

/-- Reset: every register, array and trace as 10_state.md R55 says, the responses with them; the instance's parameters and
what the host presents afterwards stay (70_reset_and_hazards.md R260, R261; log 12). -/
def applyReset (s : State) : State := { State.reset with cfg := s.cfg, inputs := s.inputs }

/-- What happens next: nothing, a reset, a legal command, or an illegal word. The head of the host's inputs is taken
(00_scope.md R13; log 1). -/
inductive Fetched where
  | idle
  | reset
  | command (i : Instr)
  | illegal (w : CmdWord)
  deriving DecidableEq, Repr

/-- The head of the host's inputs, decoded; the write data is cut to the port's width (log 5). -/
def fetch (s : State) : Fetched :=
  match s.inputs with
  | [] => .idle
  | .reset :: _ => .reset
  | .command w d :: _ =>
    match decode w (portData s.cfg d) with
    | .ok i => .command i
    | .error _ => .illegal w

/-- The state with the head of the host's inputs taken. -/
def takeInput (s : State) : State := { s with inputs := s.inputs.tail }

/-- The state with one more input presented next, before those already waiting. -/
def present (h : HostInput) (s : State) : State := { s with inputs := h :: s.inputs }

/-- The next state of an outcome, if there is one. -/
def nextState (r : Result) : Option State :=
  match r with
  | .next s => some s
  | .fault _ => none
  | .refused _ => none

end Sys2Proof.Machine
end

