-- ==== Sys2Proof/Machine/CodeMapGenerator.lean ====
section
/-! DEFINITION. code_map_generator: `CM.GEN` (42_code_map_generator.md R160 to R166). -/

namespace Sys2Proof.Machine

/-- `walk(i, p)` of 42_code_map_generator.md R161, zero-branch first; the first argument bounds the depth (log 10). A leaf's
code is the path to it; an internal node records nothing. -/
def walk (ar : NodeArena) : Nat → NodeIndex → BitString → CodeMap → Except Fault CodeMap
  | 0, _, _, _ => .error .walkTooDeep
  | d + 1, i, p, cm =>
    match nodeGet ar i with
    | none => .error .invalidNodeRead
    | some n =>
      if n.isLeaf then
        match n.sym with
        | .symbol sy => .ok (codeSet cm sy p)
        | .internal => .error .leafWithoutSymbol
      else
        match walk ar d n.c0 (p ++ [false]) cm with
        | .error e => .error e
        | .ok cm' => walk ar d n.c1 (p ++ [true]) cm'

/-- The deepest walk over a tree the arena can hold: a leaf at depth `MAXLEN` is reached by `MAXLEN` + 1 nodes
(41_tree_builder.md R150, 42_code_map_generator.md R161). -/
abbrev walkDepth : Nat := maxLen + 1

/-- The code map of the tree at `root`: every entry absent, then the walk from the root (42_code_map_generator.md R160). -/
def generatedMap (ar : NodeArena) (root : NodeIndex) : Except Fault CodeMap :=
  walk ar walkDepth root [] (Vector.replicate nsym none)

/-- `CM.GEN` (42_code_map_generator.md R160). -/
def cmGenBody (s : State) : Result :=
  match generatedMap s.node s.root with
  | .error e => .fault e
  | .ok cm => complete RspFlags.zero 0 { s with code := cm, phase := .mapped }

/-- `CM.GEN`: the common checks, then the command (60_exceptions.md R245). -/
def execCmGen (s : State) : Result := commonChecks .cmGen cmGenBody s

end Sys2Proof.Machine
end

