-- ==== Sys2Proof/Machine/Decoder.lean ====
section
/-! DEFINITION. huffman_decoder: `DEC.STEP` (44_decoder.md R180 to R191). -/

namespace Sys2Proof.Machine

/-- The line of `DEC.STEP` that consults the offer, with what the step has emitted so far: `END` is TruncatedStream, a bit
moves the cursor to a child (44_decoder.md R181, R184). An invalid node at the cursor and an absent child stop the model:
44_decoder.md R186 says neither is met (log 6, log 9). -/
def consultOffer (o : Offer) (emitted : Bool) (rdata : Nat) (s : State) : Result :=
  match offerBit o with
  | none => .next (raiseFault .truncatedStream (cmdWord (.decStep o)) emitted s)
  | some b =>
    match nodeGet s.node s.cur with
    | none => .fault .invalidNodeRead
    | some n =>
      if n.child b = nilIndex then .fault .absentChildFollowed
      else
        complete { consumed := true, emitted := emitted, done := false } rdata
          { s with cur := n.child b, phase := .decode }

/-- `DEC.STEP offer`: at the terminator leaf the decode is done and nothing is consumed; at a byte leaf the byte is emitted
and the cursor reset before the offer is consulted, in the same step (44_decoder.md R180, R181; 90_conflicts.md C2). -/
def decStepBody (o : Offer) (s : State) : Result :=
  match nodeGet s.node s.cur with
  | none => .fault .invalidNodeRead
  | some n =>
    if n.isLeaf then
      match n.sym with
      | .symbol .terminator => complete { consumed := false, emitted := false, done := true } 0 { s with phase := .done }
      | .symbol (.byte b) => consultOffer o true b.toNat { putByte b s with cur := s.root }
      | .internal => .fault .leafWithoutSymbol
    else consultOffer o false 0 s

/-- `DEC.STEP`: the common checks, then the command (60_exceptions.md R245). -/
def execDecStep (o : Offer) (s : State) : Result := commonChecks (.decStep o) (decStepBody o) s

end Sys2Proof.Machine
end

