-- ==== Sys2Proof/Machine/Encoder.lean ====
section
/-! DEFINITION. huffman_encoder: `ENC.BYTE`, `ENC.END` (43_encoder.md R170 to R175). -/

namespace Sys2Proof.Machine

/-- Emit the code of a symbol, or MissingCodeForSymbol before any bit; then the phase, the flags and the number of bits
emitted (43_encoder.md R170, R171, R172; 30_encoding.md R97). -/
def emitCode (i : Instr) (sy : Symbol) (p : Phase) (flags : RspFlags) (s : State) : Result :=
  match codeGet s.code sy with
  | none => .next (raiseFault .missingCodeForSymbol (cmdWord i) false s)
  | some c => complete flags c.length { putBits c s with phase := p }

/-- `ENC.BYTE byte` (43_encoder.md R170). -/
def encByteBody (b : Byte) (s : State) : Result := emitCode (.encByte b) (.byte b) .encode RspFlags.zero s

/-- `ENC.BYTE`: the common checks, then the command (60_exceptions.md R245). -/
def execEncByte (b : Byte) (s : State) : Result := commonChecks (.encByte b) (encByteBody b) s

/-- `ENC.END`: the terminator's code, and DONE (43_encoder.md R172). -/
def encEndBody (s : State) : Result :=
  emitCode .encEnd .terminator .done { consumed := false, emitted := false, done := true } s

/-- `ENC.END`: the common checks, then the command (60_exceptions.md R245). -/
def execEncEnd (s : State) : Result := commonChecks .encEnd encEndBody s

end Sys2Proof.Machine
end

