-- ==== Sys2Proof/Machine/FrequencyAnalyzer.lean ====
section
/-! DEFINITION. frequency_analyzer and the table port: `FA.BYTE`, `FA.END`, `FT.LOAD`, `FT.READ` (40_frequency_analyzer.md). -/

namespace Sys2Proof.Machine

/-- `FA.BYTE byte`: count one input byte, or Overflow when LEN = `MAXCNT` - 1 (40_frequency_analyzer.md R121, R122). -/
def faByteBody (b : Byte) (s : State) : Result :=
  if s.len = s.cfg.maxCnt - 1 then .next (raiseFault .overflow (cmdWord (.faByte b)) false s)
  else
    complete RspFlags.zero 0
      { s with
        ft := ftSet s.ft (.byte b) (ftGet s.ft (.byte b) + 1)
        len := s.len + 1
        phase := .count }

/-- `FA.BYTE`: the common checks, then the command (60_exceptions.md R245). -/
def execFaByte (b : Byte) (s : State) : Result := commonChecks (.faByte b) (faByteBody b) s

/-- `FA.END`: the terminator's count becomes 1, whatever it was (40_frequency_analyzer.md R123, R124). -/
def faEndBody (s : State) : Result :=
  complete RspFlags.zero 0 { s with ft := ftSet s.ft .terminator 1, phase := .table }

/-- `FA.END`: the common checks, then the command (60_exceptions.md R245). -/
def execFaEnd (s : State) : Result := commonChecks .faEnd faEndBody s

/-- `FT.LOAD sym, cnt`: load one pair, or MalformedHeader for a count of 0 and for a symbol already present
(40_frequency_analyzer.md R126, R127). -/
def ftLoadBody (sy : Symbol) (cnt : Nat) (s : State) : Result :=
  if cnt = 0 then .next (raiseFault .malformedHeader (cmdWord (.ftLoad sy cnt)) false s)
  else if ftGet s.ft sy ≠ 0 then .next (raiseFault .malformedHeader (cmdWord (.ftLoad sy cnt)) false s)
  else complete RspFlags.zero 0 { s with ft := ftSet s.ft sy cnt, phase := .load }

/-- `FT.LOAD`: the common checks, then the command (60_exceptions.md R245). -/
def execFtLoad (sy : Symbol) (cnt : Nat) (s : State) : Result := commonChecks (.ftLoad sy cnt) (ftLoadBody sy cnt) s

/-- `FT.READ sym`: answer the entry; no state is written (40_frequency_analyzer.md R129). -/
def ftReadBody (sy : Symbol) (s : State) : Result := complete RspFlags.zero (ftGet s.ft sy) s

/-- `FT.READ`: the common checks, then the command (60_exceptions.md R245). -/
def execFtRead (sy : Symbol) (s : State) : Result := commonChecks (.ftRead sy) (ftReadBody sy) s

end Sys2Proof.Machine
end

