-- ==== Sys2Proof/Machine/System.lean ====
section
/-! DEFINITION. The system commands: `NOP`, `CLR`, `ST.READ` (45_system.md R200 to R203). -/

namespace Sys2Proof.Machine

/-- `NOP`: nothing but the response (45_system.md R200). -/
def nopBody (s : State) : Result := complete RspFlags.zero 0 s

/-- `NOP`: the common checks, then the command (60_exceptions.md R245). -/
def execNop (s : State) : Result := commonChecks .nop nopBody s

/-- `CLR`: end the session; the only way out of DONE and of FAULT (45_system.md R201). -/
def clrBody (s : State) : Result := complete RspFlags.zero 0 (clearSession s)

/-- `CLR`: the common checks, then the command (60_exceptions.md R245). -/
def execClr (s : State) : Result := commonChecks .clr clrBody s

/-- `ST.READ r`: answer a status register; no state is written (45_system.md R202). -/
def stReadBody (r : StReg) (s : State) : Result :=
  match readReg r s with
  | .ok v => complete RspFlags.zero v s
  | .error e => .fault e

/-- `ST.READ`: the common checks, then the command (60_exceptions.md R245). -/
def execStRead (r : StReg) (s : State) : Result := commonChecks (.stRead r) (stReadBody r) s

end Sys2Proof.Machine
end

