-- ==== Sys2Proof/Machine/TreeBuilder.lean ====
section
/-! DEFINITION. huffman_tree_builder: `TB.BUILD` (41_tree_builder.md R140 to R153). The queue holds each node's index with its weight,
the key of `remove_min`; it exists inside the command only (10_state.md R52). -/

namespace Sys2Proof.Machine

/-- The sum of all table entries, an unbounded natural number (41_tree_builder.md R140, R142). -/
def ftTotal (ft : FreqTable) : Nat := (allSymbols.map (ftGet ft)).sum

/-- The leaf of a symbol with its count (41_tree_builder.md R143). -/
def leafNode (sy : Symbol) (w : Nat) : Node := { weight := w, sym := .symbol sy, c0 := nilIndex, c1 := nilIndex }

/-- The leaves: one per present entry, in ascending order of symbol index (41_tree_builder.md R143). -/
def leaves (ft : FreqTable) : List Node :=
  allSymbols.filterMap fun sy => if ftGet ft sy = 0 then none else some (leafNode sy (ftGet ft sy))

/-- An element of the queue: a node's weight and its index, the pair `remove_min` compares (41_tree_builder.md R145). -/
structure QEntry where
  weight : Nat
  idx : Nat
  deriving DecidableEq, Repr

/-- The lexicographic order of the pairs (weight, index) (41_tree_builder.md R145). -/
def QEntry.before (a b : QEntry) : Bool := a.weight < b.weight || (a.weight == b.weight && a.idx < b.idx)

/-- `remove_min` of the queue `e :: q`: its least element and what is left (41_tree_builder.md R145). -/
def removeMin (e : QEntry) : List QEntry → QEntry × List QEntry
  | [] => (e, [])
  | f :: q =>
    if e.before (removeMin f q).1 then (e, f :: q)
    else ((removeMin f q).1, e :: (removeMin f q).2)

/-- The internal node made of the first removed, A, and the second removed, B: A is the zero-branch, B the one-branch
(41_tree_builder.md R144). -/
def joinNode (a b : QEntry) : Node :=
  { weight := a.weight + b.weight, sym := .internal, c0 := BitVec.ofNat 10 a.idx, c1 := BitVec.ofNat 10 b.idx }

/-- The nodes made so far, in index order, and the queue. -/
structure Forest where
  nodes : List Node
  queue : List QEntry
  deriving DecidableEq, Repr

/-- One run of the merge loop's body, and nothing when the queue has at most one element (41_tree_builder.md R144): the
new node takes the lowest unused index, which is the number of nodes made, and enters the queue last. -/
def mergeOnce (f : Forest) : Forest :=
  match f.queue with
  | [] => f
  | e :: q =>
    match (removeMin e q).2 with
    | [] => f
    | e' :: q' =>
      { nodes := f.nodes ++ [joinNode (removeMin e q).1 (removeMin e' q').1]
        queue := (removeMin e' q').2 ++
          [{ weight := (removeMin e q).1.weight + (removeMin e' q').1.weight, idx := f.nodes.length }] }

/-- The merge loop: a run removes two elements and adds one, so a queue of k elements is down to one after k - 1 runs
(41_tree_builder.md R144, R150). -/
def mergeLoop : Nat → Forest → Forest
  | 0, f => f
  | n + 1, f => mergeLoop n (mergeOnce f)

/-- The queue `{0, ..., k-1}` of the leaves, in insertion order (41_tree_builder.md R140). -/
def leafQueue (ls : List Node) : List QEntry := ls.zipIdx.map fun p => { weight := p.1.weight, idx := p.2 }

/-- The forest after the merge loop on the table's leaves (41_tree_builder.md R140). -/
def buildForest (ft : FreqTable) : Forest :=
  mergeLoop ((leaves ft).length - 1) { nodes := leaves ft, queue := leafQueue (leaves ft) }

/-- The nodes of the tree of a table, in index order: a function of FT alone (41_tree_builder.md R148). -/
def builtNodes (ft : FreqTable) : List Node := (buildForest ft).nodes

/-- The index of the one element left in the queue, the root (41_tree_builder.md R146). -/
def builtRoot (ft : FreqTable) : NodeIndex :=
  match (buildForest ft).queue with
  | [] => nilIndex
  | e :: _ => BitVec.ofNat 10 e.idx

/-- `NODE[i] <- n_0; NODE[i+1] <- n_1; ...`: the entries of the list are written from index `i` up, the others keep their
contents (log 20). -/
def writeNodes (ar : NodeArena) (i : Nat) : List Node → NodeArena
  | [] => ar
  | n :: ns => writeNodes (nodeSet ar i n) (i + 1) ns

/-- `TB.BUILD`: MalformedHeader without the terminator, then Overflow, both before any write; else the tree
(41_tree_builder.md R140 to R147). -/
def tbBuildBody (s : State) : Result :=
  if ftGet s.ft .terminator = 0 then .next (raiseFault .malformedHeader (cmdWord .tbBuild) false s)
  else if s.cfg.maxCnt < ftTotal s.ft then .next (raiseFault .overflow (cmdWord .tbBuild) false s)
  else
    complete RspFlags.zero 0
      { s with
        node := writeNodes s.node 0 (builtNodes s.ft)
        nleaf := BitVec.ofNat 9 (leaves s.ft).length
        nnode := BitVec.ofNat 10 (builtNodes s.ft).length
        root := builtRoot s.ft
        cur := builtRoot s.ft
        phase := .tree }

/-- `TB.BUILD`: the common checks, then the command (60_exceptions.md R245). -/
def execTbBuild (s : State) : Result := commonChecks .tbBuild tbBuildBody s

end Sys2Proof.Machine
end

