-- ==== Sys2Proof/Machine/Dispatch.lean ====
section
/-! DEFINITION. One arm per command (30_encoding.md R90). -/

namespace Sys2Proof.Machine

def exec (i : Instr) (s : State) : Host.Outcome State Fault Refusal :=
  match i with
  | .nop => Sys2Proof.Machine.execNop s
  | .clr => Sys2Proof.Machine.execClr s
  | .stRead r => Sys2Proof.Machine.execStRead r s
  | .ftRead sym => Sys2Proof.Machine.execFtRead sym s
  | .ftLoad sym cnt => Sys2Proof.Machine.execFtLoad sym cnt s
  | .faByte byte => Sys2Proof.Machine.execFaByte byte s
  | .faEnd => Sys2Proof.Machine.execFaEnd s
  | .tbBuild => Sys2Proof.Machine.execTbBuild s
  | .cmGen => Sys2Proof.Machine.execCmGen s
  | .encByte byte => Sys2Proof.Machine.execEncByte byte s
  | .encEnd => Sys2Proof.Machine.execEncEnd s
  | .decStep offer => Sys2Proof.Machine.execDecStep offer s

end Sys2Proof.Machine
end

