-- ==== Sys2Proof/Machine/Step.lean ====
section
/-! DEFINITION. One step of the machine: the next thing the host presents, taken and executed whole (00_scope.md R11, R13, R14). -/

namespace Sys2Proof.Machine

/-- A step takes the head of the host's inputs and executes it; with nothing presented the block holds its state
(00_scope.md R11; 60_exceptions.md R255; 70_reset_and_hazards.md R261; log 1, log 2, log 12). -/
def step (s : State) : Host.Outcome State Fault Refusal :=
  match fetch s with
  | .idle => .next s
  | .reset => .next (applyReset (takeInput s))
  | .command i => exec i (takeInput s)
  | .illegal w => .next (illegalWord w (takeInput s))

/-- The state in which the host presents, next, the instruction whose bits are `w` in the opcode table's numbering
(log 1, log 19). -/
def State.withFetchWord (s : State) (nbits w : Nat) : State :=
  present (.command (tableWord nbits w).1 (tableWord nbits w).2) s

end Sys2Proof.Machine
end

