-- ==== Sys2Proof/Machine/Assembler.lean ====
section
/-! DEFINITION. The assembler notation of 30_encoding.md R105: one command per line, the mnemonic, then operands separated by commas;
a line is a list of characters. -/

namespace Sys2Proof.Machine

/-- White space between the parts of a line. -/
def isBlank (c : Char) : Bool := c == ' ' || c == '\t'

/-- The operands of a line after its mnemonic: separated by commas, blanks dropped, ended by a `;` comment; a character in
single quotes stands for itself, a comma and a semicolon too. -/
def operandsFrom : List Char → List Char → List (List Char)
  | [], cur => [cur]
  | '\'' :: c :: '\'' :: rest, cur => operandsFrom rest (cur ++ ['\'', c, '\''])
  | c :: rest, cur =>
    if c == ';' then [cur]
    else if c == ',' then cur :: operandsFrom rest []
    else if isBlank c then operandsFrom rest cur
    else operandsFrom rest (cur ++ [c])

/-- The operands of a line; none when nothing but blanks and a comment follows the mnemonic. -/
def operands (cs : List Char) : List (List Char) :=
  if operandsFrom cs [] = [[]] then [] else operandsFrom cs []

/-- The value of a digit below the base, decimal or hexadecimal. -/
def digitVal (base : Nat) (c : Char) : Option Nat :=
  if '0'.toNat ≤ c.toNat ∧ c.toNat ≤ '9'.toNat then some (c.toNat - '0'.toNat)
  else if base = 16 ∧ 'a'.toNat ≤ c.toNat ∧ c.toNat ≤ 'f'.toNat then some (c.toNat - 'a'.toNat + 10)
  else if base = 16 ∧ 'A'.toNat ≤ c.toNat ∧ c.toNat ≤ 'F'.toNat then some (c.toNat - 'A'.toNat + 10)
  else none

/-- The value of a non-empty list of digits, most significant first, after what has been read. -/
def digitsVal (base : Nat) : List Char → Nat → Option Nat
  | [], acc => some acc
  | c :: cs, acc =>
    match digitVal base c with
    | some d => digitsVal base cs (acc * base + d)
    | none => none

/-- A number: decimal, or hexadecimal after `0x`. -/
def number : List Char → Option Nat
  | [] => none
  | ['0', 'x'] => none
  | '0' :: 'x' :: ds => digitsVal 16 ds 0
  | ds => digitsVal 10 ds 0

/-- A byte operand: hexadecimal, decimal, or a character in single quotes, its ASCII value. -/
def byteOperand : List Char → Option Byte
  | ['\'', c, '\''] => if c.toNat < 128 then some (BitVec.ofNat 8 c.toNat) else none
  | cs =>
    match number cs with
    | some n => if n < 256 then some (BitVec.ofNat 8 n) else none
    | none => none

/-- A symbol operand: `TERM`, or a byte written the same way. -/
def symbolOperand (cs : List Char) : Option Symbol :=
  if cs = ['T', 'E', 'R', 'M'] then some .terminator else (byteOperand cs).map .byte

/-- The names of the status registers (10_state.md R40). -/
def regName : StReg → List Char
  | .phase => ['P', 'H', 'A', 'S', 'E']
  | .fcode => ['F', 'C', 'O', 'D', 'E']
  | .fsticky => ['F', 'S', 'T', 'I', 'C', 'K', 'Y']
  | .finfo => ['F', 'I', 'N', 'F', 'O']
  | .len => ['L', 'E', 'N']
  | .nleaf => ['N', 'L', 'E', 'A', 'F']
  | .nnode => ['N', 'N', 'O', 'D', 'E']
  | .root => ['R', 'O', 'O', 'T']
  | .cur => ['C', 'U', 'R']
  | .rootw => ['R', 'O', 'O', 'T', 'W']

/-- A register operand: its number or its name. -/
def regOperand (cs : List Char) : Option StReg :=
  match number cs with
  | some n => StReg.ofNum n
  | none => [StReg.phase, .fcode, .fsticky, .finfo, .len, .nleaf, .nnode, .root, .cur, .rootw].find? fun r => regName r == cs

/-- An offer operand: `0`, `1` or `END`. -/
def offerOperand (cs : List Char) : Option Offer :=
  if cs = ['0'] then some .bit0
  else if cs = ['1'] then some .bit1
  else if cs = ['E', 'N', 'D'] then some .endMark
  else none

/-- The mnemonics of 30_encoding.md R90. -/
def opcodeName : Opcode → List Char
  | .nop => ['N', 'O', 'P']
  | .clr => ['C', 'L', 'R']
  | .stRead => ['S', 'T', '.', 'R', 'E', 'A', 'D']
  | .ftRead => ['F', 'T', '.', 'R', 'E', 'A', 'D']
  | .ftLoad => ['F', 'T', '.', 'L', 'O', 'A', 'D']
  | .faByte => ['F', 'A', '.', 'B', 'Y', 'T', 'E']
  | .faEnd => ['F', 'A', '.', 'E', 'N', 'D']
  | .tbBuild => ['T', 'B', '.', 'B', 'U', 'I', 'L', 'D']
  | .cmGen => ['C', 'M', '.', 'G', 'E', 'N']
  | .encByte => ['E', 'N', 'C', '.', 'B', 'Y', 'T', 'E']
  | .encEnd => ['E', 'N', 'C', '.', 'E', 'N', 'D']
  | .decStep => ['D', 'E', 'C', '.', 'S', 'T', 'E', 'P']

/-- The opcodes, in the order of their numbers. -/
def allOpcodes : List Opcode :=
  [.nop, .clr, .stRead, .ftRead, .ftLoad, .faByte, .faEnd, .tbBuild, .cmGen, .encByte, .encEnd, .decStep]

/-- The command of an opcode and its written operands (30_encoding.md R81, R105). -/
def assembleOperands (op : Opcode) (ops : List (List Char)) : Option Instr :=
  match op, ops with
  | .nop, [] => some .nop
  | .clr, [] => some .clr
  | .stRead, [a] => (regOperand a).map .stRead
  | .ftRead, [a] => (symbolOperand a).map .ftRead
  | .ftLoad, [a, b] =>
    match symbolOperand a, number b with
    | some sy, some n => some (.ftLoad sy n)
    | _, _ => none
  | .faByte, [a] => (byteOperand a).map .faByte
  | .faEnd, [] => some .faEnd
  | .tbBuild, [] => some .tbBuild
  | .cmGen, [] => some .cmGen
  | .encByte, [a] => (byteOperand a).map .encByte
  | .encEnd, [] => some .encEnd
  | .decStep, [a] => (offerOperand a).map .decStep
  | _, _ => none

/-- A line of the notation as a command; `none` when it is not one (30_encoding.md R105). -/
def assemble (line : List Char) : Option Instr :=
  match allOpcodes.find? fun op => opcodeName op == (line.dropWhile isBlank).takeWhile fun c => !isBlank c && c != ';' with
  | some op => assembleOperands op (operands ((line.dropWhile isBlank).dropWhile fun c => !isBlank c && c != ';'))
  | none => none

end Sys2Proof.Machine
end

