-- ==== Sys2Proof/Machine/HostSequences.lean ====
section
/-! DEFINITION. What a host does with the block: issuing commands and reading responses, the pseudo-instructions of 30_encoding.md R106
and the sequences `COMPRESS` and `DECOMPRESS` of 46_host_sequences.md R210 to R213 (log 21). -/

namespace Sys2Proof.Machine

/-- The host issues a command: it is what the block is presented with next, and the block steps (70_reset_and_hazards.md
R274). -/
def issue (i : Instr) (s : State) : Result := step (present (.command (cmdWord i) i.wdata) s)

/-- The response to the last command. -/
def lastResponse (s : State) : Option Response := s.responses.getLast?

/-- How a host sequence ends: with its result, with the fault response the host reports after it has issued `CLR`
(46_host_sequences.md R213), or because the model stopped. -/
inductive HostRun (α : Type) where
  | ok (a : α) (s : State)
  | failed (r : Response) (s : State)
  | stopped
  deriving Repr

/-- One part of a sequence after another; a part that fails ends it (46_host_sequences.md R213). -/
def HostRun.andThen {α β : Type} (h : HostRun α) (k : α → State → HostRun β) : HostRun β :=
  match h with
  | .ok a s => k a s
  | .failed r s => .failed r s
  | .stopped => .stopped

/-- What the host does with a fault response: report it, and issue `CLR` (46_host_sequences.md R213). -/
def recover {α : Type} (r : Response) (s : State) : HostRun α :=
  match issue .clr s with
  | .next t => .failed r t
  | .fault _ => .stopped
  | .refused _ => .stopped

/-- Issue a command and read its response; any status but OK ends the sequence (46_host_sequences.md R213). -/
def issueOk (i : Instr) (s : State) : HostRun Response :=
  match issue i s with
  | .next t =>
    match lastResponse t with
    | some r => if r.status = .ok then .ok r t else recover r t
    | none => .stopped
  | .fault _ => .stopped
  | .refused _ => .stopped

/-- Issue commands one after another, each after the response to the one before (70_reset_and_hazards.md R274). -/
def issueAll : List Instr → State → HostRun Unit
  | [], s => .ok () s
  | i :: is, s => (issueOk i s).andThen fun _ t => issueAll is t

/-- `FA.BYTES b1, ..., bn` (30_encoding.md R106). -/
def faBytes (bs : List Byte) : List Instr := bs.map .faByte

/-- `ENC.BYTES b1, ..., bn` (30_encoding.md R106). -/
def encBytes (bs : List Byte) : List Instr := bs.map .encByte

/-- `FT.DUMP`: the 257 reads in ascending order (30_encoding.md R106). -/
def ftDump : List Instr := allSymbols.map .ftRead

/-- A frequency table as the host carries it: (symbol, count) pairs (46_host_sequences.md R210 step 4, R211). -/
abbrev HostTable := List (Symbol × Nat)

/-- The host reads the entries of the symbols given, in order, and keeps a pair for each non-zero one
(40_frequency_analyzer.md R129). -/
def readEntries : List Symbol → State → HostRun HostTable
  | [], s => .ok [] s
  | sy :: sys, s =>
    (issueOk (.ftRead sy) s).andThen fun r t =>
      (readEntries sys t).andThen fun tbl u => .ok (if r.rdata = 0 then tbl else (sy, r.rdata) :: tbl) u

/-- What a compressor hands over: the table (its wire format is external) and the payload (00_scope.md R6). -/
structure Stream where
  table : HostTable
  payload : BitString
  deriving DecidableEq, Repr

/-- The commands of `COMPRESS S` before the header is read: the first pass and its end (46_host_sequences.md R210 steps 1
and 2). -/
def firstPass (bs : List Byte) : List Instr := faBytes bs ++ [.faEnd]

/-- The commands of `COMPRESS S` after the header: build, generate, second pass, end (46_host_sequences.md R210 steps 5 to
8). -/
def secondPass (bs : List Byte) : List Instr := [.tbBuild, .cmGen] ++ encBytes bs ++ [.encEnd]

/-- `COMPRESS S` (46_host_sequences.md R210). The payload is what BITOUT gained in the second pass. -/
def compress (bs : List Byte) (s : State) : HostRun Stream :=
  (issueAll (firstPass bs) s).andThen fun _ s1 =>
    (readEntries allSymbols s1).andThen fun tbl s2 =>
      (issueAll (secondPass bs) s2).andThen fun _ s3 =>
        (issueOk .clr s3).andThen fun _ s4 =>
          .ok { table := tbl, payload := s3.bitout.drop s2.bitout.length } s4

/-- The host peeks its bit source: the next bit, or `END` once it is exhausted (46_host_sequences.md R212). -/
def peek : BitString → Offer
  | [] => .endMark
  | b :: _ => if b then .bit1 else .bit0

/-- The host advances its bit source exactly when the response says the bit was consumed (46_host_sequences.md R212,
70_reset_and_hazards.md R275). -/
def advance (r : Response) (src : BitString) : BitString := if r.flags.consumed then src.tail else src

/-- How a decode loop ends: done or with a fault, with the bits left in the source and the number of steps; or it is
still running after the number of steps allowed; or the model stopped. -/
inductive LoopEnd where
  | done (s : State) (left : BitString) (steps : Nat)
  | failed (r : Response) (s : State) (left : BitString) (steps : Nat)
  | running (s : State) (left : BitString)
  | stopped
  deriving DecidableEq, Repr

/-- The decode loop over a bit source, for at most the number of steps given first; `n` counts the steps made
(46_host_sequences.md R212). -/
def decodeLoop : Nat → Nat → BitString → State → LoopEnd
  | 0, _, src, s => .running s src
  | fuel + 1, n, src, s =>
    match issue (.decStep (peek src)) s with
    | .next t =>
      match lastResponse t with
      | some r =>
        if r.status = .ok then
          if r.flags.done then .done t (advance r src) (n + 1)
          else decodeLoop fuel (n + 1) (advance r src) t
        else .failed r t src (n + 1)
      | none => .stopped
    | .fault _ => .stopped
    | .refused _ => .stopped

/-- `DEC.BITS`: the decode loop over a source that yields the bits and then `END` for ever; it ends within one step more
than there are bits (30_encoding.md R106, 44_decoder.md R188). -/
def decBits (src : BitString) (s : State) : LoopEnd := decodeLoop (src.length + 1) 0 src s

/-- The loads of a table, one command per pair (46_host_sequences.md R211 step 2). -/
def loads (tbl : HostTable) : List Instr := tbl.map fun p => .ftLoad p.1 p.2

/-- `DECOMPRESS T, bits` (46_host_sequences.md R211). The result is what BYTEOUT gained in the decode loop. -/
def decompress (tbl : HostTable) (src : BitString) (s : State) : HostRun (List Byte) :=
  (issueAll (loads tbl ++ [.tbBuild]) s).andThen fun _ s1 =>
    match decBits src s1 with
    | .done s2 _ _ =>
      (issueOk .clr s2).andThen fun _ s3 => .ok (s2.byteout.drop s1.byteout.length) s3
    | .failed r s2 _ _ => recover r s2
    | .running _ _ => .stopped
    | .stopped => .stopped

end Sys2Proof.Machine
end

