-- ==== Sys2Proof/Safety.lean ====
section
/-! DEFINITION. What claims about HUFF are stated in: the invariants of 10_state.md R25, R27, R47 and R49, paths in the tree, the
phase table as the spec prints it, and what a run must not do. -/

namespace Sys2Proof.Machine

/-- The block runs on: the step answers a next state. -/
def Runs (s : State) : Prop := ∃ t, step s = .next t

/-- The sum of the byte entries of the table (10_state.md R27). -/
def byteTotal (ft : FreqTable) : Nat := ((List.range 256).map fun n => ftGet ft (.byte (BitVec.ofNat 8 n))).sum

/-- The empty table, the invalid arena, the absent code map. -/
abbrev emptyTable : FreqTable := Vector.replicate nsym 0
abbrev emptyArena : NodeArena := Vector.replicate nnodeMax none
abbrev emptyMap : CodeMap := Vector.replicate nsym none

/-- No tree: no valid node, and the tree registers as after reset (10_state.md R29, R31, R33). -/
structure NoTree (s : State) : Prop where
  node : s.node = emptyArena
  nleaf : s.nleaf = 0#9
  nnode : s.nnode = 0#10
  root : s.root = nilIndex
  cur : s.cur = nilIndex

/-- A tree: the one `TB.BUILD` makes of the table as it stands (20_memory.md R73), from a table it accepts
(41_tree_builder.md R141, R142), and the cursor on one of its nodes (10_state.md R33). -/
structure HasTree (s : State) : Prop where
  terminator : ftGet s.ft .terminator ≠ 0
  fits : ftTotal s.ft ≤ s.cfg.maxCnt
  node : s.node = writeNodes emptyArena 0 (builtNodes s.ft)
  nleaf : s.nleaf = BitVec.ofNat 9 (leaves s.ft).length
  nnode : s.nnode = BitVec.ofNat 10 (builtNodes s.ft).length
  root : s.root = builtRoot s.ft
  cur : (nodeGet s.node s.cur).isSome = true

/-- No code: every entry absent. -/
def NoCode (s : State) : Prop := s.code = emptyMap

/-- The code map is the one `CM.GEN` makes of the tree. -/
def HasCode (s : State) : Prop := generatedMap s.node s.root = .ok s.code

/-- The table and LEN, phase by phase (10_state.md R23, R27, R44). -/
def TableOk (s : State) : Prop :=
  match s.phase with
  | .idle => s.ft = emptyTable ∧ s.len = 0
  | .count => ftGet s.ft .terminator = 0 ∧ s.len = byteTotal s.ft ∧ 1 ≤ s.len
  | .load => s.len = 0 ∧ s.ft ≠ emptyTable
  | .table => ftGet s.ft .terminator = 1 ∧ s.len = byteTotal s.ft
  | .tree => s.len = 0 ∨ (ftGet s.ft .terminator = 1 ∧ s.len = byteTotal s.ft)
  | .mapped => s.len = 0 ∨ (ftGet s.ft .terminator = 1 ∧ s.len = byteTotal s.ft)
  | .encode => s.len = 0 ∨ (ftGet s.ft .terminator = 1 ∧ s.len = byteTotal s.ft)
  | .decode => s.len = 0 ∨ (ftGet s.ft .terminator = 1 ∧ s.len = byteTotal s.ft)
  | .done => s.len = 0 ∨ (ftGet s.ft .terminator = 1 ∧ s.len = byteTotal s.ft)
  | .fault => s.len = 0 ∨ s.len = byteTotal s.ft

/-- The tree, phase by phase; the cursor is at the root until the decoder moves it (10_state.md R23, R33, R47). -/
def TreeOk (s : State) : Prop :=
  match s.phase with
  | .idle => NoTree s
  | .count => NoTree s
  | .load => NoTree s
  | .table => NoTree s
  | .tree => HasTree s ∧ s.cur = s.root
  | .mapped => HasTree s ∧ s.cur = s.root
  | .encode => HasTree s ∧ s.cur = s.root
  | .decode => HasTree s
  | .done => HasTree s
  | .fault => NoTree s ∨ HasTree s

/-- The code map, phase by phase (10_state.md R23, R49). -/
def CodeOk (s : State) : Prop :=
  match s.phase with
  | .idle => NoCode s
  | .count => NoCode s
  | .load => NoCode s
  | .table => NoCode s
  | .tree => NoCode s
  | .mapped => HasCode s
  | .encode => HasCode s
  | .decode => NoCode s ∨ HasCode s
  | .done => NoCode s ∨ HasCode s
  | .fault => NoCode s ∨ (HasTree s ∧ HasCode s)

/-- The fault record: outside PHASE FAULT FCODE and FINFO are 0; in it FCODE is a fault's code and that fault's sticky bit is
set (10_state.md R24, R25, R26). -/
def FaultRecordOk (s : State) : Prop :=
  if s.phase = .fault then ∃ f : FaultKind, s.fcode = f.code ∧ s.fsticky.getLsbD f.code.toNat = true
  else s.fcode = 0#4 ∧ s.finfo = 0#16

/-- The invariant of the block: the parameter is legal, every count and LEN fit `CNT_W` bits (40_frequency_analyzer.md
R122), bits 0 and 7 of FSTICKY are 0 (10_state.md R25), and table, tree, code map and fault record agree with PHASE. -/
structure Inv (s : State) : Prop where
  cntW : s.cfg.legal = true
  counts : ∀ sy : Symbol, ftGet s.ft sy ≤ s.cfg.maxCnt
  len : s.len ≤ s.cfg.maxCnt - 1
  sticky : s.fsticky.getLsbD 0 = false ∧ s.fsticky.getLsbD 7 = false
  record : FaultRecordOk s
  table : TableOk s
  tree : TreeOk s
  code : CodeOk s

/-- The phases in which a tree exists (10_state.md R47). -/
def treePhase (p : Phase) : Bool := p == .tree || p == .mapped || p == .encode || p == .decode || p == .done

/-- The node a path leads to from a node: the zero-branch on 0, the one-branch on 1 (30_encoding.md R101,
42_code_map_generator.md R162). -/
def follow (ar : NodeArena) : NodeIndex → BitString → Option NodeIndex
  | i, [] => some i
  | i, b :: p =>
    match nodeGet ar i with
    | none => none
    | some n => follow ar (n.child b) p

/-- The entry of an index is a leaf whose `sym` is the symbol (10_state.md R45, R46). -/
def leafOf (ar : NodeArena) (i : NodeIndex) (sy : Symbol) : Prop :=
  ∃ n, nodeGet ar i = some n ∧ n.isLeaf = true ∧ n.sym = .symbol sy

/-- The path from the root leads to the leaf of the symbol (42_code_map_generator.md R162). -/
def pathTo (s : State) (p : BitString) (sy : Symbol) : Prop :=
  ∃ i, follow s.node s.root p = some i ∧ leafOf s.node i sy

/-- The tree invariants (a) to (h) of 10_state.md R47, with k = NLEAF, over the arena as it stands. -/
structure TreeInvariants (s : State) : Prop where
  /-- (a) Nodes 0 to 2k - 2 are valid and all others invalid. -/
  valid : ∀ i : NodeIndex, (nodeGet s.node i).isSome = true ↔ i.toNat + 1 < 2 * s.nleaf.toNat
  /-- (b) Nodes 0 to k - 1 are leaves. -/
  leafLow : ∀ (i : NodeIndex) (n : Node), nodeGet s.node i = some n → i.toNat < s.nleaf.toNat → n.isLeaf = true
  /-- (b) The leaves stand in ascending order of `sym`. -/
  ascending : ∀ (i j : NodeIndex) (m n : Node), nodeGet s.node i = some m → nodeGet s.node j = some n →
    i.toNat < j.toNat → j.toNat < s.nleaf.toNat → m.sym.num < n.sym.num
  /-- (b) Nodes k to 2k - 2 are internal with both children present. -/
  internalHigh : ∀ (i : NodeIndex) (n : Node), nodeGet s.node i = some n → s.nleaf.toNat ≤ i.toNat →
    n.c0 ≠ nilIndex ∧ n.c1 ≠ nilIndex
  /-- (c) An internal node weighs what its children weigh together, and its children are distinct and of smaller index. -/
  children : ∀ (i : NodeIndex) (n : Node), nodeGet s.node i = some n → n.isLeaf = false →
    n.c0.toNat < i.toNat ∧ n.c1.toNat < i.toNat ∧ n.c0 ≠ n.c1 ∧
      ∃ a b, nodeGet s.node n.c0 = some a ∧ nodeGet s.node n.c1 = some b ∧ n.weight = a.weight + b.weight
  /-- (d) Every valid node but ROOT is a child of exactly one node. -/
  owned : ∀ i : NodeIndex, (nodeGet s.node i).isSome = true → i ≠ s.root →
    ∃ j : NodeIndex, (∃ n, nodeGet s.node j = some n ∧ (n.c0 = i ∨ n.c1 = i)) ∧
      ∀ j' : NodeIndex, (∃ n, nodeGet s.node j' = some n ∧ (n.c0 = i ∨ n.c1 = i)) → j' = j
  /-- (d) ROOT is a valid node and the child of none. -/
  rootFree : (nodeGet s.node s.root).isSome = true ∧
    ∀ (j : NodeIndex) (n : Node), nodeGet s.node j = some n → n.c0 ≠ s.root ∧ n.c1 ≠ s.root
  /-- (e) Every symbol of the table is the `sym` of exactly one leaf. -/
  oneLeaf : ∀ sy : Symbol, ftGet s.ft sy ≠ 0 → ∃ i : NodeIndex, leafOf s.node i sy ∧ ∀ j, leafOf s.node j sy → j = i
  /-- (e) A leaf's weight is its symbol's count, not 0, so no other leaf exists. -/
  leafCount : ∀ (i : NodeIndex) (n : Node), nodeGet s.node i = some n → n.isLeaf = true →
    ∃ sy, n.sym = .symbol sy ∧ n.weight = ftGet s.ft sy ∧ ftGet s.ft sy ≠ 0
  /-- (f) The root weighs the sum of all entries of the table. -/
  rootWeighs : ∃ n, nodeGet s.node s.root = some n ∧ n.weight = ftTotal s.ft
  /-- (g) `sym` is the internal-node marker exactly on internal nodes. -/
  marker : ∀ (i : NodeIndex) (n : Node), nodeGet s.node i = some n → (n.sym = .internal ↔ n.isLeaf = false)
  /-- (h) The terminator has a leaf. -/
  terminator : ∃ i, leafOf s.node i .terminator

/-- The code-map invariants (a) to (e) of 10_state.md R49, with k = NLEAF. -/
structure CodeInvariants (s : State) : Prop where
  /-- (a) A symbol has a code exactly when it is in the table. -/
  present : ∀ sy : Symbol, (codeGet s.code sy).isSome = true ↔ ftGet s.ft sy ≠ 0
  /-- (b) A code is the path from ROOT to the symbol's leaf. -/
  path : ∀ (sy : Symbol) (p : BitString), codeGet s.code sy = some p → pathTo s p sy
  /-- (c) A code is at most NLEAF - 1 bits long. -/
  short : ∀ (sy : Symbol) (p : BitString), codeGet s.code sy = some p → p.length + 1 ≤ s.nleaf.toNat
  /-- (d) With two leaves or more no code is empty and none is the beginning of another. -/
  code : 2 ≤ s.nleaf.toNat → ∀ (a b : Symbol) (p q : BitString), codeGet s.code a = some p → codeGet s.code b = some q →
    p ≠ [] ∧ (a ≠ b → ¬ p <+: q)
  /-- (e) With one leaf the only entry is the terminator's, empty. -/
  single : s.nleaf.toNat = 1 → ∀ (sy : Symbol) (p : BitString), codeGet s.code sy = some p ↔ sy = .terminator ∧ p = []

/-- The phases in which each command is legal, as the table of 10_state.md R32 prints them. -/
def tableLegal : Instr → List Phase
  | .nop => [.idle, .count, .load, .table, .tree, .mapped, .encode, .decode, .done, .fault]
  | .clr => [.idle, .count, .load, .table, .tree, .mapped, .encode, .decode, .done, .fault]
  | .stRead _ => [.idle, .count, .load, .table, .tree, .mapped, .encode, .decode, .done, .fault]
  | .ftRead _ => [.idle, .count, .load, .table, .tree, .mapped, .encode, .decode, .done]
  | .ftLoad _ _ => [.idle, .load]
  | .faByte _ => [.idle, .count]
  | .faEnd => [.idle, .count]
  | .tbBuild => [.idle, .load, .table]
  | .cmGen => [.tree]
  | .encByte _ => [.mapped, .encode]
  | .encEnd => [.mapped, .encode]
  | .decStep _ => [.tree, .mapped, .decode]

/-- The phase after success, as the table of 10_state.md R32 prints it, from the phase before and whether the cursor
stands at the terminator leaf when the command begins. -/
def tableNext (i : Instr) (p : Phase) (atTerminator : Bool) : Phase :=
  match i with
  | .nop => p
  | .clr => .idle
  | .stRead _ => p
  | .ftRead _ => p
  | .ftLoad _ _ => .load
  | .faByte _ => .count
  | .faEnd => .table
  | .tbBuild => .tree
  | .cmGen => .mapped
  | .encByte _ => .encode
  | .encEnd => .done
  | .decStep _ => if atTerminator then .done else .decode

/-- The cursor stands at the terminator leaf (44_decoder.md R182). -/
def atTerminator (s : State) : Bool :=
  match nodeGet s.node s.cur with
  | some n => n.isLeaf && n.sym == .symbol .terminator
  | none => false

/-- The payload of a byte sequence under a code map: the codes in input order, then the terminator's; `none` when a byte
has no code (30_encoding.md R100). -/
def payloadOf (cm : CodeMap) : List Byte → Option BitString
  | [] => codeGet cm .terminator
  | b :: bs =>
    match codeGet cm (.byte b), payloadOf cm bs with
    | some c, some p => some (c ++ p)
    | _, _ => none

/-- The number of occurrences of a byte value (40_frequency_analyzer.md R125). -/
def occurrences (bs : List Byte) (v : Byte) : Nat := (bs.filter (· == v)).length

/-- The command from `s` to `t` gave exactly one response, with this status, these flags (bit 0 consumed, bit 1 emitted, bit
2 done) and this data (30_encoding.md R95). -/
def Answers (s t : State) (status : BitVec 4) (flags : BitVec 3) (rdata : Nat) : Prop :=
  ∃ r : Response, t.responses = s.responses ++ [r] ∧ r.status.code = status ∧ r.flags.bits = flags ∧ r.rdata = rdata

/-- Nothing but the responses differs (10_state.md R20). -/
def OnlyResponses (s t : State) : Prop := t = { s with responses := t.responses }

/-- Fault entry with code `c` in a command with word `w`, as 60_exceptions.md R240 writes it: the four writes, the response,
nothing else. -/
def FaultEntry (s t : State) (c : BitVec 4) (w : CmdWord) (emitted : Bool) : Prop :=
  Answers s t c (if emitted then 2#3 else 0#3) w.toNat ∧
    t = { s with
      fcode := c
      fsticky := s.fsticky ||| (1#8 <<< c.toNat)
      finfo := w
      phase := .fault
      responses := t.responses }

/-- The refusal of a block in PHASE FAULT: status 7, flags 0, data 0, no state change (60_exceptions.md R242). -/
def RefusedInFault (s t : State) : Prop := Answers s t 7#4 0#3 0 ∧ OnlyResponses s t

/-- The session registers and the arrays as after reset (10_state.md R55). -/
structure SessionCleared (t : State) : Prop where
  phase : t.phase.code = 0#4
  fcode : t.fcode = 0#4
  finfo : t.finfo = 0#16
  len : t.len = 0
  nleaf : t.nleaf = 0#9
  nnode : t.nnode = 0#10
  root : t.root = 0x3FF#10
  cur : t.cur = 0x3FF#10
  ft : ∀ sy : Symbol, ftGet t.ft sy = 0
  node : ∀ i : NodeIndex, nodeGet t.node i = none
  code : ∀ sy : Symbol, codeGet t.code sy = none

/-- A command word that is not one of the 1045 legal ones, by its fields: a reserved opcode (30_encoding.md R91), a reserved
bit that is 1 (R92), or an operand out of range (R93). -/
def wordIllegal (w : CmdWord) : Bool :=
  let op := w.toNat / 4096
  let z := w.toNat / 1024 % 4
  let arg := w.toNat % 1024
  12 ≤ op || z != 0 ||
    (match op with
      | 0 => arg != 0
      | 1 => arg != 0
      | 2 => 10 ≤ arg
      | 3 => 257 ≤ arg
      | 4 => 257 ≤ arg
      | 5 => 256 ≤ arg
      | 6 => arg != 0
      | 7 => arg != 0
      | 8 => arg != 0
      | 9 => 256 ≤ arg
      | 10 => arg != 0
      | 11 => 3 ≤ arg
      | _ => true)

/-- The number of legal words of each opcode (30_encoding.md R94). -/
def legalCount : Opcode → Nat
  | .nop => 1
  | .clr => 1
  | .stRead => 10
  | .ftRead => 257
  | .ftLoad => 257
  | .faByte => 256
  | .faEnd => 1
  | .tbBuild => 1
  | .cmGen => 1
  | .encByte => 256
  | .encEnd => 1
  | .decStep => 3

/-- `ST.READ` of a register completes with this value and changes nothing (45_system.md R202). -/
def ReadsAs (s : State) (r : StReg) (v : Nat) : Prop :=
  ∃ t, exec (.stRead r) s = .next t ∧ Answers s t 0#4 0#3 v ∧ OnlyResponses s t

/-- ROOT is `NIL` or names a valid node, so the view ROOTW can be read (10_state.md R41, 45_system.md R202). -/
def RootReadable (s : State) : Prop := s.root = nilIndex ∨ (nodeGet s.node s.root).isSome = true

/-- The value of the ROOTW view (10_state.md R41). -/
def rootwValue (s : State) : Nat :=
  if s.root = nilIndex then 0
  else
    match nodeGet s.node s.root with
    | some n => n.weight
    | none => 0

/-- The value of each status register (10_state.md R40). -/
def registerValue (s : State) : StReg → Nat
  | .phase => s.phase.code.toNat
  | .fcode => s.fcode.toNat
  | .fsticky => s.fsticky.toNat
  | .finfo => s.finfo.toNat
  | .len => s.len
  | .nleaf => s.nleaf.toNat
  | .nnode => s.nnode.toNat
  | .root => s.root.toNat
  | .cur => s.cur.toNat
  | .rootw => rootwValue s

/-- What the data of an OK response is, command by command, from `s` to `t` (30_encoding.md R97). -/
def dataOk (i : Instr) (s t : State) (r : Response) : Prop :=
  match i with
  | .nop => r.rdata = 0
  | .clr => r.rdata = 0
  | .stRead x => r.rdata = registerValue s x
  | .ftRead sy => r.rdata = ftGet s.ft sy
  | .ftLoad _ _ => r.rdata = 0
  | .faByte _ => r.rdata = 0
  | .faEnd => r.rdata = 0
  | .tbBuild => r.rdata = 0
  | .cmGen => r.rdata = 0
  | .encByte _ => t.bitout.length = s.bitout.length + r.rdata
  | .encEnd => t.bitout.length = s.bitout.length + r.rdata
  | .decStep _ =>
    if r.flags.emitted then ∃ b : Byte, t.byteout = s.byteout ++ [b] ∧ r.rdata = b.toNat else r.rdata = 0

/-- Nodes `i` and `j` by the key of `remove_min`: weight first, then node index (41_tree_builder.md R145). -/
def keyBefore (ar : NodeArena) (i j : NodeIndex) : Prop :=
  ∃ m n, nodeGet ar i = some m ∧ nodeGet ar j = some n ∧
    (m.weight < n.weight ∨ (m.weight = n.weight ∧ i.toNat < j.toNat))

/-- When node `i` was made, node `j` was in the queue: it was there already and no node made before `i` took it
(41_tree_builder.md R144). -/
def available (ar : NodeArena) (i j : NodeIndex) : Prop :=
  j.toNat < i.toNat ∧ (nodeGet ar j).isSome = true ∧
    ∀ (i' : NodeIndex) (n : Node), i'.toNat < i.toNat → nodeGet ar i' = some n → n.c0 ≠ j ∧ n.c1 ≠ j

/-- The pairs of a loaded table: every count positive and within the port's width, no symbol twice (10_state.md R44). -/
def goodTable (c : Config) (tbl : HostTable) : Prop :=
  (tbl.map Prod.fst).Nodup ∧ ∀ p ∈ tbl, 0 < p.2 ∧ p.2 ≤ c.maxCnt

/-- A fresh session on a block in the invariant (10_state.md R23). -/
def Ready (s : State) : Prop := Inv s ∧ s.phase = .idle

end Sys2Proof.Machine
end

