-- ==== Sys2Proof/WellFormed.lean ====
section
/-! DEFINITION. Well-formed commands. Operands are tagged types, so a symbol, a register, a byte and an offer are legal by
construction (30_encoding.md R81, 10_state.md R21); the one check left is that the write-data operand is a `CNT_W`-bit
value (30_encoding.md R80, R81 format SC). -/

namespace Sys2Proof

/-- The write-data operand fits the port's `CNT_W` bits. -/
def cntFits (c : Config) (cnt : Nat) : Bool := cnt < 2 ^ c.cntW

/-- A command the host can present on a block of configuration `c`. -/
def WellFormed (c : Config) : Instr → Bool
  | .nop => true
  | .clr => true
  | .stRead _ => true
  | .ftRead _ => true
  | .ftLoad _ cnt => cntFits c cnt
  | .faByte _ => true
  | .faEnd => true
  | .tbBuild => true
  | .cmGen => true
  | .encByte _ => true
  | .encEnd => true
  | .decStep _ => true

end Sys2Proof
end

