-- ==== Sys2Proof/Certificates/Slice0/Obligations.lean ====
section
/-! DEFINITION. The statements for the provers, from the numbered rules of the spec. A statement quantifies over every state unless it
names the invariant `Inv`, which `EveryStepKeepsTheInvariant` states to be kept by every step. -/

open Sys2Proof Sys2Proof.Machine

/-! ### Reset, stepping, the invariant -/

/-- 10_state.md R55: the state after reset, from any state; after `CLR` the same but for FSTICKY, BITOUT and BYTEOUT. -/
def Obligations.ResetAndClrLeaveTheResetValues : Prop :=
  (∀ (s : State) (rest : List HostInput), s.inputs = .reset :: rest →
    ∃ t, step s = .next t ∧ SessionCleared t ∧ t.fsticky = 0#8 ∧ t.bitout = [] ∧ t.byteout = []) ∧
  (SessionCleared State.reset ∧ State.reset.fsticky = 0#8 ∧ State.reset.bitout = [] ∧ State.reset.byteout = []) ∧
  ∀ s : State, ∃ t, exec .clr s = .next t ∧ SessionCleared t ∧
    t.fsticky = s.fsticky ∧ t.bitout = s.bitout ∧ t.byteout = s.byteout

/-- The step around `exec`: a legal word at the head of the host's inputs runs as its command, on the state with that input
taken; with no input the state is held (the model's choices, log 1, log 2 and log 5: the write data is cut to the port's
`CNT_W` bits). -/
def Obligations.StepRunsTheDecodedCommand : Prop :=
  (∀ (s : State) (w : CmdWord) (d : Nat) (rest : List HostInput) (i : Instr),
    s.inputs = .command w d :: rest → decode w (d % 2 ^ s.cfg.cntW) = .ok i →
      step s = exec i { s with inputs := rest }) ∧
  (∀ (s : State) (i : Instr), WellFormed s.cfg i = true →
    step (present (.command (cmdWord i) i.wdata) s) = exec i s) ∧
  ∀ s : State, s.inputs = [] → step s = .next s

/-- The invariant holds right after reset, for every instance of the block and whatever the host presents. -/
def Obligations.InvariantHoldsAtReset : Prop :=
  ∀ (c : Config) (ins : List HostInput), c.legal = true → Inv { State.reset with cfg := c, inputs := ins }

/-- Every step keeps the invariant: the table, the tree, the code map, LEN and the fault record agree with PHASE, every count
fits `CNT_W` bits, the tree is the one of the table as it stands (10_state.md R23 to R33, R44 to R49; 20_memory.md R73). -/
def Obligations.EveryStepKeepsTheInvariant : Prop :=
  ∀ s t : State, Inv s → step s = .next t → Inv t

/-- Under the invariant the model never stops: no rule reads an invalid node, no walk leaves the tree (20_memory.md R61,
93_implementation_defined.md U5, U11). -/
def Obligations.NoStepStopsUnderTheInvariant : Prop :=
  ∀ s : State, Inv s → Runs s

/-- What no command changes: the instance's parameter and what the host presents next (the model's own fields, log 1, log 3);
a command adds exactly one response (30_encoding.md R95; the record of responses is the model's, log 11). -/
def Obligations.CommandsKeepTheInstanceAndTheHostsInputs : Prop :=
  ∀ (i : Instr) (s t : State), exec i s = .next t →
    t.cfg = s.cfg ∧ t.inputs = s.inputs ∧ ∃ r : Response, t.responses = s.responses ++ [r]

/-! ### Encoding -/

/-- Decode and encode agree on every command, at every operand; every word has one command; and a well-formed command crosses
the port unchanged. -/
def Obligations.DecodeOfEncodeIsTheCommand : Prop :=
  (∀ i : Instr, decode (encode i).1 (encode i).2 = .ok i) ∧
  (∀ (w : CmdWord) (d : Nat) (i : Instr), decode w d = .ok i →
    cmdWord i = w ∧ ∀ (sy : Symbol) (c : Nat), i = .ftLoad sy c → c = d) ∧
  ∀ (c : Config) (i : Instr), WellFormed c i = true → decode (cmdWord i) (portData c i.wdata) = .ok i

/-- 30_encoding.md R94: the decoder accepts a word exactly when it breaks none of R91 to R93, and the legal words of each
opcode are as many as R94 counts, 1045 in all. -/
def Obligations.LegalWordsAreCounted : Prop :=
  (∀ (w : CmdWord) (d : Nat), (∃ i, decode w d = .ok i) ↔ wordIllegal w = false) ∧
  (∀ op : Opcode, ∃ l : List CmdWord, l.Nodup ∧ l.length = legalCount op ∧
    ∀ w : CmdWord, w ∈ l ↔ ∃ i d, decode w d = .ok i ∧ i.opcode = op) ∧
  (allOpcodes.map legalCount).sum = 1045

/-- Words written out from the table of 30_encoding.md R90 decode to their commands (a sanity statement). -/
def Obligations.SampleWordsDecode : Prop :=
  decode 0b0000000000000000#16 0 = .ok .nop ∧
  decode 0b0010000000001001#16 0 = .ok (.stRead .rootw) ∧
  decode 0b0011000100000000#16 0 = .ok (.ftRead .terminator) ∧
  decode 0b0100000001100001#16 2 = .ok (.ftLoad (.byte 0x61#8) 2) ∧
  decode 0b0101000001100001#16 0 = .ok (.faByte 0x61#8) ∧
  decode 0b0111000000000000#16 0 = .ok .tbBuild ∧
  decode 0b1000000000000000#16 0 = .ok .cmGen ∧
  decode 0b1001000011111111#16 0 = .ok (.encByte 0xFF#8) ∧
  decode 0b1011000000000010#16 0 = .ok (.decStep .endMark)

/-- 30_encoding.md R91, R92, R93 and 60_exceptions.md R236: a word with a reserved opcode, with a reserved bit that is 1, or
with an operand out of range takes IllegalCommand, whatever the phase (but FAULT, where R242 refuses it); and no word executes
as the command of another word. -/
def Obligations.IllegalWordsTakeIllegalCommand : Prop :=
  (∀ (s : State) (w : CmdWord) (d : Nat) (rest : List HostInput),
    s.inputs = .command w d :: rest → wordIllegal w = true → s.phase ≠ .fault →
      ∃ t, step s = .next t ∧ FaultEntry { s with inputs := rest } t 5#4 w false) ∧
  ∀ (w : CmdWord) (d : Nat) (i : Instr), decode w d = .ok i → wordIllegal w = false ∧ cmdWord i = w

/-! ### Phases and faults -/

/-- 10_state.md R32 and 60_exceptions.md R237: legality and the phase after success follow the table; a command out of phase
takes IllegalSequence with nothing written, and in PHASE FAULT it is refused; a command in a phase the table lists neither
takes IllegalSequence nor is refused; `TB.BUILD` from IDLE always faults MalformedHeader. -/
def Obligations.CommandsFollowThePhaseTable : Prop :=
  (∀ (i : Instr) (s : State), s.phase ∉ tableLegal i → s.phase ≠ .fault →
    ∃ t, exec i s = .next t ∧ FaultEntry s t 6#4 (cmdWord i) false) ∧
  (∀ (i : Instr) (s : State), s.phase ∉ tableLegal i → s.phase = .fault →
    ∃ t, exec i s = .next t ∧ RefusedInFault s t) ∧
  (∀ (i : Instr) (s t : State) (r : Response), s.phase ∈ tableLegal i → exec i s = .next t →
    t.responses = s.responses ++ [r] → r.status ≠ .faultTaken .illegalSequence ∧ r.status ≠ .faulted) ∧
  (∀ (i : Instr) (s t : State) (r : Response), exec i s = .next t → t.responses = s.responses ++ [r] → r.status = .ok →
    s.phase ∈ tableLegal i ∧ t.phase = tableNext i s.phase (atTerminator s)) ∧
  ∀ s : State, Inv s → s.phase = .idle → ∃ t, exec .tbBuild s = .next t ∧ FaultEntry s t 3#4 0x7000#16 false

/-- 60_exceptions.md R242: in PHASE FAULT every word but the legal words of `NOP`, `CLR` and `ST.READ` answers FAULTED and
changes nothing; `NOP` and `ST.READ` work as usual; `CLR` leaves the phase. -/
def Obligations.FaultPhaseRefusesAllButThreeCommands : Prop :=
  ∀ (s : State) (w : CmdWord) (d : Nat) (rest : List HostInput),
    s.inputs = .command w d :: rest → s.phase = .fault →
      (w ≠ 0x0000#16 → w ≠ 0x1000#16 → ¬(0x2000 ≤ w.toNat ∧ w.toNat ≤ 0x2009) →
        ∃ t, step s = .next t ∧ RefusedInFault { s with inputs := rest } t) ∧
      (w = 0x0000#16 → ∃ t, step s = .next t ∧ Answers s t 0#4 0#3 0 ∧ OnlyResponses { s with inputs := rest } t) ∧
      (∀ r : StReg, w = 0x2000#16 + BitVec.ofNat 16 r.num → RootReadable s →
        ∃ t, step s = .next t ∧ Answers s t 0#4 0#3 (registerValue s r) ∧ OnlyResponses { s with inputs := rest } t) ∧
      (w = 0x1000#16 → ∃ t, step s = .next t ∧ Answers s t 0#4 0#3 0 ∧ t.phase = .idle)

/-- 60_exceptions.md R240, R241: a command that takes a fault leaves exactly the state before it with the writes of fault entry,
but for a `DEC.STEP` that began at a byte leaf and took TruncatedStream, which has also appended the byte and set CUR to
ROOT. -/
def Obligations.FaultsArePrecise : Prop :=
  ∀ (s t : State) (w : CmdWord) (d : Nat) (rest : List HostInput) (r : Response) (f : FaultKind),
    s.inputs = .command w d :: rest → step s = .next t → t.responses = s.responses ++ [r] → r.status = .faultTaken f →
      FaultEntry { s with inputs := rest } t f.code w false ∨
      ∃ (b : Byte) (n : Node), nodeGet s.node s.cur = some n ∧ n.isLeaf = true ∧ n.sym = .symbol (.byte b) ∧
        w = 0xB002#16 ∧ f = .truncatedStream ∧
        FaultEntry { s with inputs := rest, byteout := s.byteout ++ [b], cur := s.root } t 2#4 w true

/-- 10_state.md R25: FSTICKY gains exactly the bit of the fault a command takes, loses no bit to any command, `CLR` included,
and is cleared by reset; bits 0 and 7 stay 0; `ST.READ 2` reads it. -/
def Obligations.StickyRegisterRecordsEveryFault : Prop :=
  (∀ (s t : State) (w : CmdWord) (d : Nat) (rest : List HostInput) (r : Response),
    s.inputs = .command w d :: rest → step s = .next t → t.responses = s.responses ++ [r] →
      (∀ f : FaultKind, r.status = .faultTaken f → t.fsticky = s.fsticky ||| (1#8 <<< f.code.toNat)) ∧
      ((∀ f : FaultKind, r.status ≠ .faultTaken f) → t.fsticky = s.fsticky)) ∧
  (∀ (s : State) (rest : List HostInput), s.inputs = .reset :: rest → ∃ t, step s = .next t ∧ t.fsticky = 0#8) ∧
  (∀ s t : State, step s = .next t → s.fsticky.getLsbD 0 = false → s.fsticky.getLsbD 7 = false →
    t.fsticky.getLsbD 0 = false ∧ t.fsticky.getLsbD 7 = false) ∧
  ∀ s : State, decode 0x2002#16 0 = .ok (.stRead .fsticky) ∧ ReadsAs s .fsticky s.fsticky.toNat

/-- 60_exceptions.md R243: `CLR` is the return from a fault and the only way out of PHASE FAULT, whatever word is presented;
FSTICKY keeps its record; a fault in the command right after `CLR` is an ordinary first fault. -/
def Obligations.ClrIsTheOnlyReturnFromAFault : Prop :=
  (∀ s : State, s.phase = .fault → ∃ t, exec .clr s = .next t ∧ Answers s t 0#4 0#3 0 ∧ SessionCleared t ∧
    t.fsticky = s.fsticky) ∧
  (∀ (s t : State) (w : CmdWord) (d : Nat) (rest : List HostInput), s.inputs = .command w d :: rest → s.phase = .fault →
    w ≠ 0x1000#16 → step s = .next t → OnlyResponses { s with inputs := rest } t) ∧
  (∀ (s t u : State) (w : CmdWord) (d : Nat) (rest : List HostInput) (r : Response) (f : FaultKind), s.phase = .fault →
    exec .clr s = .next t → step { t with inputs := .command w d :: rest } = .next u →
    u.responses = t.responses ++ [r] → r.status = .faultTaken f →
      FaultEntry { t with inputs := rest } u f.code w false ∧ u.fsticky = s.fsticky ||| (1#8 <<< f.code.toNat)) ∧
  ∀ (i : Instr) (s t : State), s.phase = .fault → exec .clr s = .next t → Phase.idle ∉ tableLegal i →
    ∃ u, exec i t = .next u ∧ FaultEntry t u 6#4 (cmdWord i) false

/-! ### Responses, traces, registers -/

/-- 30_encoding.md R95: a command ends with exactly one response, whose data fits the port; `consumed` says a `DEC.STEP` took
the offered bit and moved the cursor by it, and every `DEC.STEP` that completes short of DONE does; `emitted` says exactly one byte was appended; `done` says the command brought the
block to PHASE DONE. -/
def Obligations.EveryCommandAnswersOnce : Prop :=
  ∀ (s t : State) (w : CmdWord) (d : Nat) (rest : List HostInput),
    s.inputs = .command w d :: rest → step s = .next t →
      ∃ r : Response, t.responses = s.responses ++ [r] ∧
        (Inv s → r.rdata < 2 ^ s.cfg.cntW) ∧
        (r.flags.consumed = true ↔
          (∃ o : Offer, w = cmdWord (.decStep o)) ∧ r.status = .ok ∧ r.flags.done = false) ∧
        (r.flags.consumed = true → ∃ (o : Offer) (b : Bit) (n : Node), w = cmdWord (.decStep o) ∧ offerBit o = some b ∧
          (nodeGet s.node s.cur = some n ∨ nodeGet s.node s.root = some n) ∧ t.cur = n.child b) ∧
        (r.flags.emitted = true ↔ ∃ b : Byte, t.byteout = s.byteout ++ [b]) ∧
        (r.flags.emitted = true → opField w = 0xB#4) ∧
        (r.flags.done = true ↔ t.phase = .done ∧ s.phase ≠ .done)

/-- 30_encoding.md R97: the data of a response, by command and status. -/
def Obligations.ResponseDataByCommand : Prop :=
  ∀ (s t : State) (w : CmdWord) (d : Nat) (rest : List HostInput) (r : Response),
    s.inputs = .command w d :: rest → step s = .next t → t.responses = s.responses ++ [r] →
      (r.status = .ok → ∃ i, cmdWord i = w ∧ dataOk i s t r) ∧
      (∀ f : FaultKind, r.status = .faultTaken f → r.rdata = w.toNat ∧ t.finfo = w) ∧
      (r.status = .faulted → r.rdata = 0)

/-- 10_state.md R50: the traces only grow; only `ENC.BYTE` and `ENC.END` append bits, only `DEC.STEP` appends a byte; only
reset empties them. -/
def Obligations.TracesOnlyGrow : Prop :=
  (∀ (s t : State) (w : CmdWord) (d : Nat) (rest : List HostInput),
    s.inputs = .command w d :: rest → step s = .next t →
      (∃ p : BitString, t.bitout = s.bitout ++ p ∧ (p ≠ [] → opField w = 0x9#4 ∨ opField w = 0xA#4)) ∧
      ∃ q : List Byte, t.byteout = s.byteout ++ q ∧ (q ≠ [] → opField w = 0xB#4 ∧ q.length = 1)) ∧
  ∀ (s : State) (rest : List HostInput), s.inputs = .reset :: rest →
    ∃ t, step s = .next t ∧ t.bitout = [] ∧ t.byteout = []

/-- 10_state.md R40: `ST.READ` of each of the ten registers completes, in every phase, with the register's value and no state
change; the reset values; each register is written by the commands its row names and no other, and none by number; the
numbers 10 to 1023 are reserved (IllegalCommand). -/
def Obligations.StatusRegistersRead : Prop :=
  (∀ (s : State) (r : StReg), RootReadable s ∨ r ≠ .rootw → ReadsAs s r (registerValue s r)) ∧
  (∀ r : StReg, decode (0x2000#16 + BitVec.ofNat 16 r.num) 0 = .ok (.stRead r)) ∧
  (∀ r : StReg, ReadsAs State.reset r (if r = .root ∨ r = .cur then 0x3FF else 0)) ∧
  (∀ (i : Instr) (s t : State), exec i s = .next t →
    (t.fcode ≠ s.fcode ∨ t.finfo ≠ s.finfo → t.phase = .fault ∨ i = .clr) ∧
    (t.fsticky ≠ s.fsticky → t.phase = .fault) ∧
    (t.len ≠ s.len → (∃ b, i = .faByte b) ∨ i = .clr) ∧
    (t.nleaf ≠ s.nleaf ∨ t.nnode ≠ s.nnode ∨ t.root ≠ s.root → i = .tbBuild ∨ i = .clr) ∧
    (t.cur ≠ s.cur → i = .tbBuild ∨ (∃ o, i = .decStep o) ∨ i = .clr)) ∧
  ∀ (s : State) (n d : Nat) (rest : List HostInput), 10 ≤ n → n ≤ 1023 →
    s.inputs = .command (0x2000#16 + BitVec.ofNat 16 n) d :: rest → s.phase ≠ .fault →
      ∃ t, step s = .next t ∧ FaultEntry { s with inputs := rest } t 5#4 (0x2000#16 + BitVec.ofNat 16 n) false

/-- 10_state.md R41: ROOTW is the root's weight, or 0 when there is no tree; after a session that counted N bytes and built it is
LEN + 1 = N + 1. -/
def Obligations.RootwIsTheRootsWeight : Prop :=
  (∀ s : State, s.root = nilIndex → ReadsAs s .rootw 0) ∧
  (∀ (s : State) (n : Node), s.root ≠ nilIndex → nodeGet s.node s.root = some n → ReadsAs s .rootw n.weight) ∧
  ∀ (bs : List Byte) (s : State), Ready s → bs.length ≤ s.cfg.maxCnt - 1 →
    ∃ t, issueAll (firstPass bs ++ [.tbBuild]) s = .ok () t ∧ t.len = bs.length ∧ ReadsAs t .rootw (t.len + 1)

/-- `NOP` completes in every phase and `FT.READ` in every phase but FAULT, with the answer of 45_system.md R200 and
40_frequency_analyzer.md R129; neither changes any state. -/
def Obligations.NopAndTableReadsComplete : Prop :=
  (∀ s : State, ∃ t, exec .nop s = .next t ∧ Answers s t 0#4 0#3 0 ∧ OnlyResponses s t) ∧
  ∀ (sy : Symbol) (s : State), s.phase ≠ .fault →
    ∃ t, exec (.ftRead sy) s = .next t ∧ Answers s t 0#4 0#3 (ftGet s.ft sy) ∧ OnlyResponses s t

/-- 20_memory.md R65: reads have no side effect: after an `FT.READ` or `ST.READ`, every command does what it would have done
without it, and answers the same. -/
def Obligations.LaterCommandsDoNotSeeReads : Prop :=
  ∀ (i j : Instr) (s t u : State), ((∃ r, i = .stRead r) ∨ ∃ sy, i = .ftRead sy) → exec i s = .next t →
    exec j s = .next u →
      ∃ r : Response, u.responses = s.responses ++ [r] ∧ exec j t = .next { u with responses := t.responses ++ [r] }

/-- 10_state.md R27: `CLR` clears LEN, an `FA.BYTE` that completes increments it, and every other command, and an `FA.BYTE` that
does not complete, leaves it unchanged. -/
def Obligations.LenChangesOnlyByCountingAndClearing : Prop :=
  ∀ (i : Instr) (s t : State) (r : Response), exec i s = .next t → t.responses = s.responses ++ [r] →
    (i = .clr → t.len = 0) ∧
    (∀ b : Byte, i = .faByte b → r.status = .ok → t.len = s.len + 1) ∧
    (∀ b : Byte, i = .faByte b → r.status ≠ .ok → t.len = s.len) ∧
    (i ≠ .clr → (∀ b : Byte, i ≠ .faByte b) → t.len = s.len)

/-- 20_memory.md R73: once a tree exists, no command but `CLR` changes the table, the nodes, or the tree's registers. -/
def Obligations.TableAndTreeStayAsBuilt : Prop :=
  ∀ (i : Instr) (s t : State), treePhase s.phase = true → i ≠ .clr → exec i s = .next t →
    t.ft = s.ft ∧ t.node = s.node ∧ t.root = s.root ∧ t.nleaf = s.nleaf ∧ t.nnode = s.nnode

/-! ### frequency_analyzer -/

/-- `FA.BYTE` (40_frequency_analyzer.md R121, R122): in IDLE or COUNT it counts the byte and nothing else, or takes Overflow
when LEN is `MAXCNT` - 1; under the invariant the new count and LEN stay below `MAXCNT`. -/
def Obligations.FaByteCountsOneByte : Prop :=
  (∀ (b : Byte) (s : State), s.phase = .idle ∨ s.phase = .count → s.len ≠ s.cfg.maxCnt - 1 →
    ∃ t, exec (.faByte b) s = .next t ∧ Answers s t 0#4 0#3 0 ∧
      ftGet t.ft (.byte b) = ftGet s.ft (.byte b) + 1 ∧
      (∀ sy : Symbol, sy ≠ .byte b → ftGet t.ft sy = ftGet s.ft sy) ∧
      t = { s with ft := t.ft, len := s.len + 1, phase := .count, responses := t.responses } ∧
      (Inv s → ftGet t.ft (.byte b) ≤ t.len ∧ t.len ≤ s.cfg.maxCnt - 1)) ∧
  ∀ (b : Byte) (s : State), s.phase = .idle ∨ s.phase = .count → s.len = s.cfg.maxCnt - 1 →
    ∃ t, exec (.faByte b) s = .next t ∧ FaultEntry s t 4#4 (0x5000#16 + b.setWidth 16) false

/-- `FA.END` (40_frequency_analyzer.md R123): in IDLE or COUNT the terminator's count becomes 1, whatever it was, and nothing
else but PHASE changes. -/
def Obligations.FaEndSetsTheTerminatorsCount : Prop :=
  ∀ s : State, s.phase = .idle ∨ s.phase = .count →
    ∃ t, exec .faEnd s = .next t ∧ Answers s t 0#4 0#3 0 ∧ ftGet t.ft .terminator = 1 ∧
      (∀ sy : Symbol, sy ≠ .terminator → ftGet t.ft sy = ftGet s.ft sy) ∧
      t = { s with ft := t.ft, phase := .table, responses := t.responses }

/-- 40_frequency_analyzer.md R124: an empty input is a session whose first command is `FA.END`; the table holds the terminator
alone, and it is no error. -/
def Obligations.EmptyInputTableHoldsTheTerminatorAlone : Prop :=
  ∀ s : State, Ready s → ∃ t, exec .faEnd s = .next t ∧ Answers s t 0#4 0#3 0 ∧ ftGet t.ft .terminator = 1 ∧
    (∀ sy : Symbol, sy ≠ .terminator → ftGet t.ft sy = 0) ∧ t.len = 0 ∧ t.phase = .table

/-- 40_frequency_analyzer.md R125: after N `FA.BYTE` and one `FA.END` the table holds the number of occurrences of each byte,
the terminator once, LEN = N and a sum of N + 1; the order of the bytes does not matter. -/
def Obligations.FirstPassCountsOccurrences : Prop :=
  ∀ (bs : List Byte) (s : State), Ready s → bs.length ≤ s.cfg.maxCnt - 1 →
    ∃ t, issueAll (firstPass bs) s = .ok () t ∧ t.phase = .table ∧
      (∀ v : Byte, ftGet t.ft (.byte v) = occurrences bs v) ∧ ftGet t.ft .terminator = 1 ∧
      t.len = bs.length ∧ ftTotal t.ft = bs.length + 1 ∧
      ∀ (cs : List Byte) (u : State), cs.Perm bs → issueAll (firstPass cs) s = .ok () u → u.ft = t.ft

/-- `FT.LOAD` (40_frequency_analyzer.md R126, R127): in IDLE or LOAD a pair with a positive count for an absent symbol is
stored and nothing else but PHASE changes; a count of 0 and a symbol already present take MalformedHeader, FT unchanged. -/
def Obligations.FtLoadStoresOnePair : Prop :=
  ∀ (sy : Symbol) (cnt : Nat) (s : State), s.phase = .idle ∨ s.phase = .load →
    (cnt ≠ 0 → ftGet s.ft sy = 0 →
      ∃ t, exec (.ftLoad sy cnt) s = .next t ∧ Answers s t 0#4 0#3 0 ∧ ftGet t.ft sy = cnt ∧
        (∀ z : Symbol, z ≠ sy → ftGet t.ft z = ftGet s.ft z) ∧
        t = { s with ft := t.ft, phase := .load, responses := t.responses }) ∧
    (cnt = 0 ∨ ftGet s.ft sy ≠ 0 →
      ∃ t, exec (.ftLoad sy cnt) s = .next t ∧ FaultEntry s t 3#4 (0x4000#16 + BitVec.ofNat 16 sy.idx) false)

/-- 40_frequency_analyzer.md R128: the order of loading does not matter, for the table and for the tree built of it; the
terminator's count may be any positive value. -/
def Obligations.LoadOrderDoesNotMatter : Prop :=
  (∀ (tbl tbl' : HostTable) (s : State), Ready s → goodTable s.cfg tbl → tbl'.Perm tbl →
    ∃ t t', issueAll (loads tbl) s = .ok () t ∧ issueAll (loads tbl') s = .ok () t' ∧ t'.ft = t.ft ∧
      ∀ u u', exec .tbBuild t = .next u → exec .tbBuild t' = .next u' →
        u'.node = u.node ∧ u'.nleaf = u.nleaf ∧ u'.nnode = u.nnode ∧ u'.root = u.root) ∧
  ∀ (c : Nat) (s : State), Ready s → 0 < c → c ≤ s.cfg.maxCnt →
    ∃ t, issueAll [.ftLoad .terminator c, .tbBuild] s = .ok () t

/-- 40_frequency_analyzer.md R130: the table read in a session in TABLE or later and loaded in another, in any order, is the
same table, and builds the same tree. -/
def Obligations.TableRoundTripsThroughThePort : Prop :=
  ∀ s u : State, Inv s → s.phase = .table ∨ treePhase s.phase = true → Ready u → u.cfg = s.cfg →
    ∃ tbl s', readEntries allSymbols s = .ok tbl s' ∧
      ∀ tbl' : HostTable, tbl'.Perm tbl →
        ∃ v, issueAll (loads tbl') u = .ok () v ∧ v.ft = s.ft ∧
          ∃ x, issueAll [.tbBuild] v = .ok () x ∧
            (treePhase s.phase = true →
              x.node = s.node ∧ x.nleaf = s.nleaf ∧ x.nnode = s.nnode ∧ x.root = s.root)

/-! ### huffman_tree_builder -/

/-- 41_tree_builder.md R141: `TB.BUILD` on a table without the terminator takes MalformedHeader and builds nothing; after
`FA.END`, so in TABLE, the terminator is there; so a tree has a terminator leaf, and a tree of one leaf is the terminator
alone. -/
def Obligations.TbBuildRejectsATableWithoutTheTerminator : Prop :=
  (∀ s : State, s.phase = .idle ∨ s.phase = .load ∨ s.phase = .table → ftGet s.ft .terminator = 0 →
    ∃ t, exec .tbBuild s = .next t ∧ FaultEntry s t 3#4 0x7000#16 false) ∧
  (∀ s t : State, exec .faEnd s = .next t → t.phase = .table → s.phase ≠ .table → ftGet t.ft .terminator ≠ 0) ∧
  (∀ s : State, Inv s → s.phase = .table → ftGet s.ft .terminator ≠ 0) ∧
  ∀ s : State, Inv s → treePhase s.phase = true →
    (∃ i, leafOf s.node i .terminator) ∧
    (s.nleaf.toNat = 1 → ∀ (i : NodeIndex) (n : Node), nodeGet s.node i = some n → n.sym = .symbol .terminator)

/-- 41_tree_builder.md R142: a table whose counts sum above `MAXCNT` takes Overflow and builds nothing, after the
MalformedHeader check; when the check passes the sum is the root's weight, every other weight is smaller, and none exceeds
`MAXCNT`; after `FA.END` the sum is LEN + 1 and the check passes. -/
def Obligations.TbBuildRejectsAnOverflowingTable : Prop :=
  (∀ s : State, s.phase = .idle ∨ s.phase = .load ∨ s.phase = .table → s.cfg.maxCnt < ftTotal s.ft →
    (ftGet s.ft .terminator ≠ 0 → ∃ t, exec .tbBuild s = .next t ∧ FaultEntry s t 4#4 0x7000#16 false) ∧
    (ftGet s.ft .terminator = 0 → ∃ t, exec .tbBuild s = .next t ∧ FaultEntry s t 3#4 0x7000#16 false)) ∧
  (∀ s t : State, Inv s → exec .tbBuild s = .next t → t.phase = .tree → s.phase ≠ .tree →
    ∀ (i : NodeIndex) (n : Node), nodeGet t.node i = some n →
      n.weight ≤ s.cfg.maxCnt ∧ (i = t.root → n.weight = ftTotal s.ft) ∧ (i ≠ t.root → n.weight < ftTotal s.ft)) ∧
  ∀ s : State, Inv s → s.phase = .table → ftTotal s.ft = s.len + 1 ∧ ftTotal s.ft ≤ s.cfg.maxCnt

/-- `TB.BUILD` (41_tree_builder.md R140): in IDLE, LOAD or TABLE, on a table with the terminator whose counts fit, it completes;
CUR = ROOT, PHASE = TREE; only the node entries below NNODE, the tree's registers and PHASE are written. -/
def Obligations.TbBuildBuildsAndWritesOnlyTheTree : Prop :=
  ∀ s : State, s.phase = .idle ∨ s.phase = .load ∨ s.phase = .table → ftGet s.ft .terminator ≠ 0 →
    ftTotal s.ft ≤ s.cfg.maxCnt →
      ∃ t, exec .tbBuild s = .next t ∧ Answers s t 0#4 0#3 0 ∧ t.cur = t.root ∧
        (∀ i : NodeIndex, t.nnode.toNat ≤ i.toNat → nodeGet t.node i = nodeGet s.node i) ∧
        t = { s with
          node := t.node
          nleaf := t.nleaf
          nnode := t.nnode
          root := t.root
          cur := t.root
          phase := .tree
          responses := t.responses }

/-- 10_state.md R47: in every phase in which a tree exists, the invariants (a) to (h). -/
def Obligations.TreeInvariantsHoldWhereverATreeExists : Prop :=
  ∀ s : State, Inv s → treePhase s.phase = true → TreeInvariants s

/-- 41_tree_builder.md R144, R145: each internal node joins the two least nodes that were in the queue when it was made, by
weight and then by node index, the least on the zero-branch. -/
def Obligations.MergesTakeTheTwoLeastNodes : Prop :=
  ∀ s : State, Inv s → treePhase s.phase = true →
    ∀ (i : NodeIndex) (n : Node), nodeGet s.node i = some n → n.isLeaf = false →
      available s.node i n.c0 ∧ available s.node i n.c1 ∧ keyBefore s.node n.c0 n.c1 ∧
        ∀ j : NodeIndex, available s.node i j → j ≠ n.c0 → j ≠ n.c1 → keyBefore s.node n.c1 j

/-- 41_tree_builder.md R147: a table that holds the terminator only gives a tree of one leaf, a normal result. -/
def Obligations.SingleLeafTree : Prop :=
  ∀ s : State, s.phase = .idle ∨ s.phase = .load ∨ s.phase = .table → ftGet s.ft .terminator ≠ 0 →
    (∀ sy : Symbol, sy ≠ .terminator → ftGet s.ft sy = 0) → ftGet s.ft .terminator ≤ s.cfg.maxCnt →
      ∃ t, exec .tbBuild s = .next t ∧ Answers s t 0#4 0#3 0 ∧
        nodeGet t.node 0#10 = some { weight := ftGet s.ft .terminator, sym := .symbol .terminator, c0 := 0x3FF#10, c1 := 0x3FF#10 } ∧
        t.root = 0#10 ∧ t.nnode = 1#10 ∧ t.nleaf = 1#9

/-- 41_tree_builder.md R148: `TB.BUILD` is a function of FT alone. -/
def Obligations.BuildIsAFunctionOfTheTable : Prop :=
  ∀ s s' t t' : State, s'.cfg = s.cfg → s'.ft = s.ft → exec .tbBuild s = .next t → exec .tbBuild s' = .next t' →
    s.phase ≠ .tree → s'.phase ≠ .tree → t.phase = .tree → t'.phase = .tree →
      t'.nleaf = t.nleaf ∧ t'.nnode = t.nnode ∧ t'.root = t.root ∧
        ∀ i : NodeIndex, i.toNat < t.nnode.toNat → nodeGet t'.node i = nodeGet t.node i

/-- 41_tree_builder.md R150: with k leaves, NNODE = 2k - 1, the leaves are nodes 0 to k - 1 and the internal nodes, with two
children each, nodes k to 2k - 2, ROOT = 2k - 2, k <= 257; and no leaf is deeper than k - 1. -/
def Obligations.TreeCounts : Prop :=
  ∀ s : State, Inv s → treePhase s.phase = true →
    s.nleaf.toNat = (allSymbols.filter fun sy => ftGet s.ft sy != 0).length ∧ 1 ≤ s.nleaf.toNat ∧ s.nleaf.toNat ≤ 257 ∧
    s.nnode.toNat + 1 = 2 * s.nleaf.toNat ∧ s.nnode.toNat ≤ 513 ∧ s.root.toNat + 2 = 2 * s.nleaf.toNat ∧
    (∀ i : NodeIndex, i.toNat < s.nnode.toNat → ∃ n, nodeGet s.node i = some n ∧
      (i.toNat < s.nleaf.toNat → n.c0 = nilIndex ∧ n.c1 = nilIndex) ∧
      (s.nleaf.toNat ≤ i.toNat → (nodeGet s.node n.c0).isSome = true ∧ (nodeGet s.node n.c1).isSome = true)) ∧
    ∀ (p : BitString) (sy : Symbol), pathTo s p sy → p.length + 1 ≤ s.nleaf.toNat

/-- 41_tree_builder.md R151: an internal node weighs what its children weigh; the root weighs the sum of the table, N + 1 after
counting N bytes; the weights of the internal nodes do not decrease in creation order. -/
def Obligations.WeightsAddUpAndDoNotDecrease : Prop :=
  ∀ s : State, Inv s → treePhase s.phase = true →
    (∀ (i : NodeIndex) (n : Node), nodeGet s.node i = some n → n.isLeaf = false →
      ∃ a b, nodeGet s.node n.c0 = some a ∧ nodeGet s.node n.c1 = some b ∧ n.weight = a.weight + b.weight) ∧
    (∃ n, nodeGet s.node s.root = some n ∧ n.weight = ftTotal s.ft ∧
      (ftGet s.ft .terminator = 1 → s.len = byteTotal s.ft → n.weight = s.len + 1)) ∧
    ∀ (i j : NodeIndex) (m n : Node), nodeGet s.node i = some m → nodeGet s.node j = some n →
      m.isLeaf = false → n.isLeaf = false → i.toNat ≤ j.toNat → m.weight ≤ n.weight

/-- 41_tree_builder.md R152: the table and the tree of one byte value repeated N times; the byte leaf is the zero-branch when
N = 1, the one-branch when N >= 2; and the codes `CM.GEN` then gives. -/
def Obligations.TwoLeafTree : Prop :=
  ∀ (v : Byte) (n : Nat) (s : State), Ready s → 1 ≤ n → n ≤ s.cfg.maxCnt - 1 →
    ∃ t u, issueAll (firstPass (List.replicate n v) ++ [.tbBuild]) s = .ok () t ∧ exec .cmGen t = .next u ∧
      t.nleaf = 2#9 ∧ ftGet t.ft (.byte v) = n ∧ ftGet t.ft .terminator = 1 ∧
      (∀ sy : Symbol, sy ≠ .byte v → sy ≠ .terminator → ftGet t.ft sy = 0) ∧
      nodeGet t.node 0#10 = some { weight := n, sym := .symbol (.byte v), c0 := 0x3FF#10, c1 := 0x3FF#10 } ∧
      nodeGet t.node 1#10 = some { weight := 1, sym := .symbol .terminator, c0 := 0x3FF#10, c1 := 0x3FF#10 } ∧
      (n = 1 → nodeGet t.node 2#10 = some { weight := n + 1, sym := .internal, c0 := 0#10, c1 := 1#10 } ∧
        codeGet u.code (.byte v) = some [false] ∧ codeGet u.code .terminator = some [true]) ∧
      (2 ≤ n → nodeGet t.node 2#10 = some { weight := n + 1, sym := .internal, c0 := 1#10, c1 := 0#10 } ∧
        codeGet u.code (.byte v) = some [true] ∧ codeGet u.code .terminator = some [false])

/-! ### code_map_generator -/

/-- 42_code_map_generator.md R162 (and the frame of R160): `CM.GEN` completes in TREE; a symbol not in the table has no code, a
symbol in it has the one path from ROOT to its leaf; only CODE and PHASE are written. -/
def Obligations.CmGenGivesEverySymbolItsPath : Prop :=
  ∀ s : State, Inv s → s.phase = .tree →
    ∃ t, exec .cmGen s = .next t ∧ Answers s t 0#4 0#3 0 ∧
      t = { s with code := t.code, phase := .mapped, responses := t.responses } ∧
      ∀ sy : Symbol,
        (ftGet s.ft sy = 0 → codeGet t.code sy = none) ∧
        (ftGet s.ft sy ≠ 0 → ∃ p, codeGet t.code sy = some p ∧ pathTo s p sy ∧ ∀ q, pathTo s q sy → q = p)

/-- 10_state.md R49 and 42_code_map_generator.md R163: in MAPPED and ENCODE, and in DECODE and DONE when a code map was made, the
invariants (a) to (e); (d) is the property that no code begins another. -/
def Obligations.CodeInvariantsHoldWhereverACodeMapExists : Prop :=
  ∀ s : State, Inv s →
    s.phase = .mapped ∨ s.phase = .encode ∨ ((s.phase = .decode ∨ s.phase = .done) ∧ s.code ≠ emptyMap) →
      CodeInvariants s

/-- 42_code_map_generator.md R164: with one leaf ROOT is the terminator leaf, and the terminator's code is the empty bit string,
present, and the only one. -/
def Obligations.SingleLeafCodeIsEmptyAndPresent : Prop :=
  ∀ s : State, Inv s → s.phase = .tree → s.nleaf.toNat = 1 →
    leafOf s.node s.root .terminator ∧ ∃ t, exec .cmGen s = .next t ∧ codeGet t.code .terminator = some [] ∧
      ∀ sy : Symbol, sy ≠ .terminator → codeGet t.code sy = none

/-! ### huffman_encoder -/

/-- `ENC.BYTE` and `ENC.END` (43_encoder.md R170, R171, R172): in MAPPED or ENCODE the code is appended to BITOUT, first bit
first, and nothing else but PHASE changes; a symbol without a code takes MissingCodeForSymbol with no bit emitted. -/
def Obligations.EncoderEmitsTheCodeOrFaults : Prop :=
  ∀ s : State, s.phase = .mapped ∨ s.phase = .encode →
    (∀ (b : Byte) (c : BitString), codeGet s.code (.byte b) = some c →
      ∃ t, exec (.encByte b) s = .next t ∧ Answers s t 0#4 0#3 c.length ∧
        t = { s with bitout := s.bitout ++ c, phase := .encode, responses := t.responses }) ∧
    (∀ c : BitString, codeGet s.code .terminator = some c →
      ∃ t, exec .encEnd s = .next t ∧ Answers s t 0#4 4#3 c.length ∧
        t = { s with bitout := s.bitout ++ c, phase := .done, responses := t.responses }) ∧
    (∀ b : Byte, codeGet s.code (.byte b) = none →
      ∃ t, exec (.encByte b) s = .next t ∧ FaultEntry s t 1#4 (0x9000#16 + b.setWidth 16) false) ∧
    (codeGet s.code .terminator = none →
      ∃ t, exec .encEnd s = .next t ∧ FaultEntry s t 1#4 0xA000#16 false)

/-- 43_encoder.md R173: in MAPPED and ENCODE the terminator has a code, so `ENC.END` always completes there. -/
def Obligations.TerminatorAlwaysHasACode : Prop :=
  ∀ s : State, Inv s → s.phase = .mapped ∨ s.phase = .encode →
    (codeGet s.code .terminator).isSome = true ∧
    ∃ t, exec .encEnd s = .next t ∧ t.phase = .done

/-- 43_encoder.md R174: in the single-leaf case `ENC.END` in MAPPED appends nothing, answers done with data 0, and moves to
DONE. -/
def Obligations.EmptyInputEncodesToNothing : Prop :=
  ∀ s : State, Inv s → s.phase = .mapped → s.nleaf.toNat = 1 →
    ∃ t, exec .encEnd s = .next t ∧ Answers s t 0#4 4#3 0 ∧ t.bitout = s.bitout ∧ t.phase = .done

/-- 43_encoder.md R175 and 30_encoding.md R100: a second pass appends exactly the codes of its bytes in order and then the
terminator's; a pass with no fault is one whose bytes all have codes. -/
def Obligations.SecondPassEmitsThePayload : Prop :=
  ∀ (bs : List Byte) (s : State), s.phase = .mapped →
    (∀ p : BitString, payloadOf s.code bs = some p →
      ∃ t, issueAll (encBytes bs ++ [.encEnd]) s = .ok () t ∧ t.bitout = s.bitout ++ p ∧ t.phase = .done) ∧
    ∀ t : State, issueAll (encBytes bs ++ [.encEnd]) s = .ok () t →
      ∃ p, payloadOf s.code bs = some p ∧ t.bitout = s.bitout ++ p

/-! ### huffman_decoder -/

/-- 44_decoder.md R182: the outcomes of a `DEC.STEP`, row by row, each with everything it changes. -/
def Obligations.DecodeStepOutcomes : Prop :=
  ∀ (s : State) (n : Node), s.phase = .tree ∨ s.phase = .mapped ∨ s.phase = .decode → nodeGet s.node s.cur = some n →
    (n.isLeaf = true → n.sym = .symbol .terminator → ∀ o : Offer,
      ∃ t, exec (.decStep o) s = .next t ∧ Answers s t 0#4 4#3 0 ∧
        t = { s with phase := .done, responses := t.responses }) ∧
    (∀ (v : Byte) (m : Node) (o : Offer) (b : Bit), n.isLeaf = true → n.sym = .symbol (.byte v) →
      nodeGet s.node s.root = some m → offerBit o = some b → m.child b ≠ nilIndex →
        ∃ t, exec (.decStep o) s = .next t ∧ Answers s t 0#4 3#3 v.toNat ∧
          t = { s with byteout := s.byteout ++ [v], cur := m.child b, phase := .decode, responses := t.responses }) ∧
    (∀ v : Byte, n.isLeaf = true → n.sym = .symbol (.byte v) →
      ∃ t, exec (.decStep .endMark) s = .next t ∧
        FaultEntry { s with byteout := s.byteout ++ [v], cur := s.root } t 2#4 0xB002#16 true) ∧
    (∀ (o : Offer) (b : Bit), n.isLeaf = false → offerBit o = some b → n.child b ≠ nilIndex →
      ∃ t, exec (.decStep o) s = .next t ∧ Answers s t 0#4 1#3 0 ∧
        t = { s with cur := n.child b, phase := .decode, responses := t.responses }) ∧
    (n.isLeaf = false →
      ∃ t, exec (.decStep .endMark) s = .next t ∧ FaultEntry s t 2#4 0xB002#16 false)

/-- 44_decoder.md R185: with one leaf the root is the terminator leaf, the cursor is there after `TB.BUILD`, and the first
`DEC.STEP` answers done without consuming, whatever the offer; and no step ever follows an absent child. -/
def Obligations.SingleLeafDecodesToNothing : Prop :=
  (∀ (s : State) (o : Offer), Inv s → s.phase = .tree → s.nleaf.toNat = 1 →
    leafOf s.node s.root .terminator ∧ s.cur = s.root ∧
      ∃ t, exec (.decStep o) s = .next t ∧ Answers s t 0#4 4#3 0 ∧ t.byteout = s.byteout ∧ t.phase = .done) ∧
  ∀ (s : State) (o : Offer), Inv s → ∃ t, exec (.decStep o) s = .next t

/-- 44_decoder.md R186: where the offer is consulted the cursor is an internal node, both of whose children are valid, so
`DEC.STEP` completes on every bit and leaves the cursor on a valid node. -/
def Obligations.DescentStaysInTheTree : Prop :=
  ∀ (s : State) (n : Node), Inv s → s.phase = .tree ∨ s.phase = .mapped ∨ s.phase = .decode →
    nodeGet s.node s.cur = some n →
      (n.isLeaf = true → n.sym ≠ .symbol .terminator → ∃ m, nodeGet s.node s.root = some m ∧ m.isLeaf = false) ∧
      (∀ (i : NodeIndex) (m : Node), nodeGet s.node i = some m → m.isLeaf = false →
        (nodeGet s.node m.c0).isSome = true ∧ (nodeGet s.node m.c1).isSome = true) ∧
      ∀ (o : Offer) (b : Bit), offerBit o = some b →
        ∃ t, exec (.decStep o) s = .next t ∧ (nodeGet t.node t.cur).isSome = true ∧ t.phase ≠ .fault

/-- 44_decoder.md R188, R189: a decode loop over a finite source ends, within one step more than there are bits, done or with
TruncatedStream and no other fault. -/
def Obligations.DecodeLoopEndsDoneOrTruncated : Prop :=
  ∀ (src : BitString) (s : State), Inv s → s.phase = .tree ∨ s.phase = .mapped ∨ s.phase = .decode →
    (∃ t left n, decBits src s = .done t left n ∧ n ≤ src.length + 1 ∧ t.phase = .done) ∨
    ∃ r t left n, decBits src s = .failed r t left n ∧ n ≤ src.length + 1 ∧ r.status = .faultTaken .truncatedStream ∧
      t.phase = .fault

/-- 44_decoder.md R190: decoding inverts encoding: over the payload of a byte sequence followed by anything, the loop from
CUR = ROOT appends exactly those bytes, consumes exactly the payload, takes one step more than the payload has bits, and ends
done. -/
def Obligations.DecodingInvertsEncoding : Prop :=
  ∀ (bs : List Byte) (p x : BitString) (cm : CodeMap) (s : State), Inv s →
    s.phase = .tree ∨ s.phase = .mapped → generatedMap s.node s.root = .ok cm → payloadOf cm bs = some p →
      ∃ t, decBits (p ++ x) s = .done t x (p.length + 1) ∧ t.byteout = s.byteout ++ bs ∧ t.fsticky = s.fsticky

/-! ### The pipeline -/

/-- 46_host_sequences.md R214: the round trip. Compressing and decompressing, with any padding, on the same block or another,
takes no fault and gives the input back. -/
def Obligations.DecompressOfCompressIsTheInput : Prop :=
  ∀ (bs : List Byte) (s : State), Ready s → bs.length ≤ s.cfg.maxCnt - 1 →
    ∃ str t, compress bs s = .ok str t ∧ Ready t ∧
      ∀ (x : BitString) (u : State), Ready u → bs.length ≤ u.cfg.maxCnt - 1 →
        ∃ v, decompress str.table (str.payload ++ x) u = .ok bs v ∧ v.byteout = u.byteout ++ bs

/-- 46_host_sequences.md R215: under any table `TB.BUILD` accepts, any sequence of bytes that are in the table is encoded
without fault and decodes back to itself with the tree of the table. -/
def Obligations.AnyEncodableSequenceDecodesBack : Prop :=
  ∀ (tbl : HostTable) (bs : List Byte) (x : BitString) (s t : State), Ready s →
    issueAll (loads tbl ++ [.tbBuild]) s = .ok () t → (∀ b ∈ bs, ftGet t.ft (.byte b) ≠ 0) →
      ∃ u, issueAll ([.cmGen] ++ encBytes bs ++ [.encEnd]) t = .ok () u ∧
        ∃ v n, decBits (u.bitout.drop t.bitout.length ++ x) t = .done v x n ∧ v.byteout = t.byteout ++ bs

/-- 46_host_sequences.md R216: the table and the payload are a function of the input alone. -/
def Obligations.CompressIsAFunctionOfTheInput : Prop :=
  ∀ bs : List Byte, ∃ str : Stream, ∀ s : State, Ready s → bs.length ≤ s.cfg.maxCnt - 1 →
    ∃ t, compress bs s = .ok str t

/-- 46_host_sequences.md R217: the empty input, end to end: the table holds the terminator alone, the tree is one leaf, the
code is empty and present, the payload is empty; one decode step that consumes and emits nothing gives the empty output
back. -/
def Obligations.EmptyInputRoundTrips : Prop :=
  ∀ (x : BitString) (s u : State), Ready s → Ready u →
    (∃ s1 s2, issueAll [.faEnd, .tbBuild] s = .ok () s1 ∧ s1.nleaf = 1#9 ∧ s1.root = 0#10 ∧
      exec .cmGen s1 = .next s2 ∧ codeGet s2.code .terminator = some []) ∧
    (∃ str t, compress [] s = .ok str t ∧ str.table = [(.terminator, 1)] ∧ str.payload = []) ∧
    (∃ u1 u2, issueAll [.ftLoad .terminator 1, .tbBuild] u = .ok () u1 ∧ decBits x u1 = .done u2 x 1 ∧
      u2.byteout = u1.byteout) ∧
    ∃ w, decompress [(.terminator, 1)] x u = .ok [] w

/-- 46_host_sequences.md R218: one byte value repeated N times has two leaves and a payload of N + 1 bits, "01" for N = 1 and N
ones and a zero for N >= 2, and round-trips. -/
def Obligations.RepeatedByteRoundTrips : Prop :=
  ∀ (v : Byte) (n : Nat) (x : BitString) (s u : State), Ready s → Ready u → 1 ≤ n → n ≤ s.cfg.maxCnt - 1 →
    n ≤ u.cfg.maxCnt - 1 →
      (∃ s1, issueAll (firstPass (List.replicate n v) ++ [.tbBuild]) s = .ok () s1 ∧ s1.nleaf = 2#9) ∧
      ∃ str t w, compress (List.replicate n v) s = .ok str t ∧ str.table = [(.byte v, n), (.terminator, 1)] ∧
        str.payload = (if n = 1 then [false, true] else List.replicate n true ++ [false]) ∧
        str.payload.length = n + 1 ∧
        decompress str.table (str.payload ++ x) u = .ok (List.replicate n v) w

/-- 46_host_sequences.md R219: the payload `COMPRESS` hands over has the sum over the symbols of count times code length bits, by
the table and the code map of the session; and so has the payload of any sequence with the counts of the table. -/
def Obligations.PayloadLengthIsTheWeightedSum : Prop :=
  (∀ (bs : List Byte) (s : State), Ready s → bs.length ≤ s.cfg.maxCnt - 1 →
    ∃ str t u, compress bs s = .ok str t ∧ issueAll (firstPass bs ++ [.tbBuild, .cmGen]) s = .ok () u ∧
      str.payload.length = (allSymbols.map fun sy => ftGet u.ft sy * ((codeGet u.code sy).getD []).length).sum) ∧
  ∀ (bs : List Byte) (p : BitString) (s : State), Inv s → s.phase = .mapped → ftGet s.ft .terminator = 1 →
    (∀ v : Byte, ftGet s.ft (.byte v) = occurrences bs v) → payloadOf s.code bs = some p →
      p.length = (allSymbols.map fun sy => ftGet s.ft sy * ((codeGet s.code sy).getD []).length).sum
end

