-- ==== Sys2Proof/Laws/Arrays.lean ====
section
/-! SUPPORT. The laws of the three arrays: read after write, every other entry kept, what the symbols are and in which order. -/

namespace Sys2Proof.Machine

/-- Distinct symbols have distinct indices (10_state.md R21). -/
theorem symbol_idx_inj {a b : Symbol} (h : a.idx = b.idx) : a = b := by
  cases a with
  | byte x =>
    cases b with
    | byte y => exact congrArg Symbol.byte (BitVec.eq_of_toNat_eq h)
    | terminator =>
      have := x.isLt
      simp only [Symbol.idx, termIndex] at h
      omega
  | terminator =>
    cases b with
    | byte y =>
      have := y.isLt
      simp only [Symbol.idx, termIndex] at h
      omega
    | terminator => rfl

/-- The index of a symbol names it (10_state.md R21). -/
@[simp] theorem symbol_ofIdx_idx (sy : Symbol) : Symbol.ofIdx sy.idx = some sy := by
  cases sy with
  | byte b => simp [Symbol.ofIdx, Symbol.idx, b.isLt]
  | terminator => rfl

@[simp] theorem ftGet_ftSet_same (ft : FreqTable) (sy : Symbol) (v : Nat) : ftGet (ftSet ft sy v) sy = v := by
  simp [ftGet, ftSet]

theorem ftGet_ftSet_ne (ft : FreqTable) {a b : Symbol} (v : Nat) (h : b ≠ a) :
    ftGet (ftSet ft a v) b = ftGet ft b := by
  have : a.idx ≠ b.idx := fun e => h (symbol_idx_inj e).symm
  simp [ftGet, ftSet, Vector.getElem_set_ne, this]

@[simp] theorem codeGet_codeSet_same (cm : CodeMap) (sy : Symbol) (p : BitString) :
    codeGet (codeSet cm sy p) sy = some p := by
  simp [codeGet, codeSet]

theorem codeGet_codeSet_ne (cm : CodeMap) {a b : Symbol} (p : BitString) (h : b ≠ a) :
    codeGet (codeSet cm a p) b = codeGet cm b := by
  have : a.idx ≠ b.idx := fun e => h (symbol_idx_inj e).symm
  simp [codeGet, codeSet, Vector.getElem_set_ne, this]

@[simp] theorem ftGet_empty (sy : Symbol) : ftGet (Vector.replicate nsym 0) sy = 0 := by
  simp [ftGet]

@[simp] theorem codeGet_empty (sy : Symbol) : codeGet (Vector.replicate nsym none) sy = none := by
  simp [codeGet]

@[simp] theorem nodeGet_empty (i : NodeIndex) : nodeGet (Vector.replicate nnodeMax none) i = none := by
  simp [nodeGet]

/-- There is no entry `NIL` (20_memory.md R61). -/
@[simp] theorem nodeGet_nil (ar : NodeArena) : nodeGet ar nilIndex = none := by
  simp [nodeGet, nnodeMax]

/-- Two tables that answer alike at every symbol are equal (10_state.md R44). -/
theorem ft_ext {f g : FreqTable} (h : ∀ sy, ftGet f sy = ftGet g sy) : f = g := by
  refine Vector.ext fun i hi => ?_
  by_cases hb : i < 256
  · have := h (.byte (BitVec.ofNat 8 i))
    simpa [ftGet, Symbol.idx, Nat.mod_eq_of_lt hb] using this
  · have : i = 256 := by simp only [nsym] at hi; omega
    subst this
    exact h .terminator

/-- Two code maps that answer alike at every symbol are equal (10_state.md R48). -/
theorem code_ext {f g : CodeMap} (h : ∀ sy, codeGet f sy = codeGet g sy) : f = g := by
  refine Vector.ext fun i hi => ?_
  by_cases hb : i < 256
  · have := h (.byte (BitVec.ofNat 8 i))
    simpa [codeGet, Symbol.idx, Nat.mod_eq_of_lt hb] using this
  · have : i = 256 := by simp only [nsym] at hi; omega
    subst this
    exact h .terminator

theorem nodeGet_nodeSet (ar : NodeArena) (i : Nat) (n : Node) (j : NodeIndex) (hi : i < nnodeMax) :
    nodeGet (nodeSet ar i n) j = if j.toNat = i then some n else nodeGet ar j := by
  unfold nodeGet nodeSet
  split <;> rename_i hj
  · simp only [Vector.getElem_set]
    by_cases e : i = j.toNat
    · simp [e]
    · simp [e, Ne.symm e]
  · have : j.toNat ≠ i := by omega
    simp [this]

/-- What `writeNodes` leaves: the list at the indices from `i` up, everything else as it was. -/
theorem nodeGet_writeNodes (ns : List Node) (ar : NodeArena) (i : Nat) (j : NodeIndex) (h : i + ns.length ≤ nnodeMax) :
    nodeGet (writeNodes ar i ns) j =
      if i ≤ j.toNat ∧ j.toNat < i + ns.length then ns[j.toNat - i]? else nodeGet ar j := by
  induction ns generalizing ar i with
  | nil =>
    simp [writeNodes]
  | cons n ns ih =>
    simp only [List.length_cons] at h
    rw [writeNodes, ih _ _ (by omega), nodeGet_nodeSet _ _ _ _ (by omega)]
    by_cases e : j.toNat = i
    · rw [if_neg (by omega), if_pos e, if_pos (by simp only [List.length_cons]; omega)]
      simp [e]
    · by_cases c : i + 1 ≤ j.toNat ∧ j.toNat < i + 1 + ns.length
      · rw [if_pos c, if_pos (by simp only [List.length_cons]; omega)]
        obtain ⟨d, hd⟩ : ∃ d, j.toNat = i + 1 + d := ⟨j.toNat - (i + 1), by omega⟩
        simp [hd, show i + 1 + d - i = d + 1 by omega]
      · rw [if_neg c, if_neg e, if_neg (by simp only [List.length_cons]; omega)]

/-- Every symbol is in the list the tables are read by (10_state.md R22). -/
@[simp] theorem mem_allSymbols (sy : Symbol) : sy ∈ allSymbols := by
  cases sy with
  | byte b =>
    refine List.mem_append_left _ (List.mem_map.2 ⟨b.toNat, List.mem_range.2 b.isLt, ?_⟩)
    simp
  | terminator => simp [allSymbols]

/-- The list is in ascending order of symbol index: the indices are 0, 1, ..., 256 (10_state.md R22). -/
theorem allSymbols_idx : allSymbols.map Symbol.idx = List.range 257 := by decide +kernel

theorem allSymbols_length : allSymbols.length = 257 := by
  have := congrArg List.length allSymbols_idx
  simpa using this

theorem allSymbols_nodup : allSymbols.Nodup := by
  refine List.Nodup.of_map Symbol.idx ?_
  rw [allSymbols_idx]
  exact List.nodup_range

end Sys2Proof.Machine
end

