-- ==== Sys2Proof/Laws/State.lean ====
section
/-! SUPPORT. What each shared update of the state does to each field: one lemma per field, true by unfolding, for simp. -/

namespace Sys2Proof.Machine

@[simp] theorem respond_phase (r : Response) (s : State) : (respond r s).phase = s.phase := rfl
@[simp] theorem respond_fcode (r : Response) (s : State) : (respond r s).fcode = s.fcode := rfl
@[simp] theorem respond_fsticky (r : Response) (s : State) : (respond r s).fsticky = s.fsticky := rfl
@[simp] theorem respond_finfo (r : Response) (s : State) : (respond r s).finfo = s.finfo := rfl
@[simp] theorem respond_len (r : Response) (s : State) : (respond r s).len = s.len := rfl
@[simp] theorem respond_nleaf (r : Response) (s : State) : (respond r s).nleaf = s.nleaf := rfl
@[simp] theorem respond_nnode (r : Response) (s : State) : (respond r s).nnode = s.nnode := rfl
@[simp] theorem respond_root (r : Response) (s : State) : (respond r s).root = s.root := rfl
@[simp] theorem respond_cur (r : Response) (s : State) : (respond r s).cur = s.cur := rfl
@[simp] theorem respond_ft (r : Response) (s : State) : (respond r s).ft = s.ft := rfl
@[simp] theorem respond_node (r : Response) (s : State) : (respond r s).node = s.node := rfl
@[simp] theorem respond_code (r : Response) (s : State) : (respond r s).code = s.code := rfl
@[simp] theorem respond_bitout (r : Response) (s : State) : (respond r s).bitout = s.bitout := rfl
@[simp] theorem respond_byteout (r : Response) (s : State) : (respond r s).byteout = s.byteout := rfl
@[simp] theorem respond_cfg (r : Response) (s : State) : (respond r s).cfg = s.cfg := rfl
@[simp] theorem respond_inputs (r : Response) (s : State) : (respond r s).inputs = s.inputs := rfl
@[simp] theorem respond_responses (r : Response) (s : State) : (respond r s).responses = s.responses ++ [r] := rfl

@[simp] theorem raiseFault_phase (f : FaultKind) (w : CmdWord) (e : Bool) (s : State) : (raiseFault f w e s).phase = .fault := rfl
@[simp] theorem raiseFault_fcode (f : FaultKind) (w : CmdWord) (e : Bool) (s : State) : (raiseFault f w e s).fcode = f.code := rfl
@[simp] theorem raiseFault_fsticky (f : FaultKind) (w : CmdWord) (e : Bool) (s : State) : (raiseFault f w e s).fsticky = stickySet s.fsticky f := rfl
@[simp] theorem raiseFault_finfo (f : FaultKind) (w : CmdWord) (e : Bool) (s : State) : (raiseFault f w e s).finfo = w := rfl
@[simp] theorem raiseFault_len (f : FaultKind) (w : CmdWord) (e : Bool) (s : State) : (raiseFault f w e s).len = s.len := rfl
@[simp] theorem raiseFault_nleaf (f : FaultKind) (w : CmdWord) (e : Bool) (s : State) : (raiseFault f w e s).nleaf = s.nleaf := rfl
@[simp] theorem raiseFault_nnode (f : FaultKind) (w : CmdWord) (e : Bool) (s : State) : (raiseFault f w e s).nnode = s.nnode := rfl
@[simp] theorem raiseFault_root (f : FaultKind) (w : CmdWord) (e : Bool) (s : State) : (raiseFault f w e s).root = s.root := rfl
@[simp] theorem raiseFault_cur (f : FaultKind) (w : CmdWord) (e : Bool) (s : State) : (raiseFault f w e s).cur = s.cur := rfl
@[simp] theorem raiseFault_ft (f : FaultKind) (w : CmdWord) (e : Bool) (s : State) : (raiseFault f w e s).ft = s.ft := rfl
@[simp] theorem raiseFault_node (f : FaultKind) (w : CmdWord) (e : Bool) (s : State) : (raiseFault f w e s).node = s.node := rfl
@[simp] theorem raiseFault_code (f : FaultKind) (w : CmdWord) (e : Bool) (s : State) : (raiseFault f w e s).code = s.code := rfl
@[simp] theorem raiseFault_bitout (f : FaultKind) (w : CmdWord) (e : Bool) (s : State) : (raiseFault f w e s).bitout = s.bitout := rfl
@[simp] theorem raiseFault_byteout (f : FaultKind) (w : CmdWord) (e : Bool) (s : State) : (raiseFault f w e s).byteout = s.byteout := rfl
@[simp] theorem raiseFault_cfg (f : FaultKind) (w : CmdWord) (e : Bool) (s : State) : (raiseFault f w e s).cfg = s.cfg := rfl
@[simp] theorem raiseFault_inputs (f : FaultKind) (w : CmdWord) (e : Bool) (s : State) : (raiseFault f w e s).inputs = s.inputs := rfl
@[simp] theorem raiseFault_responses (f : FaultKind) (w : CmdWord) (e : Bool) (s : State) : (raiseFault f w e s).responses = s.responses ++ [faultResponse f w e] := rfl

@[simp] theorem clearSession_phase (s : State) : (clearSession s).phase = .idle := rfl
@[simp] theorem clearSession_fcode (s : State) : (clearSession s).fcode = 0#4 := rfl
@[simp] theorem clearSession_fsticky (s : State) : (clearSession s).fsticky = s.fsticky := rfl
@[simp] theorem clearSession_finfo (s : State) : (clearSession s).finfo = 0#16 := rfl
@[simp] theorem clearSession_len (s : State) : (clearSession s).len = 0 := rfl
@[simp] theorem clearSession_nleaf (s : State) : (clearSession s).nleaf = 0#9 := rfl
@[simp] theorem clearSession_nnode (s : State) : (clearSession s).nnode = 0#10 := rfl
@[simp] theorem clearSession_root (s : State) : (clearSession s).root = nilIndex := rfl
@[simp] theorem clearSession_cur (s : State) : (clearSession s).cur = nilIndex := rfl
@[simp] theorem clearSession_ft (s : State) : (clearSession s).ft = Vector.replicate nsym 0 := rfl
@[simp] theorem clearSession_node (s : State) : (clearSession s).node = Vector.replicate nnodeMax none := rfl
@[simp] theorem clearSession_code (s : State) : (clearSession s).code = Vector.replicate nsym none := rfl
@[simp] theorem clearSession_bitout (s : State) : (clearSession s).bitout = s.bitout := rfl
@[simp] theorem clearSession_byteout (s : State) : (clearSession s).byteout = s.byteout := rfl
@[simp] theorem clearSession_cfg (s : State) : (clearSession s).cfg = s.cfg := rfl
@[simp] theorem clearSession_inputs (s : State) : (clearSession s).inputs = s.inputs := rfl
@[simp] theorem clearSession_responses (s : State) : (clearSession s).responses = s.responses := rfl

@[simp] theorem putBits_phase (p : BitString) (s : State) : (putBits p s).phase = s.phase := rfl
@[simp] theorem putBits_fcode (p : BitString) (s : State) : (putBits p s).fcode = s.fcode := rfl
@[simp] theorem putBits_fsticky (p : BitString) (s : State) : (putBits p s).fsticky = s.fsticky := rfl
@[simp] theorem putBits_finfo (p : BitString) (s : State) : (putBits p s).finfo = s.finfo := rfl
@[simp] theorem putBits_len (p : BitString) (s : State) : (putBits p s).len = s.len := rfl
@[simp] theorem putBits_nleaf (p : BitString) (s : State) : (putBits p s).nleaf = s.nleaf := rfl
@[simp] theorem putBits_nnode (p : BitString) (s : State) : (putBits p s).nnode = s.nnode := rfl
@[simp] theorem putBits_root (p : BitString) (s : State) : (putBits p s).root = s.root := rfl
@[simp] theorem putBits_cur (p : BitString) (s : State) : (putBits p s).cur = s.cur := rfl
@[simp] theorem putBits_ft (p : BitString) (s : State) : (putBits p s).ft = s.ft := rfl
@[simp] theorem putBits_node (p : BitString) (s : State) : (putBits p s).node = s.node := rfl
@[simp] theorem putBits_code (p : BitString) (s : State) : (putBits p s).code = s.code := rfl
@[simp] theorem putBits_bitout (p : BitString) (s : State) : (putBits p s).bitout = s.bitout ++ p := rfl
@[simp] theorem putBits_byteout (p : BitString) (s : State) : (putBits p s).byteout = s.byteout := rfl
@[simp] theorem putBits_cfg (p : BitString) (s : State) : (putBits p s).cfg = s.cfg := rfl
@[simp] theorem putBits_inputs (p : BitString) (s : State) : (putBits p s).inputs = s.inputs := rfl
@[simp] theorem putBits_responses (p : BitString) (s : State) : (putBits p s).responses = s.responses := rfl

@[simp] theorem putByte_phase (b : Byte) (s : State) : (putByte b s).phase = s.phase := rfl
@[simp] theorem putByte_fcode (b : Byte) (s : State) : (putByte b s).fcode = s.fcode := rfl
@[simp] theorem putByte_fsticky (b : Byte) (s : State) : (putByte b s).fsticky = s.fsticky := rfl
@[simp] theorem putByte_finfo (b : Byte) (s : State) : (putByte b s).finfo = s.finfo := rfl
@[simp] theorem putByte_len (b : Byte) (s : State) : (putByte b s).len = s.len := rfl
@[simp] theorem putByte_nleaf (b : Byte) (s : State) : (putByte b s).nleaf = s.nleaf := rfl
@[simp] theorem putByte_nnode (b : Byte) (s : State) : (putByte b s).nnode = s.nnode := rfl
@[simp] theorem putByte_root (b : Byte) (s : State) : (putByte b s).root = s.root := rfl
@[simp] theorem putByte_cur (b : Byte) (s : State) : (putByte b s).cur = s.cur := rfl
@[simp] theorem putByte_ft (b : Byte) (s : State) : (putByte b s).ft = s.ft := rfl
@[simp] theorem putByte_node (b : Byte) (s : State) : (putByte b s).node = s.node := rfl
@[simp] theorem putByte_code (b : Byte) (s : State) : (putByte b s).code = s.code := rfl
@[simp] theorem putByte_bitout (b : Byte) (s : State) : (putByte b s).bitout = s.bitout := rfl
@[simp] theorem putByte_byteout (b : Byte) (s : State) : (putByte b s).byteout = s.byteout ++ [b] := rfl
@[simp] theorem putByte_cfg (b : Byte) (s : State) : (putByte b s).cfg = s.cfg := rfl
@[simp] theorem putByte_inputs (b : Byte) (s : State) : (putByte b s).inputs = s.inputs := rfl
@[simp] theorem putByte_responses (b : Byte) (s : State) : (putByte b s).responses = s.responses := rfl

@[simp] theorem applyReset_phase (s : State) : (applyReset s).phase = State.reset.phase := rfl
@[simp] theorem applyReset_fcode (s : State) : (applyReset s).fcode = State.reset.fcode := rfl
@[simp] theorem applyReset_fsticky (s : State) : (applyReset s).fsticky = State.reset.fsticky := rfl
@[simp] theorem applyReset_finfo (s : State) : (applyReset s).finfo = State.reset.finfo := rfl
@[simp] theorem applyReset_len (s : State) : (applyReset s).len = State.reset.len := rfl
@[simp] theorem applyReset_nleaf (s : State) : (applyReset s).nleaf = State.reset.nleaf := rfl
@[simp] theorem applyReset_nnode (s : State) : (applyReset s).nnode = State.reset.nnode := rfl
@[simp] theorem applyReset_root (s : State) : (applyReset s).root = State.reset.root := rfl
@[simp] theorem applyReset_cur (s : State) : (applyReset s).cur = State.reset.cur := rfl
@[simp] theorem applyReset_ft (s : State) : (applyReset s).ft = State.reset.ft := rfl
@[simp] theorem applyReset_node (s : State) : (applyReset s).node = State.reset.node := rfl
@[simp] theorem applyReset_code (s : State) : (applyReset s).code = State.reset.code := rfl
@[simp] theorem applyReset_bitout (s : State) : (applyReset s).bitout = State.reset.bitout := rfl
@[simp] theorem applyReset_byteout (s : State) : (applyReset s).byteout = State.reset.byteout := rfl
@[simp] theorem applyReset_cfg (s : State) : (applyReset s).cfg = s.cfg := rfl
@[simp] theorem applyReset_inputs (s : State) : (applyReset s).inputs = s.inputs := rfl
@[simp] theorem applyReset_responses (s : State) : (applyReset s).responses = State.reset.responses := rfl

@[simp] theorem takeInput_phase (s : State) : (takeInput s).phase = s.phase := rfl
@[simp] theorem takeInput_fcode (s : State) : (takeInput s).fcode = s.fcode := rfl
@[simp] theorem takeInput_fsticky (s : State) : (takeInput s).fsticky = s.fsticky := rfl
@[simp] theorem takeInput_finfo (s : State) : (takeInput s).finfo = s.finfo := rfl
@[simp] theorem takeInput_len (s : State) : (takeInput s).len = s.len := rfl
@[simp] theorem takeInput_nleaf (s : State) : (takeInput s).nleaf = s.nleaf := rfl
@[simp] theorem takeInput_nnode (s : State) : (takeInput s).nnode = s.nnode := rfl
@[simp] theorem takeInput_root (s : State) : (takeInput s).root = s.root := rfl
@[simp] theorem takeInput_cur (s : State) : (takeInput s).cur = s.cur := rfl
@[simp] theorem takeInput_ft (s : State) : (takeInput s).ft = s.ft := rfl
@[simp] theorem takeInput_node (s : State) : (takeInput s).node = s.node := rfl
@[simp] theorem takeInput_code (s : State) : (takeInput s).code = s.code := rfl
@[simp] theorem takeInput_bitout (s : State) : (takeInput s).bitout = s.bitout := rfl
@[simp] theorem takeInput_byteout (s : State) : (takeInput s).byteout = s.byteout := rfl
@[simp] theorem takeInput_cfg (s : State) : (takeInput s).cfg = s.cfg := rfl
@[simp] theorem takeInput_inputs (s : State) : (takeInput s).inputs = s.inputs.tail := rfl
@[simp] theorem takeInput_responses (s : State) : (takeInput s).responses = s.responses := rfl

@[simp] theorem present_phase (h : HostInput) (s : State) : (present h s).phase = s.phase := rfl
@[simp] theorem present_fcode (h : HostInput) (s : State) : (present h s).fcode = s.fcode := rfl
@[simp] theorem present_fsticky (h : HostInput) (s : State) : (present h s).fsticky = s.fsticky := rfl
@[simp] theorem present_finfo (h : HostInput) (s : State) : (present h s).finfo = s.finfo := rfl
@[simp] theorem present_len (h : HostInput) (s : State) : (present h s).len = s.len := rfl
@[simp] theorem present_nleaf (h : HostInput) (s : State) : (present h s).nleaf = s.nleaf := rfl
@[simp] theorem present_nnode (h : HostInput) (s : State) : (present h s).nnode = s.nnode := rfl
@[simp] theorem present_root (h : HostInput) (s : State) : (present h s).root = s.root := rfl
@[simp] theorem present_cur (h : HostInput) (s : State) : (present h s).cur = s.cur := rfl
@[simp] theorem present_ft (h : HostInput) (s : State) : (present h s).ft = s.ft := rfl
@[simp] theorem present_node (h : HostInput) (s : State) : (present h s).node = s.node := rfl
@[simp] theorem present_code (h : HostInput) (s : State) : (present h s).code = s.code := rfl
@[simp] theorem present_bitout (h : HostInput) (s : State) : (present h s).bitout = s.bitout := rfl
@[simp] theorem present_byteout (h : HostInput) (s : State) : (present h s).byteout = s.byteout := rfl
@[simp] theorem present_cfg (h : HostInput) (s : State) : (present h s).cfg = s.cfg := rfl
@[simp] theorem present_inputs (h : HostInput) (s : State) : (present h s).inputs = h :: s.inputs := rfl
@[simp] theorem present_responses (h : HostInput) (s : State) : (present h s).responses = s.responses := rfl

end Sys2Proof.Machine
end

