-- ==== Sys2Proof/Laws/Ops.lean ====
section
/-! SUPPORT. One lemma for each shared operation that says everything it can do; and what a step does with what the host presents. -/

namespace Sys2Proof.Machine

/-- The phase table as code runs a command in PHASE FAULT exactly when the command runs there (10_state.md R32,
60_exceptions.md R242). -/
theorem legalIn_fault (i : Instr) : legalIn i .fault = runsInFault i := by
  cases i <;> rfl

/-- `common_checks`: the command is refused, takes IllegalSequence, or runs its body (60_exceptions.md R245). -/
theorem commonChecks_cases (i : Instr) (body : State → Result) (s : State) :
    (s.phase = .fault ∧ runsInFault i = false ∧ commonChecks i body s = .next (respond faultedResponse s)) ∨
    (s.phase ≠ .fault ∧ legalIn i s.phase = false ∧
      commonChecks i body s = .next (raiseFault .illegalSequence (cmdWord i) false s)) ∨
    (legalIn i s.phase = true ∧ commonChecks i body s = body s) := by
  unfold commonChecks
  by_cases hf : s.phase = .fault
  · cases hr : runsInFault i with
    | false => exact .inl ⟨hf, rfl, by simp [hf]⟩
    | true =>
      have hl : legalIn i s.phase = true := by rw [hf, legalIn_fault, hr]
      exact .inr (.inr ⟨hl, by simp [hl]⟩)
  · cases hl : legalIn i s.phase with
    | false => exact .inr (.inl ⟨hf, rfl, by simp [hf]⟩)
    | true => exact .inr (.inr ⟨rfl, by simp [hf]⟩)

/-- A command runs its body in a phase that is legal for it. -/
theorem commonChecks_legal {i : Instr} {s : State} (body : State → Result) (h : legalIn i s.phase = true) :
    commonChecks i body s = body s := by
  obtain ⟨hf, hr, -⟩ | ⟨-, hl, -⟩ | ⟨-, e⟩ := commonChecks_cases i body s
  · rw [hf, legalIn_fault, hr] at h
    cases h
  · rw [hl] at h
    cases h
  · exact e

/-- A command word that is not legal: refused in PHASE FAULT, else IllegalCommand (60_exceptions.md R236, R242). -/
theorem illegalWord_cases (w : CmdWord) (s : State) :
    (s.phase = .fault ∧ illegalWord w s = respond faultedResponse s) ∨
    (s.phase ≠ .fault ∧ illegalWord w s = raiseFault .illegalCommand w false s) := by
  unfold illegalWord
  by_cases hf : s.phase = .fault
  · exact .inl ⟨hf, by simp [hf]⟩
  · exact .inr ⟨hf, by simp [hf]⟩

/-- A step with nothing presented holds the state. -/
theorem step_idle {s : State} (h : s.inputs = []) : step s = .next s := by
  simp [step, fetch, h]

/-- A step that takes a reset. -/
theorem step_reset {s : State} {rest : List HostInput} (h : s.inputs = .reset :: rest) :
    step s = .next (applyReset (takeInput s)) := by
  simp [step, fetch, h]

/-- A step that takes a legal command word runs the command. -/
theorem step_command {s : State} {w : CmdWord} {d : Nat} {rest : List HostInput} {i : Instr}
    (h : s.inputs = .command w d :: rest) (hd : decode w (portData s.cfg d) = .ok i) :
    step s = exec i (takeInput s) := by
  simp [step, fetch, h, hd]

/-- A step that takes a command word that is not legal. -/
theorem step_illegal {s : State} {w : CmdWord} {d : Nat} {rest : List HostInput} {e : Illegal}
    (h : s.inputs = .command w d :: rest) (hd : decode w (portData s.cfg d) = .error e) :
    step s = .next (illegalWord w (takeInput s)) := by
  simp [step, fetch, h, hd]

/-- Presenting an input and taking it leaves the state as it was. -/
@[simp] theorem takeInput_present (h : HostInput) (s : State) : takeInput (present h s) = s := rfl

/-- What one step can do. -/
theorem step_cases (s : State) :
    (s.inputs = [] ∧ step s = .next s) ∨
    (∃ rest, s.inputs = .reset :: rest ∧ step s = .next (applyReset (takeInput s))) ∨
    (∃ w d rest i, s.inputs = .command w d :: rest ∧ decode w (portData s.cfg d) = .ok i ∧
      step s = exec i (takeInput s)) ∨
    (∃ w d rest e, s.inputs = .command w d :: rest ∧ decode w (portData s.cfg d) = .error e ∧
      step s = .next (illegalWord w (takeInput s))) := by
  cases hi : s.inputs with
  | nil => exact .inl ⟨rfl, step_idle hi⟩
  | cons h rest =>
    cases h with
    | reset => exact .inr (.inl ⟨rest, rfl, step_reset hi⟩)
    | command w d =>
      cases hd : decode w (portData s.cfg d) with
      | ok i => exact .inr (.inr (.inl ⟨w, d, rest, i, rfl, hd, step_command hi hd⟩))
      | error e => exact .inr (.inr (.inr ⟨w, d, rest, e, rfl, hd, step_illegal hi hd⟩))

end Sys2Proof.Machine
end

