-- ==== Sys2Proof/Laws/Commands.lean ====
section
/-! SUPPORT. What each command can do, said once: `exec` is the common checks around a body, and each body's outcomes. -/

namespace Sys2Proof.Machine

/-- The command's own part, what it does where it is legal. -/
def bodyOf : Instr → State → Result
  | .nop => nopBody
  | .clr => clrBody
  | .stRead r => stReadBody r
  | .ftRead sy => ftReadBody sy
  | .ftLoad sy cnt => ftLoadBody sy cnt
  | .faByte b => faByteBody b
  | .faEnd => faEndBody
  | .tbBuild => tbBuildBody
  | .cmGen => cmGenBody
  | .encByte b => encByteBody b
  | .encEnd => encEndBody
  | .decStep o => decStepBody o

/-- Every command makes the common checks first (60_exceptions.md R245). -/
theorem exec_eq (i : Instr) (s : State) : exec i s = commonChecks i (bodyOf i) s := by
  cases i <;> rfl

/-- A command is refused in PHASE FAULT, or takes IllegalSequence, or does its own part. -/
theorem exec_cases (i : Instr) (s : State) :
    (s.phase = .fault ∧ runsInFault i = false ∧ exec i s = .next (respond faultedResponse s)) ∨
    (s.phase ≠ .fault ∧ legalIn i s.phase = false ∧
      exec i s = .next (raiseFault .illegalSequence (cmdWord i) false s)) ∨
    (legalIn i s.phase = true ∧ exec i s = bodyOf i s) := by
  rw [exec_eq]
  exact commonChecks_cases i (bodyOf i) s

theorem exec_legal {i : Instr} {s : State} (h : legalIn i s.phase = true) : exec i s = bodyOf i s := by
  rw [exec_eq]
  exact commonChecks_legal _ h

/-- `ST.READ` answers the register's value, or stops at a root that is no valid node. -/
theorem stReadBody_cases (r : StReg) (s : State) :
    (∃ v, readReg r s = .ok v ∧ stReadBody r s = complete RspFlags.zero v s) ∨
    (∃ e, readReg r s = .error e ∧ stReadBody r s = .fault e) := by
  unfold stReadBody
  cases readReg r s with
  | ok v => exact .inl ⟨v, rfl, rfl⟩
  | error e => exact .inr ⟨e, rfl, rfl⟩

theorem faByteBody_cases (b : Byte) (s : State) :
    (s.len = s.cfg.maxCnt - 1 ∧ faByteBody b s = .next (raiseFault .overflow (cmdWord (.faByte b)) false s)) ∨
    (s.len ≠ s.cfg.maxCnt - 1 ∧ faByteBody b s = complete RspFlags.zero 0
      { s with ft := ftSet s.ft (.byte b) (ftGet s.ft (.byte b) + 1), len := s.len + 1, phase := .count }) := by
  unfold faByteBody
  split
  · exact .inl ⟨‹_›, rfl⟩
  · exact .inr ⟨‹_›, rfl⟩

theorem ftLoadBody_cases (sy : Symbol) (cnt : Nat) (s : State) :
    ((cnt = 0 ∨ ftGet s.ft sy ≠ 0) ∧
      ftLoadBody sy cnt s = .next (raiseFault .malformedHeader (cmdWord (.ftLoad sy cnt)) false s)) ∨
    (cnt ≠ 0 ∧ ftGet s.ft sy = 0 ∧
      ftLoadBody sy cnt s = complete RspFlags.zero 0 { s with ft := ftSet s.ft sy cnt, phase := .load }) := by
  unfold ftLoadBody
  split
  · exact .inl ⟨.inl ‹_›, rfl⟩
  · split
    · exact .inl ⟨.inr ‹_›, rfl⟩
    · exact .inr ⟨‹_›, not_not.1 ‹_›, rfl⟩

theorem tbBuildBody_cases (s : State) :
    (ftGet s.ft .terminator = 0 ∧ tbBuildBody s = .next (raiseFault .malformedHeader (cmdWord .tbBuild) false s)) ∨
    (ftGet s.ft .terminator ≠ 0 ∧ s.cfg.maxCnt < ftTotal s.ft ∧
      tbBuildBody s = .next (raiseFault .overflow (cmdWord .tbBuild) false s)) ∨
    (ftGet s.ft .terminator ≠ 0 ∧ ftTotal s.ft ≤ s.cfg.maxCnt ∧
      tbBuildBody s = complete RspFlags.zero 0
        { s with
          node := writeNodes s.node 0 (builtNodes s.ft)
          nleaf := BitVec.ofNat 9 (leaves s.ft).length
          nnode := BitVec.ofNat 10 (builtNodes s.ft).length
          root := builtRoot s.ft
          cur := builtRoot s.ft
          phase := .tree }) := by
  unfold tbBuildBody
  split
  · exact .inl ⟨‹_›, rfl⟩
  · split
    · exact .inr (.inl ⟨‹_›, ‹_›, rfl⟩)
    · exact .inr (.inr ⟨‹_›, Nat.not_lt.1 ‹_›, rfl⟩)

theorem cmGenBody_cases (s : State) :
    (∃ cm, generatedMap s.node s.root = .ok cm ∧
      cmGenBody s = complete RspFlags.zero 0 { s with code := cm, phase := .mapped }) ∨
    (∃ e, generatedMap s.node s.root = .error e ∧ cmGenBody s = .fault e) := by
  unfold cmGenBody
  cases generatedMap s.node s.root with
  | ok cm => exact .inl ⟨cm, rfl, rfl⟩
  | error e => exact .inr ⟨e, rfl, rfl⟩

/-- Emitting a code: all of it, or MissingCodeForSymbol and none of it (43_encoder.md R171). -/
theorem emitCode_cases (i : Instr) (sy : Symbol) (p : Phase) (f : RspFlags) (s : State) :
    (codeGet s.code sy = none ∧ emitCode i sy p f s = .next (raiseFault .missingCodeForSymbol (cmdWord i) false s)) ∨
    (∃ c, codeGet s.code sy = some c ∧ emitCode i sy p f s = complete f c.length { putBits c s with phase := p }) := by
  unfold emitCode
  cases codeGet s.code sy with
  | none => exact .inl ⟨rfl, rfl⟩
  | some c => exact .inr ⟨c, rfl, rfl⟩

/-- Consulting the offer: TruncatedStream at the end, a child on a bit, a stop where there is no child. -/
theorem consultOffer_cases (o : Offer) (em : Bool) (d : Nat) (s : State) :
    (o = .endMark ∧ consultOffer o em d s = .next (raiseFault .truncatedStream (cmdWord (.decStep .endMark)) em s)) ∨
    (∃ b n, offerBit o = some b ∧ nodeGet s.node s.cur = some n ∧ n.child b ≠ nilIndex ∧
      consultOffer o em d s =
        complete { consumed := true, emitted := em, done := false } d { s with cur := n.child b, phase := .decode }) ∨
    (∃ b, offerBit o = some b ∧ nodeGet s.node s.cur = none ∧ consultOffer o em d s = .fault .invalidNodeRead) ∨
    (∃ b n, offerBit o = some b ∧ nodeGet s.node s.cur = some n ∧ n.child b = nilIndex ∧
      consultOffer o em d s = .fault .absentChildFollowed) := by
  cases ho : offerBit o with
  | none =>
    obtain rfl : o = .endMark := by cases o <;> first | rfl | cases ho
    exact .inl ⟨rfl, rfl⟩
  | some b =>
    cases hn : nodeGet s.node s.cur with
    | none => exact .inr (.inr (.inl ⟨b, rfl, rfl, by simp [consultOffer, ho, hn]⟩))
    | some n =>
      by_cases hc : n.child b = nilIndex
      · exact .inr (.inr (.inr ⟨b, n, rfl, rfl, hc, by simp [consultOffer, ho, hn, hc]⟩))
      · exact .inr (.inl ⟨b, n, rfl, rfl, hc, by simp [consultOffer, ho, hn, hc]⟩)

/-- A decode step by where the cursor stands (44_decoder.md R181). -/
theorem decStepBody_cases (o : Offer) (s : State) :
    (nodeGet s.node s.cur = none ∧ decStepBody o s = .fault .invalidNodeRead) ∨
    ∃ n, nodeGet s.node s.cur = some n ∧
      ((n.isLeaf = true ∧ n.sym = .symbol .terminator ∧
        decStepBody o s = complete { consumed := false, emitted := false, done := true } 0 { s with phase := .done }) ∨
      (∃ b, n.isLeaf = true ∧ n.sym = .symbol (.byte b) ∧
        decStepBody o s = consultOffer o true b.toNat { putByte b s with cur := s.root }) ∨
      (n.isLeaf = true ∧ n.sym = .internal ∧ decStepBody o s = .fault .leafWithoutSymbol) ∨
      (n.isLeaf = false ∧ decStepBody o s = consultOffer o false 0 s)) := by
  cases hn : nodeGet s.node s.cur with
  | none => exact .inl ⟨rfl, by simp [decStepBody, hn]⟩
  | some n =>
    refine .inr ⟨n, rfl, ?_⟩
    cases hl : n.isLeaf with
    | false => exact .inr (.inr (.inr ⟨rfl, by simp [decStepBody, hn, hl]⟩))
    | true =>
      cases hs : n.sym with
      | internal => exact .inr (.inr (.inl ⟨rfl, rfl, by simp [decStepBody, hn, hl, hs]⟩))
      | symbol sy =>
        cases sy with
        | terminator => exact .inl ⟨rfl, rfl, by simp [decStepBody, hn, hl, hs]⟩
        | byte b => exact .inr (.inl ⟨b, rfl, rfl, by simp [decStepBody, hn, hl, hs]⟩)

/-- Issuing a command runs it, where its word decodes to it. -/
theorem issue_of_decode {i : Instr} {s : State} (h : decode (cmdWord i) (portData s.cfg i.wdata) = .ok i) :
    issue i s = exec i s := by
  rw [issue, step_command (s := present (.command (cmdWord i) i.wdata) s) rfl h, takeInput_present]

/-- A command that answers OK is issued without leaving the sequence. -/
theorem issueOk_ok {i : Instr} {s t : State} {r : Response} (h : issue i s = .next t) (hr : lastResponse t = some r)
    (ho : r.status = .ok) : issueOk i s = .ok r t := by
  simp [issueOk, h, hr, ho]

/-- The last response of a state that has just given one. -/
@[simp] theorem lastResponse_respond (r : Response) (s : State) : lastResponse (respond r s) = some r := by
  simp [lastResponse, respond]

/-- A sequence of commands in two parts. -/
theorem issueAll_append (is js : List Instr) (s : State) :
    issueAll (is ++ js) s = (issueAll is s).andThen fun _ t => issueAll js t := by
  induction is generalizing s with
  | nil => rfl
  | cons i is ih =>
    simp only [List.cons_append, issueAll]
    cases issueOk i s with
    | ok r t => exact ih t
    | failed r t => rfl
    | stopped => rfl

end Sys2Proof.Machine
end

