-- ==== Sys2Proof/Laws/Forest.lean ====
section
/-! SUPPORT. The queue of `TB.BUILD`: what `remove_min` removes, what one run of the merge loop does, and how many nodes there are. -/

namespace Sys2Proof.Machine

/-- `before` is the strict lexicographic order of weight and index. -/
theorem before_iff (a b : QEntry) : a.before b = true ↔ a.weight < b.weight ∨ (a.weight = b.weight ∧ a.idx < b.idx) := by
  simp [QEntry.before]

/-- Of two elements that differ in index, one comes before the other (41_tree_builder.md R145: the tie-break decides). -/
theorem before_total {a b : QEntry} (h : a.idx ≠ b.idx) : a.before b = true ∨ b.before a = true := by
  simp only [before_iff]
  omega

theorem before_trans {a b c : QEntry} (h : a.before b = true) (h' : b.before c = true) : a.before c = true := by
  rw [before_iff] at *
  omega

/-- `remove_min` removes one element and leaves the others. -/
theorem removeMin_perm (e : QEntry) (q : List QEntry) : ((removeMin e q).1 :: (removeMin e q).2).Perm (e :: q) := by
  induction q generalizing e with
  | nil => exact .refl _
  | cons f q ih =>
    rw [removeMin]
    split
    · exact .refl _
    · exact (List.Perm.swap ..).trans ((ih f).cons e)

/-- What `remove_min` leaves is one element shorter. -/
theorem removeMin_length (e : QEntry) (q : List QEntry) : (removeMin e q).2.length = q.length := by
  simpa using (removeMin_perm e q).length_eq

/-- `remove_min` removes the least element: with distinct indices it comes before every element left
(41_tree_builder.md R145). -/
theorem removeMin_least (e : QEntry) (q : List QEntry) (h : ((e :: q).map QEntry.idx).Nodup) :
    ∀ x ∈ (removeMin e q).2, (removeMin e q).1.before x = true := by
  induction q generalizing e with
  | nil => simp [removeMin]
  | cons f q ih =>
    have hn : ((f :: q).map QEntry.idx).Nodup := (List.nodup_cons.1 h).2
    have mem : ∀ x ∈ f :: q, x = (removeMin f q).1 ∨ (removeMin f q).1.before x = true := fun x hx =>
      (List.mem_cons.1 ((removeMin_perm f q).mem_iff.2 hx)).imp id (ih f hn x)
    rw [removeMin]
    split
    · next hb => exact fun x hx => (mem x hx).elim (fun y => y ▸ hb) (before_trans hb)
    · next hb =>
      refine fun x hx => (List.mem_cons.1 hx).elim (fun y => ?_) (ih f hn x)
      have hi : e.idx ≠ (removeMin f q).1.idx := fun he =>
        (List.nodup_cons.1 h).1 (he ▸ List.mem_map_of_mem ((removeMin_perm f q).mem_iff.1 List.mem_cons_self))
      subst y
      exact (before_total hi).resolve_left hb

/-- One run of the merge loop on a queue of two elements or more (41_tree_builder.md R144). -/
theorem mergeOnce_two {f : Forest} {e e' : QEntry} {q q' : List QEntry} (h : f.queue = e :: q)
    (h' : (removeMin e q).2 = e' :: q') :
    mergeOnce f =
      { nodes := f.nodes ++ [joinNode (removeMin e q).1 (removeMin e' q').1]
        queue := (removeMin e' q').2 ++
          [{ weight := (removeMin e q).1.weight + (removeMin e' q').1.weight, idx := f.nodes.length }] } := by
  simp [mergeOnce, h, h']

/-- A run makes one node and shortens the queue by one. -/
theorem mergeOnce_lengths (f : Forest) (h : 2 ≤ f.queue.length) :
    (mergeOnce f).nodes.length = f.nodes.length + 1 ∧ (mergeOnce f).queue.length + 1 = f.queue.length := by
  obtain ⟨e, q, hq⟩ : ∃ e q, f.queue = e :: q := List.exists_cons_of_length_pos (by omega)
  have hl := removeMin_length e q
  rw [hq, List.length_cons] at h
  obtain ⟨e', q', hq'⟩ : ∃ e' q', (removeMin e q).2 = e' :: q' := List.exists_cons_of_length_pos (by omega)
  have hl' := removeMin_length e' q'
  rw [hq', List.length_cons] at hl
  rw [mergeOnce_two hq hq', hq]
  simp
  omega

/-- After n runs there are n nodes more, and the queue is n elements shorter. -/
theorem mergeLoop_lengths (n : Nat) (f : Forest) (h : n < f.queue.length) :
    (mergeLoop n f).nodes.length = f.nodes.length + n ∧ (mergeLoop n f).queue.length + n = f.queue.length := by
  induction n generalizing f with
  | zero => simp [mergeLoop]
  | succ n ih =>
    have m := mergeOnce_lengths f (by omega)
    have i := ih (mergeOnce f) (by omega)
    rw [mergeLoop]
    omega

/-- The leaves are no more than the symbols. -/
theorem leaves_length_le (ft : FreqTable) : (leaves ft).length ≤ 257 :=
  (List.length_filterMap_le _ _).trans_eq allSymbols_length

@[simp] theorem leafQueue_length (ls : List Node) : (leafQueue ls).length = ls.length := by
  simp [leafQueue]

/-- A table with the terminator has a leaf. -/
theorem leaves_length_pos {ft : FreqTable} (h : ftGet ft .terminator ≠ 0) : 0 < (leaves ft).length :=
  List.length_pos_of_mem (List.mem_filterMap.2 ⟨.terminator, mem_allSymbols _, if_neg h⟩)

/-- k leaves make k - 1 nodes more, and leave one element in the queue. -/
theorem buildForest_lengths {ft : FreqTable} (h : ftGet ft .terminator ≠ 0) :
    (builtNodes ft).length + 1 = 2 * (leaves ft).length ∧ (buildForest ft).queue.length = 1 := by
  have p := leaves_length_pos h
  have l := mergeLoop_lengths ((leaves ft).length - 1) { nodes := leaves ft, queue := leafQueue (leaves ft) }
    (by simp only [leafQueue_length]; omega)
  simp only [leafQueue_length] at l
  unfold builtNodes buildForest
  omega

end Sys2Proof.Machine
end

