-- ==== Sys2Proof/Laws/PerInstr.lean ====
section
/-! SUPPORT. Statements made per command. `Layout`: the command word of a command has the opcode's number in `op`, 00 in `z`, and a
clean operand field in `arg` (30_encoding.md R80, R81). -/

namespace Sys2Proof.Laws.Layout

/-- The layout of a command's word. -/
def Statement (i : Instr) : Prop :=
  opField (cmdWord i) = i.opcode.num ∧ zField (cmdWord i) = 0#2 ∧ argField (cmdWord i) = i.arg ∧
    i.opcode.format.argClean i.arg = true

/-- The fields of a word put together from its parts. -/
theorem fields_mkWord (op : BitVec 4) (arg : BitVec 10) :
    opField (mkWord op arg) = op ∧ zField (mkWord op arg) = 0#2 ∧ argField (mkWord op arg) = arg := by
  refine ⟨?_, ?_, ?_⟩ <;> ext k hk <;>
    simp only [opField, zField, argField, mkWord, BitVec.getElem_extractLsb', BitVec.getLsbD_or, BitVec.getLsbD_shiftLeft,
      BitVec.getLsbD_setWidth]
  · simp [show 12 + k < 16 by omega, show k < 16 by omega, hk, BitVec.getLsbD_of_ge arg (12 + k) (by omega)]
  · simp [show 10 + k < 16 by omega, show 10 + k < 12 by omega]
  · simp [show k < 16 by omega, show k < 12 by omega, hk]

theorem of_clean {i : Instr} (h : i.opcode.format.argClean i.arg = true) : Statement i :=
  have f := fields_mkWord i.opcode.num i.arg
  ⟨f.1, f.2.1, f.2.2, h⟩

theorem nop : Statement .nop := of_clean (by decide)

theorem clr : Statement .clr := of_clean (by decide)

theorem stRead (r : StReg) : Statement (.stRead r) := of_clean (by cases r <;> decide)

theorem symbol_clean (sy : Symbol) : (BitVec.ofNat 10 sy.idx).toNat < 2 ^ 9 := by
  cases sy with
  | byte b => have := b.isLt; simp [Symbol.idx]; omega
  | terminator => decide

theorem ftRead (sym : Symbol) : Statement (.ftRead sym) :=
  of_clean (decide_eq_true (symbol_clean sym))

theorem ftLoad (sym : Symbol) (cnt : Nat) : Statement (.ftLoad sym cnt) :=
  of_clean (decide_eq_true (symbol_clean sym))

theorem byte_clean (b : Byte) : (b.setWidth 10).toNat < 2 ^ 8 := by
  have := b.isLt
  simp only [BitVec.toNat_setWidth]
  omega

theorem faByte (byte : Byte) : Statement (.faByte byte) :=
  of_clean (decide_eq_true (byte_clean byte))

theorem faEnd : Statement .faEnd := of_clean (by decide)

theorem tbBuild : Statement .tbBuild := of_clean (by decide)

theorem cmGen : Statement .cmGen := of_clean (by decide)

theorem encByte (byte : Byte) : Statement (.encByte byte) :=
  of_clean (decide_eq_true (byte_clean byte))

theorem encEnd : Statement .encEnd := of_clean (by decide)

theorem decStep (offer : Offer) : Statement (.decStep offer) := of_clean (by cases offer <;> decide)

end Sys2Proof.Laws.Layout
end

