-- ==== Sys2Proof/Tests/Slice0.lean ====
section
/-! SUPPORT. The model's own tests: words written out from 30_encoding.md R90, one step at a time from the vectors of
95_test_vectors.md, the smoke test of WellFormed, and a witness for the hypotheses of every statement. -/

namespace Sys2Proof.Tests

open Sys2Proof.Machine

set_option Elab.async false

/-! ### WellFormed: the one check, refused -/

theorem test_wellFormed_refuses_wide_count : WellFormed ⟨16⟩ (.ftLoad .terminator 65536) = false := by decide

theorem test_wellFormed_takes_widest_count : WellFormed ⟨16⟩ (.ftLoad .terminator 65535) = true := by decide

/-! ### Decoding: words written bit by bit from the table of R90 -/

theorem test_decode_nop : decode 0b0000000000000000#16 7 = .ok .nop := by decide
theorem test_decode_clr : decode 0b0001000000000000#16 7 = .ok .clr := by decide
theorem test_decode_stRead_root : decode 0b0010000000000111#16 7 = .ok (.stRead .root) := by decide
theorem test_decode_ftRead_term : decode 0b0011000100000000#16 7 = .ok (.ftRead .terminator) := by decide
theorem test_decode_ftLoad_a : decode 0b0100000001100001#16 7 = .ok (.ftLoad (.byte 0x61#8) 7) := by decide
theorem test_decode_faByte : decode 0b0101000010000001#16 7 = .ok (.faByte 0x81#8) := by decide
theorem test_decode_faEnd : decode 0b0110000000000000#16 7 = .ok .faEnd := by decide
theorem test_decode_tbBuild : decode 0b0111000000000000#16 7 = .ok .tbBuild := by decide
theorem test_decode_cmGen : decode 0b1000000000000000#16 7 = .ok .cmGen := by decide
theorem test_decode_encByte : decode 0b1001000011111110#16 7 = .ok (.encByte 0xFE#8) := by decide
theorem test_decode_encEnd : decode 0b1010000000000000#16 7 = .ok .encEnd := by decide
theorem test_decode_decStep_1 : decode 0b1011000000000001#16 7 = .ok (.decStep .bit1) := by decide
theorem test_decode_reserved_opcode : decode 0xC000#16 0 = .error .reservedOpcode := by decide
theorem test_decode_reserved_z : decode 0x0400#16 0 = .error .reservedBits := by decide
theorem test_decode_symbol_257 : decode 0x3101#16 0 = .error .operandOutOfRange := by decide
theorem test_decode_register_10 : decode 0x200A#16 0 = .error .operandOutOfRange := by decide
theorem test_decode_offer_3 : decode 0xB003#16 0 = .error .operandOutOfRange := by decide
theorem test_decode_byte_bit8 : decode 0x5100#16 0 = .error .reservedBits := by decide
theorem test_encode_ftLoad : encode (.ftLoad (.byte 0x61#8) 2) = (0x4061#16, 2) := by decide
theorem test_tableWord_tbBuild : decodeTableWord 16 0x7000 = some .tbBuild := by decide
theorem test_assemble_ftLoad :
    assemble ['F', 'T', '.', 'L', 'O', 'A', 'D', ' ', '\'', 'a', '\'', ',', ' ', '2'] = some (.ftLoad (.byte 0x61#8) 2) := by
  decide
theorem test_assemble_stRead :
    assemble ['S', 'T', '.', 'R', 'E', 'A', 'D', ' ', 'R', 'O', 'O', 'T', 'W', ' ', ';', 'x'] = some (.stRead .rootw) := by
  decide

/-! ### Small states: the session of the input "aab" (95_test_vectors.md V14, V4, P1) -/

/-- The symbols of the vectors. -/
abbrev a : Symbol := .byte 0x61#8
abbrev b : Symbol := .byte 0x62#8

/-- The table of "aab" (V14). -/
def aabTable : FreqTable := ftSet (ftSet (ftSet emptyTable a 2) b 1) .terminator 1

/-- PHASE TABLE after "aab" (V14). -/
def counted : State := { State.reset with phase := .table, len := 3, ft := aabTable }

/-- The nodes of V4, as the vector lists them. -/
def v4Nodes : List Node :=
  [⟨2, .symbol a, 0x3FF#10, 0x3FF#10⟩, ⟨1, .symbol b, 0x3FF#10, 0x3FF#10⟩, ⟨1, .symbol .terminator, 0x3FF#10, 0x3FF#10⟩,
   ⟨2, .internal, 1#10, 2#10⟩, ⟨4, .internal, 0#10, 3#10⟩]

/-- PHASE TREE of V4. -/
def built : State :=
  { counted with
    phase := .tree, nleaf := 3#9, nnode := 5#10, root := 4#10, cur := 4#10, node := writeNodes emptyArena 0 v4Nodes }

/-- The code map of V4. -/
def v4Codes : CodeMap := codeSet (codeSet (codeSet emptyMap a [false]) b [true, false]) .terminator [true, true]

/-- PHASE MAPPED of V4. -/
def mapped : State := { built with phase := .mapped, code := v4Codes }

/-- PHASE DECODE of V4 with the cursor at a node. -/
def decoding (i : NodeIndex) : State := { built with phase := .decode, cur := i }

/-- PHASE FAULT after V30. -/
def faultedState : State := { built with phase := .fault, fcode := 2#4, fsticky := 0x04#8, finfo := 0xB002#16 }

/-- The table with the terminator alone, and its tree of one leaf (V16, V1). -/
def emptyCounted : State := { State.reset with phase := .table, ft := ftSet emptyTable .terminator 1 }
def oneLeaf : State :=
  { emptyCounted with
    phase := .tree, nleaf := 1#9, nnode := 1#10, root := 0#10, cur := 0#10
    node := writeNodes emptyArena 0 [⟨1, .symbol .terminator, 0x3FF#10, 0x3FF#10⟩] }
def oneLeafMapped : State := { oneLeaf with phase := .mapped, code := codeSet emptyMap .terminator [] }

/-- A field of the next state of a command. -/
def after {α : Type} (i : Instr) (s : State) (f : State → α) : Option α := (nextState (exec i s)).map f

/-- The last response as status, flags and data. -/
def answer (s : State) : Option (Nat × Nat × Nat) :=
  (lastResponse s).map fun r => (r.status.code.toNat, r.flags.bits.toNat, r.rdata)

/-! ### One step per command -/

theorem test_nop_in_fault : after .nop faultedState (fun t => (t.phase, answer t)) = some (.fault, some (0, 0, 0)) := by
  decide +kernel
theorem test_clr_keeps_sticky :
    after .clr faultedState (fun t => (t.phase, t.fcode, t.fsticky, ftGet t.ft a, t.root)) =
      some (.idle, 0#4, 0x04#8, 0, 0x3FF#10) := by decide +kernel
theorem test_stRead_rootw : after (.stRead .rootw) built answer = some (some (0, 0, 4)) := by decide +kernel
theorem test_stRead_root_at_reset : after (.stRead .root) State.reset answer = some (some (0, 0, 0x3FF)) := by decide +kernel
theorem test_ftRead_a : after (.ftRead a) counted answer = some (some (0, 0, 2)) := by decide +kernel
theorem test_ftRead_in_fault : after (.ftRead a) faultedState answer = some (some (7, 0, 0)) := by decide +kernel
theorem test_ftLoad_a :
    after (.ftLoad a 2) State.reset (fun t => (ftGet t.ft a, t.phase, t.len)) = some (2, .load, 0) := by decide +kernel
theorem test_ftLoad_zero :
    after (.ftLoad a 0) State.reset (fun t => (answer t, t.phase, t.fcode, t.fsticky, t.finfo)) =
      some (some (3, 0, 0x4061), .fault, 3#4, 0x08#8, 0x4061#16) := by decide +kernel
theorem test_faByte_first :
    after (.faByte 0x61#8) State.reset (fun t => (ftGet t.ft a, t.len, t.phase)) = some (1, 1, .count) := by decide +kernel
theorem test_faByte_at_limit :
    after (.faByte 0#8) { State.reset with cfg := ⟨16⟩, phase := .count, len := 65534 } (fun t => (answer t, t.len)) =
      some (some (4, 0, 0x5000), 65534) := by decide +kernel
theorem test_faEnd_empty :
    after .faEnd State.reset (fun t => (ftGet t.ft .terminator, t.len, t.phase)) = some (1, 0, .table) := by decide +kernel
theorem test_tbBuild_one :
    after .tbBuild emptyCounted (fun t => (nodeGet t.node 0#10, t.root, t.cur, t.nnode, t.nleaf)) =
      some (some ⟨1, .symbol .terminator, 0x3FF#10, 0x3FF#10⟩, 0#10, 0#10, 1#10, 1#9) := by decide +kernel
theorem test_tbBuild_idle : after .tbBuild State.reset answer = some (some (3, 0, 0x7000)) := by decide +kernel
theorem test_cmGen_aab :
    after .cmGen built (fun t => (codeGet t.code a, codeGet t.code b, codeGet t.code .terminator, t.phase)) =
      some (some [false], some [true, false], some [true, true], .mapped) := by decide +kernel
theorem test_cmGen_idle : after .cmGen State.reset answer = some (some (6, 0, 0x8000)) := by decide +kernel
theorem test_encByte_b : after (.encByte 0x62#8) mapped (fun t => (t.bitout, answer t)) =
    some ([true, false], some (0, 0, 2)) := by decide +kernel
theorem test_encByte_missing : after (.encByte 0x63#8) mapped (fun t => (t.bitout, answer t)) =
    some ([], some (1, 0, 0x9063)) := by decide +kernel
theorem test_encEnd : after .encEnd mapped (fun t => (t.bitout, answer t, t.phase)) =
    some ([true, true], some (0, 4, 2), .done) := by decide +kernel
theorem test_decStep_emits_then_descends :
    after (.decStep .bit1) (decoding 0#10) (fun t => (t.byteout, t.cur, answer t)) =
      some ([0x61#8], 3#10, some (0, 3, 0x61)) := by decide +kernel
theorem test_decStep_truncated :
    after (.decStep .endMark) (decoding 0#10) (fun t => (t.byteout, t.cur, answer t)) =
      some ([0x61#8], 4#10, some (2, 2, 0xB002)) := by decide +kernel

/-- A field of the next state of a step. -/
def afterStep {α : Type} (s : State) (f : State → α) : Option α := (nextState (step s)).map f

theorem test_step_illegal_word :
    afterStep (State.reset.withFetchWord 16 0xC000) (fun t => (answer t, t.phase, t.fcode, t.fsticky)) =
      some (some (5, 0, 0xC000), .fault, 5#4, 0x20#8) := by decide +kernel
theorem test_step_reset :
    afterStep { faultedState with inputs := [.reset] } (fun t => (t.phase, t.fsticky, t.root)) =
      some (.idle, 0#8, 0x3FF#10) := by decide +kernel

/-! ### Witnesses: a state and operands that meet the hypotheses of each statement -/

/-- An outcome that is a next state. -/
theorem next_of_isSome {r : Result} (h : (nextState r).isSome = true) : ∃ t, r = .next t := by
  cases r with
  | next t => exact ⟨t, rfl⟩
  | fault e => cases h
  | refused e => cases h

/-- A property of every symbol, checked along the list of symbols. -/
theorem forall_symbol {p : Symbol → Prop} [DecidablePred p] (h : (allSymbols.all fun sy => decide (p sy)) = true) (sy : Symbol) :
    p sy := of_decide_eq_true (List.all_eq_true.1 h sy (mem_allSymbols sy))

/-- The table of "aab" as a function of the symbol. -/
def aabCount (sy : Symbol) : Nat := if sy = .terminator then 1 else if sy = b then 1 else if sy = a then 2 else 0

theorem ftGet_aab : ftGet aabTable = aabCount := by
  funext sy
  unfold aabCount
  split
  · next h => subst h; exact ftGet_ftSet_same ..
  · next h =>
    rw [aabTable, ftGet_ftSet_ne _ _ h]
    split
    · next h => subst h; exact ftGet_ftSet_same ..
    · next h =>
      rw [ftGet_ftSet_ne _ _ h]
      split
      · next h => subst h; exact ftGet_ftSet_same ..
      · next h => rw [ftGet_ftSet_ne _ _ h, emptyTable, ftGet_empty]

/-- The table with the terminator alone as a function of the symbol. -/
def oneCount (sy : Symbol) : Nat := if sy = .terminator then 1 else 0

theorem ftGet_one : ftGet (ftSet emptyTable .terminator 1) = oneCount := by
  funext sy
  unfold oneCount
  split
  · next h => subst h; exact ftGet_ftSet_same ..
  · next h => rw [ftGet_ftSet_ne _ _ h, emptyTable, ftGet_empty]

theorem ready_reset : Ready State.reset where
  left :=
    { cntW := by decide
      counts := fun sy => (ftGet_empty sy).trans_le (Nat.zero_le _)
      len := by decide
      sticky := by decide
      record := ⟨rfl, rfl⟩
      table := ⟨rfl, rfl⟩
      tree := ⟨rfl, rfl, rfl, rfl, rfl⟩
      code := rfl }
  right := rfl

theorem aab_le (sy : Symbol) : ftGet aabTable sy ≤ Config.standard.maxCnt := by
  rw [ftGet_aab]
  exact forall_symbol (p := fun sy => aabCount sy ≤ Config.standard.maxCnt) (by decide +kernel) sy

theorem byteTotal_aab : byteTotal aabTable = 3 := by
  unfold byteTotal
  rw [ftGet_aab]
  decide +kernel

theorem inv_counted : Inv counted where
  cntW := by decide
  counts := aab_le
  len := by decide
  sticky := by decide
  record := ⟨rfl, rfl⟩
  table := ⟨ftGet_ftSet_same .., byteTotal_aab.symm⟩
  tree := ⟨rfl, rfl, rfl, rfl, rfl⟩
  code := rfl

theorem leaves_aab : leaves aabTable = v4Nodes.take 3 := by
  unfold leaves
  rw [ftGet_aab]
  decide +kernel

theorem forest_aab : buildForest aabTable = ⟨v4Nodes, [⟨4, 4⟩]⟩ := by
  unfold buildForest
  rw [leaves_aab]
  decide +kernel

theorem hasTree_built : HasTree built where
  terminator := by
    rw [show built.ft = aabTable from rfl, ftGet_aab]
    decide
  fits := by
    rw [show built.ft = aabTable from rfl, ftTotal, ftGet_aab]
    decide +kernel
  node := by rw [show built.ft = aabTable from rfl, builtNodes, forest_aab]; rfl
  nleaf := by rw [show built.ft = aabTable from rfl, leaves_aab]; rfl
  nnode := by rw [show built.ft = aabTable from rfl, builtNodes, forest_aab]; rfl
  root := by rw [show built.ft = aabTable from rfl, builtRoot, forest_aab]; rfl
  cur := by decide +kernel

theorem table_built : built.len = 0 ∨ (ftGet built.ft .terminator = 1 ∧ built.len = byteTotal built.ft) :=
  .inr ⟨ftGet_ftSet_same .., byteTotal_aab.symm⟩

theorem inv_built : Inv built where
  cntW := by decide
  counts := aab_le
  len := by decide
  sticky := by decide
  record := ⟨rfl, rfl⟩
  table := table_built
  tree := ⟨hasTree_built, rfl⟩
  code := rfl

theorem generatedMap_built : generatedMap built.node built.root = .ok v4Codes := by rfl

theorem hasTree_of_built {s : State} (hf : s.ft = built.ft) (hc : s.cfg = built.cfg) (hn : s.node = built.node)
    (hl : s.nleaf = built.nleaf) (hm : s.nnode = built.nnode) (hr : s.root = built.root)
    (hu : (nodeGet s.node s.cur).isSome = true) : HasTree s where
  terminator := by rw [hf]; exact hasTree_built.terminator
  fits := by rw [hf, hc]; exact hasTree_built.fits
  node := by rw [hf, hn]; exact hasTree_built.node
  nleaf := by rw [hf, hl]; exact hasTree_built.nleaf
  nnode := by rw [hf, hm]; exact hasTree_built.nnode
  root := by rw [hf, hr]; exact hasTree_built.root
  cur := hu

theorem inv_mapped : Inv mapped where
  cntW := by decide
  counts := aab_le
  len := by decide
  sticky := by decide
  record := ⟨rfl, rfl⟩
  table := table_built
  tree := ⟨hasTree_of_built rfl rfl rfl rfl rfl rfl hasTree_built.cur, rfl⟩
  code := generatedMap_built

/-- PHASE DECODE, the cursor on the leaf of 0x61. -/
theorem inv_decoding : Inv (decoding 0#10) where
  cntW := by decide
  counts := aab_le
  len := by decide
  sticky := by decide
  record := ⟨rfl, rfl⟩
  table := table_built
  tree := hasTree_of_built rfl rfl rfl rfl rfl rfl (by decide +kernel)
  code := .inl rfl

theorem leaves_one : leaves (ftSet emptyTable .terminator 1) = [⟨1, .symbol .terminator, 0x3FF#10, 0x3FF#10⟩] := by
  unfold leaves
  rw [ftGet_one]
  decide +kernel

theorem forest_one : buildForest (ftSet emptyTable .terminator 1) =
    ⟨[⟨1, .symbol .terminator, 0x3FF#10, 0x3FF#10⟩], [⟨1, 0⟩]⟩ := by
  unfold buildForest
  rw [leaves_one]
  decide +kernel

theorem one_le (sy : Symbol) : ftGet (ftSet emptyTable .terminator 1) sy ≤ Config.standard.maxCnt := by
  rw [ftGet_one]
  unfold oneCount
  split <;> decide

theorem hasTree_one {s : State} (hf : s.ft = oneLeaf.ft) (hc : s.cfg = oneLeaf.cfg) (hn : s.node = oneLeaf.node)
    (hl : s.nleaf = 1#9) (hm : s.nnode = 1#10) (hr : s.root = 0#10) (hu : s.cur = 0#10) : HasTree s where
  terminator := by
    rw [hf, show oneLeaf.ft = ftSet emptyTable .terminator 1 from rfl, ftGet_one]
    decide
  fits := by
    rw [hf, hc, show oneLeaf.ft = ftSet emptyTable .terminator 1 from rfl, ftTotal, ftGet_one]
    decide +kernel
  node := by rw [hf, hn, show oneLeaf.ft = ftSet emptyTable .terminator 1 from rfl, builtNodes, forest_one]; rfl
  nleaf := by rw [hf, hl, show oneLeaf.ft = ftSet emptyTable .terminator 1 from rfl, leaves_one]; rfl
  nnode := by rw [hf, hm, show oneLeaf.ft = ftSet emptyTable .terminator 1 from rfl, builtNodes, forest_one]; rfl
  root := by rw [hf, hr, show oneLeaf.ft = ftSet emptyTable .terminator 1 from rfl, builtRoot, forest_one]
  cur := by rw [hn, hu]; decide +kernel

theorem inv_oneLeaf : Inv oneLeaf where
  cntW := by decide
  counts := one_le
  len := by decide
  sticky := by decide
  record := ⟨rfl, rfl⟩
  table := .inl rfl
  tree := ⟨hasTree_one rfl rfl rfl rfl rfl rfl rfl, rfl⟩
  code := rfl

theorem inv_oneLeafMapped : Inv oneLeafMapped where
  cntW := by decide
  counts := one_le
  len := by decide
  sticky := by decide
  record := ⟨rfl, rfl⟩
  table := .inl rfl
  tree := ⟨hasTree_one rfl rfl rfl rfl rfl rfl rfl, rfl⟩
  code := by
    show generatedMap oneLeafMapped.node oneLeafMapped.root = .ok oneLeafMapped.code
    rfl

/-- The state in which the host presents one command word. -/
def given (s : State) (w : CmdWord) (d : Nat) : State := { s with inputs := [.command w d] }

theorem witness_ResetAndClrLeaveTheResetValues : ∃ (s : State) (rest : List HostInput), s.inputs = .reset :: rest :=
  ⟨{ built with inputs := [.reset] }, [], rfl⟩

theorem witness_StepRunsTheDecodedCommand :
    (∃ (s : State) (w : CmdWord) (d : Nat) (rest : List HostInput) (i : Instr),
      s.inputs = .command w d :: rest ∧ decode w (d % 2 ^ s.cfg.cntW) = .ok i) ∧
    (∃ (s : State) (i : Instr), WellFormed s.cfg i = true) ∧ ∃ s : State, s.inputs = [] :=
  ⟨⟨given State.reset 0x4100#16 7, 0x4100#16, 7, [], .ftLoad .terminator 7, rfl, by decide⟩,
    ⟨State.reset, .ftLoad .terminator (2 ^ 32 - 1), by decide⟩, ⟨State.reset, rfl⟩⟩

theorem witness_InvariantHoldsAtReset : ∃ c : Config, c.legal = true := ⟨⟨16⟩, by decide⟩

theorem witness_EveryStepKeepsTheInvariant : ∃ s t : State, Inv s ∧ step s = .next t :=
  ⟨State.reset, State.reset, ready_reset.1, rfl⟩

theorem witness_NoStepStopsUnderTheInvariant : ∃ s : State, Inv s := ⟨built, inv_built⟩

theorem witness_CommandsKeepTheInstanceAndTheHostsInputs : ∃ (i : Instr) (s t : State), exec i s = .next t :=
  ⟨.nop, built, _, rfl⟩

theorem witness_DecodeOfEncodeIsTheCommand :
    (∃ (w : CmdWord) (d : Nat) (i : Instr), decode w d = .ok i) ∧ ∃ (c : Config) (i : Instr), WellFormed c i = true :=
  ⟨⟨0x4100#16, 3, .ftLoad .terminator 3, by decide⟩, ⟨⟨16⟩, .ftLoad .terminator 65535, by decide⟩⟩

theorem witness_IllegalWordsTakeIllegalCommand :
    (∃ (s : State) (w : CmdWord) (d : Nat) (rest : List HostInput),
      s.inputs = .command w d :: rest ∧ wordIllegal w = true ∧ s.phase ≠ .fault) ∧
    (∃ (w : CmdWord) (d : Nat) (i : Instr), decode w d = .ok i) ∧
    wordIllegal 0x3101#16 = true ∧ wordIllegal 0x3100#16 = false :=
  ⟨⟨given State.reset 0xC000#16 0, 0xC000#16, 0, [], rfl, by decide, by decide⟩,
    ⟨0x3100#16, 0, .ftRead .terminator, by decide⟩, by decide, by decide⟩

theorem witness_CommandsFollowThePhaseTable :
    (∃ (i : Instr) (s : State), s.phase ∉ tableLegal i ∧ s.phase ≠ .fault) ∧
    (∃ (i : Instr) (s : State), s.phase ∉ tableLegal i ∧ s.phase = .fault) ∧
    (∃ (i : Instr) (s t : State) (r : Response), s.phase ∈ tableLegal i ∧ exec i s = .next t ∧
      t.responses = s.responses ++ [r]) ∧
    (∃ (i : Instr) (s t : State) (r : Response), exec i s = .next t ∧ t.responses = s.responses ++ [r] ∧ r.status = .ok) ∧
    ∃ s : State, Inv s ∧ s.phase = .idle :=
  ⟨⟨.cmGen, State.reset, by decide, by decide⟩, ⟨.cmGen, faultedState, by decide, rfl⟩,
    ⟨.encEnd, mapped, _, _, by decide, rfl, rfl⟩, ⟨.nop, built, _, _, rfl, rfl, rfl⟩, ⟨State.reset, ready_reset⟩⟩

theorem witness_FaultPhaseRefusesAllButThreeCommands :
    (∃ (s : State) (w : CmdWord) (d : Nat) (rest : List HostInput), s.inputs = .command w d :: rest ∧ s.phase = .fault ∧
      w ≠ 0x0000#16 ∧ w ≠ 0x1000#16 ∧ ¬(0x2000 ≤ w.toNat ∧ w.toNat ≤ 0x2009)) ∧
    (∃ (s : State) (w : CmdWord) (d : Nat) (rest : List HostInput) (r : StReg), s.inputs = .command w d :: rest ∧
      s.phase = .fault ∧ w = 0x2000#16 + BitVec.ofNat 16 r.num ∧ RootReadable s) :=
  ⟨⟨given faultedState 0x200A#16 0, 0x200A#16, 0, [], rfl, rfl, by decide, by decide, by decide⟩,
    ⟨given faultedState 0x2009#16 0, 0x2009#16, 0, [], .rootw, rfl, rfl, by decide, .inr (by decide +kernel)⟩⟩

/-- An illegal word at reset takes a fault, and the fault's response. -/
theorem witness_FaultsArePrecise :
    ∃ (s t : State) (w : CmdWord) (d : Nat) (rest : List HostInput) (r : Response) (f : FaultKind),
      s.inputs = .command w d :: rest ∧ step s = .next t ∧ t.responses = s.responses ++ [r] ∧ r.status = .faultTaken f :=
  ⟨given State.reset 0xC000#16 0, _, 0xC000#16, 0, [], _, .illegalCommand, rfl, rfl, rfl, rfl⟩

theorem witness_StickyRegisterRecordsEveryFault :
    (∃ (s t : State) (w : CmdWord) (d : Nat) (rest : List HostInput) (r : Response),
      s.inputs = .command w d :: rest ∧ step s = .next t ∧ t.responses = s.responses ++ [r]) ∧
    ∃ s t : State, step s = .next t ∧ s.fsticky.getLsbD 0 = false ∧ s.fsticky.getLsbD 7 = false :=
  ⟨⟨given State.reset 0xC000#16 0, _, 0xC000#16, 0, [], _, rfl, rfl, rfl⟩,
    ⟨State.reset, State.reset, rfl, by decide, by decide⟩⟩

theorem witness_ClrIsTheOnlyReturnFromAFault :
    (∃ (s t : State) (w : CmdWord) (d : Nat) (rest : List HostInput), s.inputs = .command w d :: rest ∧ s.phase = .fault ∧
      w ≠ 0x1000#16 ∧ step s = .next t) ∧
    (∃ (s t u : State) (w : CmdWord) (d : Nat) (rest : List HostInput) (r : Response) (f : FaultKind), s.phase = .fault ∧
      exec .clr s = .next t ∧ step { t with inputs := .command w d :: rest } = .next u ∧
      u.responses = t.responses ++ [r] ∧ r.status = .faultTaken f) ∧
    ∃ (i : Instr) (s t : State), s.phase = .fault ∧ exec .clr s = .next t ∧ Phase.idle ∉ tableLegal i :=
  ⟨⟨given faultedState 0xC000#16 0, _, 0xC000#16, 0, [], rfl, rfl, by decide, rfl⟩,
    ⟨faultedState, _, _, 0x8000#16, 0, [], _, .illegalSequence, rfl, rfl, rfl, rfl, rfl⟩,
    ⟨.cmGen, faultedState, _, rfl, rfl, by decide⟩⟩

/-- The second step is a `DEC.STEP` that completes short of DONE. -/
theorem witness_EveryCommandAnswersOnce :
    (∃ (s t : State) (w : CmdWord) (d : Nat) (rest : List HostInput),
      s.inputs = .command w d :: rest ∧ step s = .next t) ∧
    (∃ (s t : State) (o : Offer) (rest : List HostInput) (r : Response), s.inputs = .command (cmdWord (.decStep o)) 0 :: rest ∧
      step s = .next t ∧ t.responses = s.responses ++ [r] ∧ r.status = .ok ∧ r.flags.done = false) ∧
    ∃ s : State, Inv s :=
  ⟨⟨given State.reset 0x0000#16 0, _, 0x0000#16, 0, [], rfl, rfl⟩,
    ⟨given built (cmdWord (.decStep .bit1)) 0, _, .bit1, [], _, rfl, rfl, rfl, rfl, rfl⟩, ⟨mapped, inv_mapped⟩⟩

/-- One step for each of the three statuses: OK, a fault, FAULTED. -/
theorem witness_ResponseDataByCommand :
    (∃ (s t : State) (w : CmdWord) (d : Nat) (rest : List HostInput) (r : Response), s.inputs = .command w d :: rest ∧
      step s = .next t ∧ t.responses = s.responses ++ [r] ∧ r.status = .ok) ∧
    (∃ (s t : State) (w : CmdWord) (d : Nat) (rest : List HostInput) (r : Response) (f : FaultKind),
      s.inputs = .command w d :: rest ∧ step s = .next t ∧ t.responses = s.responses ++ [r] ∧ r.status = .faultTaken f) ∧
    ∃ (s t : State) (w : CmdWord) (d : Nat) (rest : List HostInput) (r : Response), s.inputs = .command w d :: rest ∧
      step s = .next t ∧ t.responses = s.responses ++ [r] ∧ r.status = .faulted :=
  ⟨⟨given State.reset 0x2007#16 0, _, 0x2007#16, 0, [], _, rfl, rfl, rfl, rfl⟩,
    ⟨given State.reset 0x8000#16 0, _, 0x8000#16, 0, [], _, .illegalSequence, rfl, rfl, rfl, rfl⟩,
    ⟨given faultedState 0x3000#16 0, _, 0x3000#16, 0, [], _, rfl, rfl, rfl, rfl⟩⟩

theorem witness_TracesOnlyGrow :
    (∃ (s t : State) (w : CmdWord) (d : Nat) (rest : List HostInput),
      s.inputs = .command w d :: rest ∧ step s = .next t ∧ t.bitout ≠ s.bitout) ∧
    ∃ (s : State) (rest : List HostInput), s.inputs = .reset :: rest :=
  ⟨⟨given mapped 0xA000#16 0, _, 0xA000#16, 0, [], rfl, rfl, by decide⟩, ⟨{ built with inputs := [.reset] }, [], rfl⟩⟩

theorem witness_StatusRegistersRead :
    RootReadable State.reset ∧ RootReadable built ∧ (∃ (i : Instr) (s t : State), exec i s = .next t ∧ t.len ≠ s.len) ∧
    ∃ (s : State) (n d : Nat) (rest : List HostInput), 10 ≤ n ∧ n ≤ 1023 ∧
      s.inputs = .command (0x2000#16 + BitVec.ofNat 16 n) d :: rest ∧ s.phase ≠ .fault :=
  ⟨.inl rfl, .inr (by decide +kernel), ⟨.faByte 0x61#8, State.reset, _, rfl, by decide⟩,
    given State.reset 0x23FF#16 0, 1023, 0, [], by decide, by decide, rfl, by decide⟩

theorem witness_RootwIsTheRootsWeight :
    (∃ s : State, s.root = nilIndex) ∧
    (∃ (s : State) (n : Node), s.root ≠ nilIndex ∧ nodeGet s.node s.root = some n) ∧
    ∃ (bs : List Byte) (s : State), Ready s ∧ bs.length ≤ s.cfg.maxCnt - 1 :=
  ⟨⟨State.reset, rfl⟩, ⟨built, ⟨4, .internal, 0#10, 3#10⟩, by decide, by decide +kernel⟩,
    ⟨[0x61#8], State.reset, ready_reset, by decide⟩⟩

theorem witness_NopAndTableReadsComplete : ∃ s : State, s.phase ≠ .fault := ⟨counted, by decide⟩

theorem witness_LaterCommandsDoNotSeeReads :
    ∃ (i j : Instr) (s t u : State), ((∃ r, i = .stRead r) ∨ ∃ sy, i = .ftRead sy) ∧ exec i s = .next t ∧ exec j s = .next u :=
  ⟨.ftRead a, .nop, counted, _, _, .inr ⟨a, rfl⟩, rfl, rfl⟩

/-- A `CLR`, an `FA.BYTE` that completes, one that does not, and another command. -/
theorem witness_LenChangesOnlyByCountingAndClearing :
    (∃ (s t : State) (r : Response), exec .clr s = .next t ∧ t.responses = s.responses ++ [r] ∧ s.len ≠ 0) ∧
    (∃ (b : Byte) (s t : State) (r : Response), exec (.faByte b) s = .next t ∧ t.responses = s.responses ++ [r] ∧
      r.status = .ok) ∧
    (∃ (b : Byte) (s t : State) (r : Response), exec (.faByte b) s = .next t ∧ t.responses = s.responses ++ [r] ∧
      r.status ≠ .ok) ∧
    ∃ (s t : State) (r : Response), exec .nop s = .next t ∧ t.responses = s.responses ++ [r] :=
  ⟨⟨counted, _, _, rfl, rfl, by decide⟩, ⟨0x61#8, State.reset, _, _, rfl, rfl, rfl⟩,
    ⟨0x61#8, built, _, _, rfl, rfl, by decide⟩, ⟨built, _, _, rfl, rfl⟩⟩

theorem witness_TableAndTreeStayAsBuilt :
    ∃ (i : Instr) (s t : State), treePhase s.phase = true ∧ i ≠ .clr ∧ exec i s = .next t :=
  ⟨.nop, built, _, rfl, by decide, rfl⟩

theorem witness_FaByteCountsOneByte :
    (∃ s : State, (s.phase = .idle ∨ s.phase = .count) ∧ s.len ≠ s.cfg.maxCnt - 1 ∧ Inv s) ∧
    ∃ s : State, (s.phase = .idle ∨ s.phase = .count) ∧ s.len = s.cfg.maxCnt - 1 :=
  ⟨⟨State.reset, .inl rfl, by decide, ready_reset.1⟩,
    ⟨{ State.reset with phase := .count, len := 2 ^ 32 - 2 }, .inr rfl, by decide⟩⟩

theorem witness_FaEndSetsTheTerminatorsCount : ∃ s : State, s.phase = .idle ∨ s.phase = .count := ⟨State.reset, .inl rfl⟩

theorem witness_EmptyInputTableHoldsTheTerminatorAlone : ∃ s : State, Ready s := ⟨State.reset, ready_reset⟩

theorem witness_FirstPassCountsOccurrences :
    ∃ (bs cs : List Byte) (s : State), Ready s ∧ bs.length ≤ s.cfg.maxCnt - 1 ∧ cs.Perm bs :=
  ⟨[0x61#8, 0x62#8], [0x62#8, 0x61#8], State.reset, ready_reset, by decide, List.Perm.swap ..⟩

theorem witness_FtLoadStoresOnePair :
    (∃ (sy : Symbol) (cnt : Nat) (s : State), (s.phase = .idle ∨ s.phase = .load) ∧ cnt ≠ 0 ∧ ftGet s.ft sy = 0) ∧
    (∃ (cnt : Nat) (s : State), (s.phase = .idle ∨ s.phase = .load) ∧ cnt = 0) ∧
    ∃ (sy : Symbol) (s : State), (s.phase = .idle ∨ s.phase = .load) ∧ ftGet s.ft sy ≠ 0 :=
  ⟨⟨a, 1, State.reset, .inl rfl, by decide, ftGet_empty a⟩, ⟨0, State.reset, .inl rfl, rfl⟩,
    ⟨a, { State.reset with phase := .load, ft := ftSet emptyTable a 3 }, .inr rfl, by
      rw [show ftGet _ a = 3 from ftGet_ftSet_same ..]; decide⟩⟩

theorem witness_LoadOrderDoesNotMatter :
    (∃ (tbl tbl' : HostTable) (s : State), Ready s ∧ goodTable s.cfg tbl ∧ tbl'.Perm tbl) ∧
    ∃ (c : Nat) (s : State), Ready s ∧ 0 < c ∧ c ≤ s.cfg.maxCnt := by
  refine ⟨⟨[(a, 2), (.terminator, 1)], [(.terminator, 1), (a, 2)], State.reset, ready_reset, ⟨?_, ?_⟩, List.Perm.swap ..⟩,
    ⟨2 ^ 32 - 1, State.reset, ready_reset, by decide, by decide⟩⟩
  · simp
  · simp [Config.maxCnt, State.reset, Config.standard]

theorem witness_TableRoundTripsThroughThePort :
    ∃ s u : State, Inv s ∧ (s.phase = .table ∨ treePhase s.phase = true) ∧ Ready u ∧ u.cfg = s.cfg :=
  ⟨built, State.reset, inv_built, .inr rfl, ready_reset, rfl⟩

theorem witness_TbBuildRejectsATableWithoutTheTerminator :
    (∃ s : State, (s.phase = .idle ∨ s.phase = .load ∨ s.phase = .table) ∧ ftGet s.ft .terminator = 0) ∧
    (∃ s t : State, exec .faEnd s = .next t ∧ t.phase = .table ∧ s.phase ≠ .table) ∧
    (∃ s : State, Inv s ∧ s.phase = .table) ∧
    ∃ s : State, Inv s ∧ treePhase s.phase = true ∧ s.nleaf.toNat = 1 :=
  ⟨⟨State.reset, .inl rfl, ftGet_empty _⟩, ⟨State.reset, _, rfl, rfl, by decide⟩, ⟨counted, inv_counted, rfl⟩,
    ⟨oneLeaf, inv_oneLeaf, rfl, rfl⟩⟩

theorem witness_TbBuildRejectsAnOverflowingTable :
    (∃ s : State, (s.phase = .idle ∨ s.phase = .load ∨ s.phase = .table) ∧ s.cfg.maxCnt < ftTotal s.ft ∧
      ftGet s.ft .terminator ≠ 0) ∧
    (∃ s : State, (s.phase = .idle ∨ s.phase = .load ∨ s.phase = .table) ∧ s.cfg.maxCnt < ftTotal s.ft ∧
      ftGet s.ft .terminator = 0) ∧
    ∃ s : State, Inv s ∧ s.phase = .table :=
  ⟨⟨{ counted with phase := .load, cfg := ⟨1⟩ }, .inr (.inl rfl), by
      show Config.maxCnt ⟨1⟩ < ftTotal aabTable
      rw [ftTotal, ftGet_aab]
      decide +kernel, by
      show ftGet aabTable .terminator ≠ 0
      rw [ftGet_aab]
      decide⟩,
    ⟨{ counted with phase := .load, cfg := ⟨1⟩, ft := ftSet emptyTable a 2 }, .inr (.inl rfl), by
      show Config.maxCnt ⟨1⟩ < ftTotal (ftSet emptyTable a 2)
      decide +kernel, by
      show ftGet (ftSet emptyTable a 2) .terminator = 0
      rw [ftGet_ftSet_ne _ _ (by decide), emptyTable, ftGet_empty]⟩,
    ⟨counted, inv_counted, rfl⟩⟩

/-- `TB.BUILD` on the table of "aab", in whatever phase it is legal. -/
theorem counted_builds {s : State} (hf : s.ft = counted.ft) (hc : s.cfg = counted.cfg) (hl : legalIn .tbBuild s.phase = true) :
    ∃ t, exec .tbBuild s = .next t ∧ t.phase = .tree := by
  have h : ftGet s.ft .terminator ≠ 0 := by rw [hf]; exact hasTree_built.terminator
  have f : ¬ s.cfg.maxCnt < ftTotal s.ft := by rw [hf, hc]; exact Nat.not_lt.2 hasTree_built.fits
  have e : exec .tbBuild s = tbBuildBody s := commonChecks_legal tbBuildBody (i := .tbBuild) (s := s) hl
  rw [tbBuildBody, if_neg h, if_neg f] at e
  exact ⟨_, e, rfl⟩

theorem witness_TbBuildRejectsAnOverflowingTable_build :
    ∃ s t : State, Inv s ∧ exec .tbBuild s = .next t ∧ t.phase = .tree ∧ s.phase ≠ .tree :=
  have ⟨t, e, h⟩ := counted_builds (s := counted) rfl rfl rfl
  ⟨counted, t, inv_counted, e, h, by decide⟩

theorem witness_TbBuildBuildsAndWritesOnlyTheTree :
    ∃ s : State, (s.phase = .idle ∨ s.phase = .load ∨ s.phase = .table) ∧ ftGet s.ft .terminator ≠ 0 ∧
      ftTotal s.ft ≤ s.cfg.maxCnt :=
  ⟨counted, .inr (.inr rfl), hasTree_built.terminator, hasTree_built.fits⟩

theorem witness_TreeInvariantsHoldWhereverATreeExists : ∃ s : State, Inv s ∧ treePhase s.phase = true :=
  ⟨decoding 0#10, inv_decoding, rfl⟩

theorem witness_MergesTakeTheTwoLeastNodes :
    ∃ (s : State) (i : NodeIndex) (n : Node), Inv s ∧ treePhase s.phase = true ∧ nodeGet s.node i = some n ∧ n.isLeaf = false :=
  ⟨built, 4#10, ⟨4, .internal, 0#10, 3#10⟩, inv_built, rfl, by decide +kernel, by decide⟩

theorem witness_SingleLeafTree :
    ∃ s : State, (s.phase = .idle ∨ s.phase = .load ∨ s.phase = .table) ∧ ftGet s.ft .terminator ≠ 0 ∧
      (∀ sy : Symbol, sy ≠ .terminator → ftGet s.ft sy = 0) ∧ ftGet s.ft .terminator ≤ s.cfg.maxCnt :=
  ⟨emptyCounted, .inr (.inr rfl), by
      show ftGet (ftSet emptyTable .terminator 1) .terminator ≠ 0
      rw [ftGet_one]
      decide, fun sy h => by
      show ftGet (ftSet emptyTable .terminator 1) sy = 0
      rw [ftGet_one]
      exact if_neg h, one_le _⟩

theorem witness_BuildIsAFunctionOfTheTable :
    ∃ s s' t t' : State, s'.cfg = s.cfg ∧ s'.ft = s.ft ∧ exec .tbBuild s = .next t ∧ exec .tbBuild s' = .next t' ∧
      s.phase ≠ .tree ∧ s'.phase ≠ .tree ∧ t.phase = .tree ∧ t'.phase = .tree ∧ s ≠ s' :=
  have ⟨t, e, h⟩ := counted_builds (s := counted) rfl rfl rfl
  have ⟨t', e', h'⟩ := counted_builds (s := { counted with phase := .load, len := 0 }) rfl rfl rfl
  ⟨counted, { counted with phase := .load, len := 0 }, t, t', rfl, rfl, e, e', by decide, by decide, h, h',
    fun c => absurd (congrArg State.phase c) (by decide)⟩

theorem witness_TreeCounts :
    ∃ (s : State) (p : BitString) (sy : Symbol), Inv s ∧ treePhase s.phase = true ∧ pathTo s p sy :=
  ⟨built, [true, false], b, inv_built, rfl, 1#10, by decide +kernel, ⟨1, .symbol b, 0x3FF#10, 0x3FF#10⟩, by decide +kernel,
    by decide, rfl⟩

theorem witness_WeightsAddUpAndDoNotDecrease :
    ∃ (s : State) (i j : NodeIndex) (m n : Node), Inv s ∧ treePhase s.phase = true ∧ nodeGet s.node i = some m ∧
      nodeGet s.node j = some n ∧ m.isLeaf = false ∧ n.isLeaf = false ∧ i.toNat ≤ j.toNat ∧
      ftGet s.ft .terminator = 1 ∧ s.len = byteTotal s.ft :=
  ⟨built, 3#10, 4#10, ⟨2, .internal, 1#10, 2#10⟩, ⟨4, .internal, 0#10, 3#10⟩, inv_built, rfl, by decide +kernel,
    by decide +kernel, by decide, by decide, by decide, ftGet_ftSet_same .., byteTotal_aab.symm⟩

theorem witness_TwoLeafTree : ∃ (n : Nat) (s : State), Ready s ∧ 1 ≤ n ∧ n ≤ s.cfg.maxCnt - 1 :=
  ⟨1, State.reset, ready_reset, by decide, by decide⟩

theorem witness_CmGenGivesEverySymbolItsPath : ∃ s : State, Inv s ∧ s.phase = .tree := ⟨built, inv_built, rfl⟩

theorem witness_CodeInvariantsHoldWhereverACodeMapExists :
    ∃ s : State, Inv s ∧ (s.phase = .mapped ∨ s.phase = .encode ∨ ((s.phase = .decode ∨ s.phase = .done) ∧ s.code ≠ emptyMap)) :=
  ⟨mapped, inv_mapped, .inl rfl⟩

theorem witness_SingleLeafCodeIsEmptyAndPresent : ∃ s : State, Inv s ∧ s.phase = .tree ∧ s.nleaf.toNat = 1 :=
  ⟨oneLeaf, inv_oneLeaf, rfl, rfl⟩

theorem witness_SingleLeafDecodesToNothing :
    (∃ s : State, Inv s ∧ s.phase = .tree ∧ s.nleaf.toNat = 1) ∧ ∃ s : State, Inv s ∧ s.phase = .decode :=
  ⟨⟨oneLeaf, inv_oneLeaf, rfl, rfl⟩, ⟨decoding 0#10, inv_decoding, rfl⟩⟩

theorem witness_EncoderEmitsTheCodeOrFaults :
    (∃ (s : State) (x : Byte) (c : BitString), (s.phase = .mapped ∨ s.phase = .encode) ∧ codeGet s.code (.byte x) = some c) ∧
    (∃ (s : State) (c : BitString), (s.phase = .mapped ∨ s.phase = .encode) ∧ codeGet s.code .terminator = some c) ∧
    (∃ (s : State) (x : Byte), (s.phase = .mapped ∨ s.phase = .encode) ∧ codeGet s.code (.byte x) = none) ∧
    ∃ s : State, (s.phase = .mapped ∨ s.phase = .encode) ∧ codeGet s.code .terminator = none :=
  ⟨⟨mapped, 0x62#8, [true, false], .inl rfl, by decide +kernel⟩, ⟨oneLeafMapped, [], .inl rfl, by decide +kernel⟩,
    ⟨mapped, 0x63#8, .inl rfl, by decide +kernel⟩, ⟨{ built with phase := .encode }, .inr rfl, codeGet_empty _⟩⟩

theorem witness_TerminatorAlwaysHasACode : ∃ s : State, Inv s ∧ (s.phase = .mapped ∨ s.phase = .encode) :=
  ⟨mapped, inv_mapped, .inl rfl⟩

theorem witness_EmptyInputEncodesToNothing : ∃ s : State, Inv s ∧ s.phase = .mapped ∧ s.nleaf.toNat = 1 :=
  ⟨oneLeafMapped, inv_oneLeafMapped, rfl, rfl⟩

theorem witness_SecondPassEmitsThePayload :
    ∃ (bs : List Byte) (s : State) (p : BitString), s.phase = .mapped ∧ payloadOf s.code bs = some p :=
  ⟨[0x61#8, 0x61#8, 0x62#8], mapped, [false, false, true, false, true, true], rfl, by decide +kernel⟩

theorem witness_DecodeStepOutcomes :
    (∃ (s : State) (n : Node), (s.phase = .tree ∨ s.phase = .mapped ∨ s.phase = .decode) ∧ nodeGet s.node s.cur = some n ∧
      n.isLeaf = true ∧ n.sym = .symbol .terminator) ∧
    (∃ (s : State) (n m : Node) (v : Byte), (s.phase = .tree ∨ s.phase = .mapped ∨ s.phase = .decode) ∧
      nodeGet s.node s.cur = some n ∧ n.isLeaf = true ∧ n.sym = .symbol (.byte v) ∧ nodeGet s.node s.root = some m ∧
      m.child true ≠ nilIndex) ∧
    ∃ (s : State) (n : Node), (s.phase = .tree ∨ s.phase = .mapped ∨ s.phase = .decode) ∧ nodeGet s.node s.cur = some n ∧
      n.isLeaf = false ∧ n.child false ≠ nilIndex :=
  ⟨⟨decoding 2#10, ⟨1, .symbol .terminator, 0x3FF#10, 0x3FF#10⟩, .inr (.inr rfl), by decide +kernel, by decide, rfl⟩,
    ⟨decoding 0#10, ⟨2, .symbol a, 0x3FF#10, 0x3FF#10⟩, ⟨4, .internal, 0#10, 3#10⟩, 0x61#8, .inr (.inr rfl),
      by decide +kernel, by decide, rfl, by decide +kernel, by decide⟩,
    ⟨built, ⟨4, .internal, 0#10, 3#10⟩, .inl rfl, by decide +kernel, by decide, by decide⟩⟩

theorem witness_DescentStaysInTheTree :
    ∃ (s : State) (n : Node), Inv s ∧ (s.phase = .tree ∨ s.phase = .mapped ∨ s.phase = .decode) ∧
      nodeGet s.node s.cur = some n ∧ n.isLeaf = true ∧ n.sym ≠ .symbol .terminator :=
  ⟨decoding 0#10, ⟨2, .symbol a, 0x3FF#10, 0x3FF#10⟩, inv_decoding, .inr (.inr rfl), by decide +kernel, by decide, by decide⟩

theorem witness_DecodeLoopEndsDoneOrTruncated :
    ∃ s : State, Inv s ∧ (s.phase = .tree ∨ s.phase = .mapped ∨ s.phase = .decode) :=
  ⟨decoding 0#10, inv_decoding, .inr (.inr rfl)⟩

theorem witness_DecodingInvertsEncoding :
    ∃ (bs : List Byte) (p : BitString) (cm : CodeMap) (s : State), Inv s ∧ (s.phase = .tree ∨ s.phase = .mapped) ∧
      generatedMap s.node s.root = .ok cm ∧ payloadOf cm bs = some p :=
  ⟨[0x61#8, 0x62#8], [false, true, false, true, true], v4Codes, built, inv_built, .inl rfl, generatedMap_built,
    by decide +kernel⟩

theorem witness_DecompressOfCompressIsTheInput :
    ∃ (bs : List Byte) (s u : State), Ready s ∧ bs.length ≤ s.cfg.maxCnt - 1 ∧ Ready u ∧ bs.length ≤ u.cfg.maxCnt - 1 :=
  ⟨[0x61#8, 0x61#8, 0x62#8], State.reset, State.reset, ready_reset, by decide, ready_reset, by decide⟩

/-- The state a sequence without a fault ends in. -/
def endState {α : Type} : HostRun α → Option State
  | .ok _ s => some s
  | .failed _ _ => none
  | .stopped => none

theorem witness_AnyEncodableSequenceDecodesBack :
    ∃ (tbl : HostTable) (bs : List Byte) (s t : State), Ready s ∧ issueAll (loads tbl ++ [.tbBuild]) s = .ok () t ∧
      (∀ x ∈ bs, ftGet t.ft (.byte x) ≠ 0) ∧ bs ≠ [] := by
  have h : ((endState (issueAll (loads [(a, 2), (.terminator, 1)] ++ [.tbBuild]) State.reset)).map
      fun t => ftGet t.ft a) = some 2 := by decide +kernel
  cases e : issueAll (loads [(a, 2), (.terminator, 1)] ++ [.tbBuild]) State.reset with
  | ok u t =>
    rw [e] at h
    refine ⟨_, [0x61#8], State.reset, t, ready_reset, e, fun x hx => ?_, by decide⟩
    have h2 : ftGet t.ft a = 2 := Option.some.inj h
    rw [List.mem_singleton.1 hx, h2]
    decide
  | failed r t => rw [e] at h; cases h
  | stopped => rw [e] at h; cases h

theorem witness_CompressIsAFunctionOfTheInput : ∃ (bs : List Byte) (s : State), Ready s ∧ bs.length ≤ s.cfg.maxCnt - 1 :=
  ⟨[0x61#8, 0x61#8, 0x62#8], State.reset, ready_reset, by decide⟩

theorem witness_EmptyInputRoundTrips : ∃ s u : State, Ready s ∧ Ready u := ⟨State.reset, State.reset, ready_reset, ready_reset⟩

theorem witness_RepeatedByteRoundTrips :
    ∃ (n : Nat) (s u : State), Ready s ∧ Ready u ∧ 1 ≤ n ∧ n ≤ s.cfg.maxCnt - 1 ∧ n ≤ u.cfg.maxCnt - 1 :=
  ⟨2, State.reset, State.reset, ready_reset, ready_reset, by decide, by decide, by decide⟩

theorem witness_PayloadLengthIsTheWeightedSum :
    (∃ (bs : List Byte) (s : State), Ready s ∧ bs.length ≤ s.cfg.maxCnt - 1) ∧
    ∃ (bs : List Byte) (p : BitString) (s : State), Inv s ∧ s.phase = .mapped ∧ ftGet s.ft .terminator = 1 ∧
      (∀ v : Byte, ftGet s.ft (.byte v) = occurrences bs v) ∧ payloadOf s.code bs = some p := by
  refine ⟨⟨[0x61#8, 0x61#8, 0x62#8], State.reset, ready_reset, by decide⟩, [0x61#8, 0x61#8, 0x62#8],
    [false, false, true, false, true, true], mapped, inv_mapped, rfl, ftGet_ftSet_same .., fun v => ?_, by decide +kernel⟩
  show ftGet aabTable (.byte v) = _
  rw [ftGet_aab]
  revert v
  decide +kernel

end Sys2Proof.Tests
end

section
/-! PROOF. What the merge loop of `TB.BUILD` keeps (41_tree_builder.md R143 to R146): the forest made so far is sound, so the nodes
it leaves have the tree invariants of 10_state.md R47. -/

namespace Sys2Proof.Machine

/-! ### Leaves -/

@[simp] theorem leafNode_isLeaf (sy : Symbol) (w : Nat) : (leafNode sy w).isLeaf = true := by
  simp [leafNode, Node.isLeaf]

theorem mem_leaves {ft : FreqTable} {n : Node} :
    n ∈ leaves ft ↔ ∃ sy, ftGet ft sy ≠ 0 ∧ n = leafNode sy (ftGet ft sy) := by
  simp [leaves, List.mem_filterMap, eq_comm]

/-- The leaves stand in ascending order of symbol (41_tree_builder.md R143). -/
theorem leaves_ascending (ft : FreqTable) : (leaves ft).Pairwise fun m n => m.sym.num < n.sym.num := by
  have sorted : allSymbols.Pairwise fun a b => a.idx < b.idx := by
    rw [← List.pairwise_map (f := Symbol.idx) (R := (· < ·)), allSymbols_idx]
    exact List.pairwise_lt_range
  refine sorted.filterMap _ fun a a' hlt m hm n hn => ?_
  obtain ⟨-, hm⟩ := Option.ite_none_left_eq_some.1 hm
  obtain ⟨-, hn⟩ := Option.ite_none_left_eq_some.1 hn
  rw [← Option.some.inj hm, ← Option.some.inj hn]
  exact hlt

/-- The leaves weigh together what the table sums to. -/
theorem leaves_weight_sum (ft : FreqTable) : ((leaves ft).map Node.weight).sum = ftTotal ft := by
  unfold leaves ftTotal
  induction allSymbols with
  | nil => rfl
  | cons sy sys ih =>
    rw [List.filterMap_cons, List.map_cons, List.sum_cons]
    by_cases h : ftGet ft sy = 0
    · simpa [h] using ih
    · simpa [h, leafNode] using ih

/-! ### Child links -/

/-- The child links of a node as numbers, the zero-branch first; a leaf has none. -/
def Node.links (n : Node) : List Nat := if n.isLeaf then [] else [n.c0.toNat, n.c1.toNat]

/-- The child links of all the nodes made so far. -/
def allLinks (ns : List Node) : List Nat := ns.flatMap Node.links

theorem allLinks_leaves (ft : FreqTable) : allLinks (leaves ft) = [] := by
  refine List.flatMap_eq_nil_iff.2 fun n hn => ?_
  obtain ⟨sy, -, rfl⟩ := mem_leaves.1 hn
  simp [Node.links]

theorem mem_links {n : Node} {i : NodeIndex} : i.toNat ∈ n.links ↔ n.isLeaf = false ∧ (n.c0 = i ∨ n.c1 = i) := by
  unfold Node.links
  cases n.isLeaf <;> simp [BitVec.toNat_inj, eq_comm (a := i)]

theorem joinNode_c0 {a b : QEntry} (h : a.idx < 1023) : (joinNode a b).c0.toNat = a.idx := by
  simp [joinNode]; omega

theorem joinNode_c1 {a b : QEntry} (h : b.idx < 1023) : (joinNode a b).c1.toNat = b.idx := by
  simp [joinNode]; omega

/-- An index below `NIL` is not `NIL`. -/
theorem ne_nil_of_toNat {i : NodeIndex} (h : i.toNat < 1023) : i ≠ nilIndex := by
  rintro rfl
  exact absurd h (by decide)

theorem joinNode_isLeaf {a b : QEntry} (h : a.idx < 1023) : (joinNode a b).isLeaf = false := by
  have c : (joinNode a b).c0 ≠ nilIndex := ne_nil_of_toNat (by rw [joinNode_c0 h]; exact h)
  simp [Node.isLeaf, c]

theorem joinNode_links {a b : QEntry} (ha : a.idx < 1023) (hb : b.idx < 1023) :
    (joinNode a b).links = [a.idx, b.idx] := by
  simp [Node.links, joinNode_isLeaf ha, joinNode_c0 ha, joinNode_c1 hb]

/-! ### The merge loop's invariant -/

/-- A queue element stands for a node made: its index names a node, and it has that node's weight. -/
def QEntry.StandsIn (e : QEntry) (ns : List Node) : Prop := ∃ n, ns[e.idx]? = some n ∧ n.weight = e.weight

theorem QEntry.StandsIn.lt {e : QEntry} {ns : List Node} (h : e.StandsIn ns) : e.idx < ns.length :=
  have ⟨_, hn, _⟩ := h
  (List.getElem?_eq_some_iff.1 hn).1

theorem QEntry.StandsIn.append {e : QEntry} {ns : List Node} (h : e.StandsIn ns) (ms : List Node) :
    e.StandsIn (ns ++ ms) := by
  obtain ⟨n, hn, hw⟩ := h
  exact ⟨n, by rw [List.getElem?_append_left (QEntry.StandsIn.lt ⟨n, hn, hw⟩), hn], hw⟩

/-- What the merge loop keeps: the leaves come first; every later node joins two earlier ones; the queue stands for nodes
made; each node made is either in the queue or the child of exactly one node; the queue weighs what the table sums to. -/
structure ForestOk (ft : FreqTable) (f : Forest) : Prop where
  leaves : leaves ft <+: f.nodes
  joins : ∀ (i : Nat) (n : Node), f.nodes[i]? = some n → (Machine.leaves ft).length ≤ i →
    ∃ a b : QEntry, n = joinNode a b ∧ a.idx < i ∧ b.idx < i ∧ a.StandsIn f.nodes ∧ b.StandsIn f.nodes
  queue : ∀ e ∈ f.queue, e.StandsIn f.nodes
  owned : (allLinks f.nodes ++ f.queue.map QEntry.idx).Perm (List.range f.nodes.length)
  total : (f.queue.map QEntry.weight).sum = ftTotal ft
  room : f.nodes.length + f.queue.length ≤ 514

theorem leafQueue_weights (ls : List Node) : (leafQueue ls).map QEntry.weight = ls.map Node.weight := by
  conv_rhs => rw [← List.zipIdx_map_fst 0 ls]
  rw [leafQueue, List.map_map, List.map_map]
  rfl

theorem leafQueue_idxs (ls : List Node) : (leafQueue ls).map QEntry.idx = List.range ls.length := by
  rw [List.range_eq_range', ← List.zipIdx_map_snd 0 ls]
  simp [leafQueue, Function.comp_def]

theorem leafQueue_standsIn {ls : List Node} {e : QEntry} (h : e ∈ leafQueue ls) : e.StandsIn ls := by
  obtain ⟨⟨n, i⟩, hp, rfl⟩ := List.mem_map.1 h
  exact ⟨n, List.mem_zipIdx_iff_getElem?.1 hp, rfl⟩

/-- The forest the loop starts from. -/
theorem forestOk_leaves (ft : FreqTable) : ForestOk ft { nodes := leaves ft, queue := leafQueue (leaves ft) } where
  leaves := List.prefix_refl _
  joins i n hn hi := absurd (List.getElem?_eq_some_iff.1 hn).1 (Nat.not_lt.2 hi)
  queue _ := leafQueue_standsIn
  owned := by rw [allLinks_leaves, leafQueue_idxs]; exact .refl _
  total := by rw [leafQueue_weights, leaves_weight_sum]
  room := by
    have := leaves_length_le ft
    simp only [leafQueue_length]
    omega

/-- One run of the loop: nothing on a queue of at most one element, else the join of two elements a and b, the others
kept (41_tree_builder.md R144). -/
theorem mergeOnce_cases (f : Forest) :
    (f.queue.length ≤ 1 ∧ mergeOnce f = f) ∨
    ∃ (a b : QEntry) (q : List QEntry), (a :: b :: q).Perm f.queue ∧
      mergeOnce f =
        { nodes := f.nodes ++ [joinNode a b]
          queue := q ++ [{ weight := a.weight + b.weight, idx := f.nodes.length }] } := by
  cases hq : f.queue with
  | nil => exact .inl ⟨by simp, by simp [mergeOnce, hq]⟩
  | cons e q =>
    have p := removeMin_perm e q
    cases hq' : (removeMin e q).2 with
    | nil =>
      rw [hq'] at p
      exact .inl ⟨p.length_eq.ge, by simp [mergeOnce, hq, hq']⟩
    | cons e' q' =>
      rw [hq'] at p
      exact .inr ⟨_, _, _, ((removeMin_perm e' q').cons _).trans p, mergeOnce_two hq hq'⟩

/-- The join of two queue elements keeps the forest sound. -/
theorem ForestOk.join {ft : FreqTable} {f : Forest} (h : ForestOk ft f) {a b : QEntry} {q : List QEntry}
    (hp : (a :: b :: q).Perm f.queue) :
    ForestOk ft
      { nodes := f.nodes ++ [joinNode a b]
        queue := q ++ [{ weight := a.weight + b.weight, idx := f.nodes.length }] } := by
  have room : f.nodes.length + (q.length + 2) ≤ 514 := by
    have := hp.length_eq
    have := h.room
    simp only [List.length_cons] at *
    omega
  have ha : a.StandsIn f.nodes := h.queue a (hp.mem_iff.1 (by simp))
  have hb : b.StandsIn f.nodes := h.queue b (hp.mem_iff.1 (by simp))
  have la := ha.lt
  have lb := hb.lt
  refine ⟨h.leaves.trans (List.prefix_append ..), fun i n hn hi => ?_, fun e he => ?_, ?_, ?_, ?_⟩
  · rcases Nat.lt_or_ge i f.nodes.length with hlt | hge
    · rw [List.getElem?_append_left hlt] at hn
      obtain ⟨a', b', e, ha', hb', sa, sb⟩ := h.joins i n hn hi
      exact ⟨a', b', e, ha', hb', sa.append _, sb.append _⟩
    · rw [List.getElem?_append_right hge, List.getElem?_singleton, Option.ite_none_right_eq_some] at hn
      exact ⟨a, b, (Option.some.inj hn.2).symm, by omega, by omega, ha.append _, hb.append _⟩
  · rcases List.mem_append.1 he with he | he
    · exact (h.queue e (hp.mem_iff.1 (by simp [he]))).append _
    · obtain rfl := List.mem_singleton.1 he
      exact ⟨joinNode a b, by simp, rfl⟩
  · have links : allLinks (f.nodes ++ [joinNode a b]) = allLinks f.nodes ++ [a.idx, b.idx] := by
      simp [allLinks, joinNode_links (a := a) (b := b) (by omega) (by omega)]
    have old := ((hp.map QEntry.idx).append_left (allLinks f.nodes)).trans h.owned
    simpa [links, List.range_succ] using old.append_right [f.nodes.length]
  · have w := (hp.map QEntry.weight).sum_eq
    rw [h.total] at w
    simp only [List.map_cons, List.sum_cons, List.map_append, List.sum_append, List.map_nil, List.sum_nil] at w ⊢
    omega
  · simp only [List.length_append, List.length_cons, List.length_nil]
    omega

theorem ForestOk.mergeOnce {ft : FreqTable} {f : Forest} (h : ForestOk ft f) : ForestOk ft (mergeOnce f) := by
  obtain ⟨-, e⟩ | ⟨a, b, q, hp, e⟩ := mergeOnce_cases f
  · rwa [e]
  · rw [e]
    exact h.join hp

theorem ForestOk.mergeLoop {ft : FreqTable} (n : Nat) {f : Forest} (h : ForestOk ft f) : ForestOk ft (mergeLoop n f) := by
  induction n generalizing f with
  | zero => exact h
  | succ n ih => exact ih h.mergeOnce

/-- The forest `TB.BUILD` ends with is sound. -/
theorem buildForest_ok (ft : FreqTable) : ForestOk ft (buildForest ft) :=
  (forestOk_leaves ft).mergeLoop _

end Sys2Proof.Machine
end

section
/-! PROOF. The tree of a state as the arena holds it, and the tree invariants (a) to (h) of 10_state.md R47. -/

namespace Sys2Proof.Machine

/-- The arena holds at most 513 nodes (41_tree_builder.md R150). -/
theorem builtNodes_length_le (ft : FreqTable) : (builtNodes ft).length ≤ 513 := by
  have room := (buildForest_ok ft).room
  have l := leaves_length_le ft
  have m := mergeLoop_lengths ((leaves ft).length - 1) { nodes := leaves ft, queue := leafQueue (leaves ft) }
  simp only [leafQueue_length] at m
  unfold builtNodes buildForest at *
  by_cases p : (leaves ft).length = 0
  · simp [p, mergeLoop]
  · have := m (by omega)
    omega

/-- The one element left in the queue, the root, stands for a node made, heavy as the whole table, and with the child links it
makes up all the nodes (41_tree_builder.md R146). -/
theorem builtRoot_spec {ft : FreqTable} (h : ftGet ft .terminator ≠ 0) :
    (∃ n, (builtNodes ft)[(builtRoot ft).toNat]? = some n ∧ n.weight = ftTotal ft) ∧
      (allLinks (builtNodes ft) ++ [(builtRoot ft).toNat]).Perm (List.range (builtNodes ft).length) := by
  have ok := buildForest_ok ft
  have le := builtNodes_length_le ft
  obtain ⟨e, he⟩ := List.length_eq_one_iff.1 (buildForest_lengths h).2
  obtain ⟨n, hn, hw⟩ : e.StandsIn (builtNodes ft) := ok.queue e (by simp [he])
  have lt : e.idx < (builtNodes ft).length := QEntry.StandsIn.lt ⟨n, hn, hw⟩
  have root : (builtRoot ft).toNat = e.idx := by
    rw [builtRoot, he]
    exact Nat.mod_eq_of_lt (by omega)
  rw [root]
  refine ⟨⟨n, hn, ?_⟩, ?_⟩
  · rw [hw, ← ok.total, he]
    simp
  · have owned := ok.owned
    rwa [he] at owned

/-- `TB.BUILD` writes the nodes built, from index 0 up, whatever the arena held (41_tree_builder.md R140). -/
theorem nodeGet_built (ar : NodeArena) {ft : FreqTable} {i : NodeIndex} (hi : i.toNat < (builtNodes ft).length) :
    nodeGet (writeNodes ar 0 (builtNodes ft)) i = (builtNodes ft)[i.toNat]? := by
  rw [nodeGet_writeNodes _ _ _ _ (by simpa using builtNodes_length_le ft), if_pos (by omega)]
  rfl

/-- The root `TB.BUILD` writes weighs the sum of the table (41_tree_builder.md R151). -/
theorem builtRoot_weighs (ar : NodeArena) {ft : FreqTable} (h : ftGet ft .terminator ≠ 0) :
    ∃ n, nodeGet (writeNodes ar 0 (builtNodes ft)) (builtRoot ft) = some n ∧ n.weight = ftTotal ft := by
  obtain ⟨n, hn, hw⟩ := (builtRoot_spec h).1
  exact ⟨n, by rw [nodeGet_built ar (List.getElem?_eq_some_iff.1 hn).1, hn], hw⟩

/-- Where no link is repeated, two nodes with a link in common stand at one place. -/
theorem link_position_unique {ns : List Node} (h : (allLinks ns).Nodup) {i j x : Nat} {m n : Node}
    (hm : ns[i]? = some m) (hn : ns[j]? = some n) (xm : x ∈ m.links) (xn : x ∈ n.links) : i = j := by
  have apart := List.pairwise_iff_getElem.1 (List.nodup_flatMap.1 h).2
  obtain ⟨hi, rfl⟩ := List.getElem?_eq_some_iff.1 hm
  obtain ⟨hj, rfl⟩ := List.getElem?_eq_some_iff.1 hn
  rcases Nat.lt_trichotomy i j with lt | eq | gt
  · exact absurd xn (apart i j hi hj lt xm)
  · exact eq
  · exact absurd xm (apart j i hj hi gt xn)

/-- A valid index is not `NIL` (20_memory.md R61). -/
theorem ne_nil_of_nodeGet {ar : NodeArena} {i : NodeIndex} {n : Node} (hn : nodeGet ar i = some n) : i ≠ nilIndex := by
  rintro rfl
  simp at hn

theorem child_of_isLeaf {n : Node} (h : n.isLeaf = true) (b : Bit) : n.child b = nilIndex := by
  rw [Node.isLeaf, Bool.and_eq_true, beq_iff_eq, beq_iff_eq] at h
  cases b
  · exact h.1
  · exact h.2

/-- A node with a child that is not `NIL` is internal, so the child is among its links. -/
theorem isChild_iff {i : NodeIndex} (hi : i ≠ nilIndex) (n : Node) : n.c0 = i ∨ n.c1 = i ↔ i.toNat ∈ n.links := by
  rw [mem_links]
  refine ⟨fun hc => ⟨?_, hc⟩, And.right⟩
  refine Bool.eq_false_iff.2 fun hl => hi ?_
  exact hc.elim (fun e => e.symm.trans (child_of_isLeaf hl false)) fun e => e.symm.trans (child_of_isLeaf hl true)

section
variable {s : State} (h : HasTree s)
include h

theorem HasTree.length : (builtNodes s.ft).length + 1 = 2 * (leaves s.ft).length := (buildForest_lengths h.terminator).1

/-- The arena of a tree is the list of nodes built. -/
theorem HasTree.nodeGet_eq (i : NodeIndex) : nodeGet s.node i = (builtNodes s.ft)[i.toNat]? := by
  rw [h.node, nodeGet_writeNodes _ _ _ _ (by simpa using builtNodes_length_le s.ft)]
  split
  · rfl
  · rw [nodeGet_empty, List.getElem?_eq_none (by omega)]

theorem HasTree.nleaf_toNat : s.nleaf.toNat = (leaves s.ft).length := by
  have := leaves_length_le s.ft
  rw [h.nleaf, BitVec.toNat_ofNat]
  omega

theorem HasTree.lt_length {i : NodeIndex} {n : Node} (hn : nodeGet s.node i = some n) :
    i.toNat < (builtNodes s.ft).length :=
  (List.getElem?_eq_some_iff.1 (h.nodeGet_eq i ▸ hn)).1

/-- The nodes below NLEAF are the leaves, in their order (41_tree_builder.md R143). -/
theorem HasTree.leafAt {i : NodeIndex} {n : Node} (hn : nodeGet s.node i = some n) (hi : i.toNat < s.nleaf.toNat) :
    (leaves s.ft)[i.toNat]? = some n := by
  obtain ⟨ms, hms⟩ := (buildForest_ok s.ft).leaves
  rw [h.nodeGet_eq, builtNodes, ← hms, List.getElem?_append_left (h.nleaf_toNat ▸ hi)] at hn
  exact hn

/-- The nodes from NLEAF up join two nodes made before (41_tree_builder.md R144). -/
theorem HasTree.joinAt {i : NodeIndex} {n : Node} (hn : nodeGet s.node i = some n) (hi : s.nleaf.toNat ≤ i.toNat) :
    n.isLeaf = false ∧ n.sym = .internal ∧ n.c0.toNat < i.toNat ∧ n.c1.toNat < i.toNat ∧
      ∃ a b, nodeGet s.node n.c0 = some a ∧ nodeGet s.node n.c1 = some b ∧ n.weight = a.weight + b.weight := by
  have lt := h.lt_length hn
  have le := builtNodes_length_le s.ft
  rw [h.nodeGet_eq] at hn
  obtain ⟨a, b, rfl, ha, hb, ⟨na, ga, wa⟩, ⟨nb, gb, wb⟩⟩ :=
    (buildForest_ok s.ft).joins i.toNat n hn (h.nleaf_toNat ▸ hi)
  have c0 : (joinNode a b).c0.toNat = a.idx := joinNode_c0 (by omega)
  have c1 : (joinNode a b).c1.toNat = b.idx := joinNode_c1 (by omega)
  refine ⟨joinNode_isLeaf (by omega), rfl, by rwa [c0], by rwa [c1], na, nb, ?_, ?_, ?_⟩
  · rw [h.nodeGet_eq, c0]
    exact ga
  · rw [h.nodeGet_eq, c1]
    exact gb
  · simp [joinNode, wa, wb]

theorem HasTree.isLeaf_iff {i : NodeIndex} {n : Node} (hn : nodeGet s.node i = some n) :
    n.isLeaf = true ↔ i.toNat < s.nleaf.toNat := by
  constructor
  · intro hl
    refine Nat.lt_of_not_le fun hi => ?_
    rw [(h.joinAt hn hi).1] at hl
    cases hl
  · intro hi
    obtain ⟨sy, -, rfl⟩ := mem_leaves.1 (List.mem_of_getElem? (h.leafAt hn hi))
    exact leafNode_isLeaf ..

/-- A leaf carries a symbol of the table and its count (41_tree_builder.md R143). -/
theorem HasTree.leaf_eq {i : NodeIndex} {n : Node} (hn : nodeGet s.node i = some n) (hl : n.isLeaf = true) :
    ∃ sy, ftGet s.ft sy ≠ 0 ∧ n = leafNode sy (ftGet s.ft sy) :=
  mem_leaves.1 (List.mem_of_getElem? (h.leafAt hn ((h.isLeaf_iff hn).1 hl)))

theorem HasTree.ascending {i j : NodeIndex} {m n : Node} (hm : nodeGet s.node i = some m) (hn : nodeGet s.node j = some n)
    (hij : i.toNat < j.toNat) (hj : j.toNat < s.nleaf.toNat) : m.sym.num < n.sym.num := by
  obtain ⟨li, rfl⟩ := List.getElem?_eq_some_iff.1 (h.leafAt hm (hij.trans hj))
  obtain ⟨lj, rfl⟩ := List.getElem?_eq_some_iff.1 (h.leafAt hn hj)
  exact List.pairwise_iff_getElem.1 (leaves_ascending s.ft) _ _ li lj hij

/-- Two leaves of one symbol are one leaf (10_state.md R47 (e)). -/
theorem HasTree.leafOf_unique {i j : NodeIndex} {sy : Symbol} (hi : leafOf s.node i sy) (hj : leafOf s.node j sy) : j = i := by
  obtain ⟨m, hm, lm, sm⟩ := hi
  obtain ⟨n, hn, ln, sn⟩ := hj
  have same : m.sym.num = n.sym.num := by rw [sm, sn]
  refine BitVec.eq_of_toNat_eq ?_
  rcases Nat.lt_trichotomy i.toNat j.toNat with lt | eq | gt
  · exact absurd same (h.ascending hm hn lt ((h.isLeaf_iff hn).1 ln)).ne
  · exact eq.symm
  · exact absurd same (h.ascending hn hm gt ((h.isLeaf_iff hm).1 lm)).ne'

theorem HasTree.exists_leafOf {sy : Symbol} (hs : ftGet s.ft sy ≠ 0) : ∃ i, leafOf s.node i sy := by
  obtain ⟨k, hk⟩ := List.mem_iff_getElem?.1 (mem_leaves.2 ⟨sy, hs, rfl⟩)
  have lt : k < (leaves s.ft).length := (List.getElem?_eq_some_iff.1 hk).1
  have le := leaves_length_le s.ft
  obtain ⟨ms, hms⟩ := (buildForest_ok s.ft).leaves
  refine ⟨BitVec.ofNat 10 k, leafNode sy (ftGet s.ft sy), ?_, leafNode_isLeaf .., rfl⟩
  rw [h.nodeGet_eq, BitVec.toNat_ofNat, Nat.mod_eq_of_lt (by omega), builtNodes, ← hms, List.getElem?_append_left lt]
  exact hk

/-- ROOT is heavy as the whole table, and with the child links it makes up all the nodes (41_tree_builder.md R146). -/
theorem HasTree.root_spec :
    (∃ n, nodeGet s.node s.root = some n ∧ n.weight = ftTotal s.ft) ∧
      (allLinks (builtNodes s.ft) ++ [s.root.toNat]).Perm (List.range (builtNodes s.ft).length) := by
  rw [h.nodeGet_eq, h.root]
  exact builtRoot_spec h.terminator

theorem HasTree.links_nodup : (allLinks (builtNodes s.ft)).Nodup :=
  (List.nodup_append.1 (h.root_spec.2.nodup_iff.2 List.nodup_range)).1

/-- ROOT is no node's child (10_state.md R47 (d)). -/
theorem HasTree.root_not_link : s.root.toNat ∉ allLinks (builtNodes s.ft) := fun hr =>
  (List.nodup_append.1 (h.root_spec.2.nodup_iff.2 List.nodup_range)).2.2 _ hr _ (by simp) rfl

theorem HasTree.owned {i : NodeIndex} (hv : (nodeGet s.node i).isSome = true) (hr : i ≠ s.root) :
    ∃ j : NodeIndex, (∃ n, nodeGet s.node j = some n ∧ (n.c0 = i ∨ n.c1 = i)) ∧
      ∀ j' : NodeIndex, (∃ n, nodeGet s.node j' = some n ∧ (n.c0 = i ∨ n.c1 = i)) → j' = j := by
  obtain ⟨v, hv⟩ := Option.isSome_iff_exists.1 hv
  have child := isChild_iff (ne_nil_of_nodeGet hv)
  have linked : i.toNat ∈ allLinks (builtNodes s.ft) := by
    have := h.root_spec.2.mem_iff.2 (List.mem_range.2 (h.lt_length hv))
    rcases List.mem_append.1 this with m | m
    · exact m
    · exact absurd (BitVec.eq_of_toNat_eq (List.mem_singleton.1 m)) hr
  obtain ⟨n, hn, hi⟩ := List.mem_flatMap.1 linked
  obtain ⟨k, hk⟩ := List.mem_iff_getElem?.1 hn
  have lt := (List.getElem?_eq_some_iff.1 hk).1
  have le := builtNodes_length_le s.ft
  have kk : (BitVec.ofNat 10 k).toNat = k := Nat.mod_eq_of_lt (by omega)
  refine ⟨BitVec.ofNat 10 k, ⟨n, by rw [h.nodeGet_eq, kk, hk], (child n).2 hi⟩, fun j' hj' => ?_⟩
  obtain ⟨n', hn', hi'⟩ := hj'
  refine BitVec.eq_of_toNat_eq ?_
  rw [kk]
  exact link_position_unique h.links_nodup (h.nodeGet_eq j' ▸ hn') hk ((child n').1 hi') hi

theorem HasTree.rootFree (j : NodeIndex) (n : Node) (hn : nodeGet s.node j = some n) : n.c0 ≠ s.root ∧ n.c1 ≠ s.root := by
  obtain ⟨r, hr, -⟩ := h.root_spec.1
  refine not_or.1 fun hc => h.root_not_link (List.mem_flatMap.2 ⟨n, ?_, (isChild_iff (ne_nil_of_nodeGet hr) n).1 hc⟩)
  exact List.mem_of_getElem? (h.nodeGet_eq j ▸ hn)

/-- The two children of a node differ: a node is linked once (10_state.md R47 (c), (d)). -/
theorem HasTree.children_ne {i : NodeIndex} {n : Node} (hn : nodeGet s.node i = some n) (hl : n.isLeaf = false) :
    n.c0 ≠ n.c1 := by
  have nd := (List.nodup_flatMap.1 h.links_nodup).1 n (List.mem_of_getElem? (h.nodeGet_eq i ▸ hn))
  rw [Node.links, hl] at nd
  intro e
  simp [e] at nd

/-- A tree has the tree invariants (10_state.md R47). -/
theorem HasTree.treeInvariants : TreeInvariants s where
  valid i := by
    have := h.length
    have := h.nleaf_toNat
    rw [h.nodeGet_eq, isSome_getElem?]
    omega
  leafLow i n hn hi := (h.isLeaf_iff hn).2 hi
  ascending i j m n hm hn := h.ascending hm hn
  internalHigh i n hn hi := by
    obtain ⟨-, -, -, -, a, b, ha, hb, -⟩ := h.joinAt hn hi
    exact ⟨ne_nil_of_nodeGet ha, ne_nil_of_nodeGet hb⟩
  children i n hn hl := by
    have hi : s.nleaf.toNat ≤ i.toNat := Nat.le_of_not_lt fun lt => by simp [(h.isLeaf_iff hn).2 lt] at hl
    obtain ⟨-, -, lt0, lt1, ab⟩ := h.joinAt hn hi
    exact ⟨lt0, lt1, h.children_ne hn hl, ab⟩
  owned i := h.owned
  rootFree := ⟨by obtain ⟨n, hn, -⟩ := h.root_spec.1; simp [hn], h.rootFree⟩
  oneLeaf sy hs := by
    obtain ⟨i, hi⟩ := h.exists_leafOf hs
    exact ⟨i, hi, fun j => h.leafOf_unique hi⟩
  leafCount i n hn hl := by
    obtain ⟨sy, hs, rfl⟩ := h.leaf_eq hn hl
    exact ⟨sy, rfl, rfl, hs⟩
  rootWeighs := h.root_spec.1
  marker i n hn := by
    cases hl : n.isLeaf with
    | true =>
      obtain ⟨sy, -, rfl⟩ := h.leaf_eq hn hl
      simp [leafNode]
    | false =>
      have hi : s.nleaf.toNat ≤ i.toNat := Nat.le_of_not_lt fun lt => by simp [(h.isLeaf_iff hn).2 lt] at hl
      simp [(h.joinAt hn hi).2.1]
  terminator := h.exists_leafOf h.terminator

end

/-- In a phase in which a tree exists the invariant gives the tree. -/
theorem Inv.hasTree {s : State} (h : Inv s) (hp : treePhase s.phase = true) : HasTree s := by
  have t := h.tree
  simp only [treePhase, Bool.or_eq_true, beq_iff_eq] at hp
  rcases hp with (((e | e) | e) | e) | e <;> simp only [TreeOk, e] at t
  · exact t.1
  · exact t.1
  · exact t.1
  · exact t
  · exact t

/-- Settles O35: the tree of a state is the one the merge loop makes, and that loop keeps `ForestOk`. -/
theorem treeInvariantsHoldWhereverATreeExists : Obligations.TreeInvariantsHoldWhereverATreeExists :=
  fun _ inv hp => (inv.hasTree hp).treeInvariants

end Sys2Proof.Machine
end

section
/-! PROOF. What `CM.GEN` makes of a tree (42_code_map_generator.md R161 to R163): the walk records paths, it records every leaf's, and
in a tree no path to a leaf begins another; so a code map has the invariants (a) to (e) of 10_state.md R49. -/

namespace Sys2Proof.Machine

/-! ### Paths -/

theorem follow_append (ar : NodeArena) (i : NodeIndex) (p q : BitString) :
    follow ar i (p ++ q) = (follow ar i p).bind fun j => follow ar j q := by
  induction p generalizing i with
  | nil => rfl
  | cons b p ih =>
    simp only [List.cons_append, follow]
    cases nodeGet ar i with
    | none => rfl
    | some n => exact ih _

/-- A path that leads on from a node begins with one of its branches. -/
theorem follow_cons {ar : NodeArena} {i : NodeIndex} {n : Node} (hn : nodeGet ar i = some n) (b : Bit) (p : BitString) :
    follow ar i (b :: p) = follow ar (n.child b) p := by
  simp [follow, hn]

/-- No path leads from a leaf to a valid node but the empty one (10_state.md R46). -/
theorem follow_from_leaf {ar : NodeArena} {i j : NodeIndex} {m n : Node} {p : BitString} (hn : nodeGet ar i = some n)
    (hl : n.isLeaf = true) (hp : follow ar i p = some j) (hm : nodeGet ar j = some m) : p = [] ∧ j = i := by
  cases p with
  | nil => exact ⟨rfl, (Option.some.inj hp).symm⟩
  | cons b p =>
    rw [follow_cons hn, child_of_isLeaf hl] at hp
    cases p with
    | nil =>
      obtain rfl := Option.some.inj hp
      simp at hm
    | cons c p => simp [follow] at hp

/-- A path leads from a node to the leaf of a symbol. -/
def LeadsTo (ar : NodeArena) (i : NodeIndex) (p : BitString) (sy : Symbol) : Prop :=
  ∃ j, follow ar i p = some j ∧ leafOf ar j sy

theorem LeadsTo.cons {ar : NodeArena} {i : NodeIndex} {n : Node} (hn : nodeGet ar i = some n) {b : Bit} {p : BitString}
    {sy : Symbol} (h : LeadsTo ar (n.child b) p sy) : LeadsTo ar i (b :: p) sy := by
  rwa [LeadsTo, follow_cons hn]

/-! ### The walk -/

/-- What a walk that ends has done: at a leaf it recorded the path to it, at an internal node it walked both branches. -/
theorem walk_cases {ar : NodeArena} {d : Nat} {i : NodeIndex} {p : BitString} {cm cm' : CodeMap}
    (h : walk ar (d + 1) i p cm = .ok cm') :
    ∃ n, nodeGet ar i = some n ∧
      ((∃ sy, n.isLeaf = true ∧ n.sym = .symbol sy ∧ cm' = codeSet cm sy p) ∨
        ∃ c, n.isLeaf = false ∧ walk ar d n.c0 (p ++ [false]) cm = .ok c ∧ walk ar d n.c1 (p ++ [true]) c = .ok cm') := by
  rw [walk] at h
  cases hn : nodeGet ar i with
  | none => simp [hn] at h
  | some n =>
    refine ⟨n, rfl, ?_⟩
    cases hl : n.isLeaf with
    | true =>
      cases hs : n.sym with
      | internal => simp [hn, hl, hs] at h
      | symbol sy => exact .inl ⟨sy, rfl, rfl, by simpa [hn, hl, hs] using h.symm⟩
    | false =>
      cases hc : walk ar d n.c0 (p ++ [false]) cm with
      | error e => simp [hn, hl, hc] at h
      | ok c => exact .inr ⟨c, rfl, rfl, by simpa [hn, hl, hc] using h⟩

/-- A code after a walk was there before, or is the path to the symbol's leaf (42_code_map_generator.md R161). -/
theorem walk_sound {ar : NodeArena} {d : Nat} {i : NodeIndex} {p : BitString} {cm cm' : CodeMap}
    (h : walk ar d i p cm = .ok cm') {sy : Symbol} {q : BitString} (hq : codeGet cm' sy = some q) :
    codeGet cm sy = some q ∨ ∃ r, q = p ++ r ∧ LeadsTo ar i r sy := by
  induction d generalizing i p cm cm' with
  | zero => cases h
  | succ d ih =>
    obtain ⟨n, hn, ⟨z, hl, hs, rfl⟩ | ⟨c, -, h0, h1⟩⟩ := walk_cases h
    · by_cases e : sy = z
      · subst e
        rw [codeGet_codeSet_same, Option.some.injEq] at hq
        exact .inr ⟨[], by rw [List.append_nil, hq], i, rfl, n, hn, hl, hs⟩
      · rw [codeGet_codeSet_ne _ _ e] at hq
        exact .inl hq
    · have branch : ∀ (b : Bit), (∃ r, q = p ++ [b] ++ r ∧ LeadsTo ar (n.child b) r sy) →
          ∃ r, q = p ++ r ∧ LeadsTo ar i r sy := fun b ⟨r, e, hr⟩ =>
        ⟨b :: r, by rw [e, List.append_assoc]; rfl, hr.cons hn⟩
      rcases ih h1 hq with hc | hr
      · exact (ih h0 hc).imp_right (branch false)
      · exact .inr (branch true hr)

/-- A walk takes no code away. -/
theorem walk_keeps {ar : NodeArena} {d : Nat} {i : NodeIndex} {p : BitString} {cm cm' : CodeMap}
    (h : walk ar d i p cm = .ok cm') {sy : Symbol} (hs : (codeGet cm sy).isSome = true) : (codeGet cm' sy).isSome = true := by
  induction d generalizing i p cm cm' with
  | zero => cases h
  | succ d ih =>
    obtain ⟨n, hn, ⟨z, -, -, rfl⟩ | ⟨c, -, h0, h1⟩⟩ := walk_cases h
    · by_cases e : sy = z
      · simp [e]
      · rwa [codeGet_codeSet_ne _ _ e]
    · exact ih h1 (ih h0 hs)

/-- A walk gives a code to every symbol whose leaf is reached (42_code_map_generator.md R161). -/
theorem walk_complete {ar : NodeArena} {d : Nat} {i : NodeIndex} {p : BitString} {cm cm' : CodeMap}
    (h : walk ar d i p cm = .ok cm') {sy : Symbol} {r : BitString} (hr : LeadsTo ar i r sy) :
    (codeGet cm' sy).isSome = true := by
  induction d generalizing i p cm cm' r with
  | zero => cases h
  | succ d ih =>
    obtain ⟨j, hj, m, hm, lm, sm⟩ := hr
    obtain ⟨n, hn, ⟨z, hl, hs, rfl⟩ | ⟨c, hl, h0, h1⟩⟩ := walk_cases h
    · obtain ⟨-, rfl⟩ := follow_from_leaf hn hl hj hm
      obtain rfl : n = m := Option.some.inj (hn.symm.trans hm)
      obtain rfl : z = sy := NodeSym.symbol.inj (hs.symm.trans sm)
      simp
    · cases r with
      | nil =>
        obtain rfl := Option.some.inj hj
        obtain rfl : n = m := Option.some.inj (hn.symm.trans hm)
        exact absurd (hl.symm.trans lm) (by decide)
      | cons b r =>
        rw [follow_cons hn] at hj
        cases b with
        | false => exact walk_keeps h1 (ih h0 ⟨j, hj, m, hm, lm, sm⟩)
        | true => exact ih h1 ⟨j, hj, m, hm, lm, sm⟩

/-! ### Paths in a tree -/

/-- A node is a leaf exactly when it stands below NLEAF (10_state.md R47 (b)). -/
theorem TreeInvariants.isLeaf_iff {s : State} (t : TreeInvariants s) {i : NodeIndex} {n : Node}
    (hn : nodeGet s.node i = some n) : n.isLeaf = true ↔ i.toNat < s.nleaf.toNat := by
  refine ⟨fun hl => Nat.lt_of_not_le fun hi => (t.internalHigh i n hn hi).1 ?_, t.leafLow i n hn⟩
  exact child_of_isLeaf hl false

theorem TreeInvariants.valid_lt {s : State} (t : TreeInvariants s) {i : NodeIndex} {n : Node}
    (hn : nodeGet s.node i = some n) : i.toNat + 1 < 2 * s.nleaf.toNat :=
  (t.valid i).1 (by simp [hn])

/-- The children of an internal node are valid and stand below it (10_state.md R47 (c)). -/
theorem TreeInvariants.child_valid {s : State} (t : TreeInvariants s) {i : NodeIndex} {n : Node}
    (hn : nodeGet s.node i = some n) (hl : n.isLeaf = false) (b : Bit) :
    (∃ m, nodeGet s.node (n.child b) = some m) ∧ (n.child b).toNat < i.toNat := by
  obtain ⟨lt0, lt1, -, x, y, hx, hy, -⟩ := t.children i n hn hl
  cases b with
  | false => exact ⟨⟨x, hx⟩, lt0⟩
  | true => exact ⟨⟨y, hy⟩, lt1⟩

/-- A node's parent is internal and stands above it (10_state.md R47 (c)). -/
theorem TreeInvariants.parent_above {s : State} (t : TreeInvariants s) {i j : NodeIndex} {n : Node} (hi : i ≠ nilIndex)
    (hn : nodeGet s.node j = some n) (hc : n.c0 = i ∨ n.c1 = i) : i.toNat < j.toNat ∧ ∃ b, n.child b = i := by
  have hl : n.isLeaf = false := (mem_links.1 ((isChild_iff hi n).1 hc)).1
  obtain ⟨b, hb⟩ : ∃ b, n.child b = i := hc.elim (fun e => ⟨false, e⟩) fun e => ⟨true, e⟩
  exact ⟨hb ▸ (t.child_valid hn hl b).2, b, hb⟩

/-- Every valid node is reached from ROOT: one that is not ROOT is the child of a node above it. -/
theorem TreeInvariants.reached {s : State} (t : TreeInvariants s) (i : NodeIndex) (hi : (nodeGet s.node i).isSome = true) :
    ∃ p, follow s.node s.root p = some i := by
  by_cases hr : i = s.root
  · exact ⟨[], by rw [hr]; rfl⟩
  · obtain ⟨j, ⟨n, hn, hc⟩, -⟩ := t.owned i hi hr
    obtain ⟨v, hv⟩ := Option.isSome_iff_exists.1 hi
    obtain ⟨above, b, hb⟩ := t.parent_above (ne_nil_of_nodeGet hv) hn hc
    have inArena := t.valid_lt hn
    obtain ⟨p, hp⟩ := t.reached j (by simp [hn])
    exact ⟨p ++ [b], by rw [follow_append, hp, Option.bind_some, follow_cons hn, hb]; rfl⟩
  termination_by 2 * s.nleaf.toNat - i.toNat

/-- A path to a valid node is no longer than the internal nodes from its start down are many (41_tree_builder.md R150). -/
theorem TreeInvariants.follow_length {s : State} (t : TreeInvariants s) {i j : NodeIndex} {p : BitString}
    (hp : follow s.node i p = some j) (hj : (nodeGet s.node j).isSome = true) :
    p.length ≤ i.toNat + 1 - s.nleaf.toNat := by
  induction p generalizing i with
  | nil => simp
  | cons b p ih =>
    cases hn : nodeGet s.node i with
    | none => simp [follow, hn] at hp
    | some n =>
      obtain ⟨m, hm⟩ := Option.isSome_iff_exists.1 hj
      have hl : n.isLeaf = false := Bool.eq_false_iff.2 fun hl => by
        simpa using (follow_from_leaf hn hl hp hm).1
      have high : ¬ i.toNat < s.nleaf.toNat := fun lt => by simp [t.leafLow i n hn lt] at hl
      rw [follow_cons hn] at hp
      have := ih hp
      have := (t.child_valid hn hl b).2
      simp only [List.length_cons]
      omega

/-- ROOT is the last node: no node but ROOT is no node's child, and the last node is none (41_tree_builder.md R150). -/
theorem TreeInvariants.root_toNat {s : State} (t : TreeInvariants s) : s.root.toNat + 2 = 2 * s.nleaf.toNat := by
  obtain ⟨r, hr⟩ := Option.isSome_iff_exists.1 t.rootFree.1
  have lt := t.valid_lt hr
  by_contra hne
  have small : s.nleaf.toNat < 512 := s.nleaf.isLt
  obtain ⟨i, hi⟩ : ∃ i : NodeIndex, i.toNat + 2 = 2 * s.nleaf.toNat :=
    ⟨BitVec.ofNat 10 (2 * s.nleaf.toNat - 2), by rw [BitVec.toNat_ofNat]; omega⟩
  obtain ⟨j, ⟨n, hn, hc⟩, -⟩ := t.owned i ((t.valid i).2 (by omega)) fun e => hne (e ▸ hi)
  have above := (t.parent_above (ne_nil_of_toNat (by omega)) hn hc).1
  have inArena := t.valid_lt hn
  omega

/-- ROOT is a leaf exactly in a tree of one leaf. -/
theorem TreeInvariants.root_isLeaf_iff {s : State} (t : TreeInvariants s) {r : Node} (hr : nodeGet s.node s.root = some r) :
    r.isLeaf = true ↔ s.nleaf.toNat = 1 := by
  have root := t.root_toNat
  rw [t.isLeaf_iff hr]
  omega

/-! ### The code map -/

/-- Two paths from one node to leaves of different symbols: the first does not begin the second
(42_code_map_generator.md R163). -/
theorem LeadsTo.not_prefix {ar : NodeArena} {i : NodeIndex} {p q : BitString} {a b : Symbol} (ha : LeadsTo ar i p a)
    (hb : LeadsTo ar i q b) (hne : a ≠ b) : ¬ p <+: q := by
  rintro ⟨r, rfl⟩
  obtain ⟨j, hj, m, hm, lm, sm⟩ := ha
  obtain ⟨k, hk, n, hn, -, sn⟩ := hb
  rw [follow_append, hj, Option.bind_some] at hk
  obtain ⟨-, rfl⟩ := follow_from_leaf hm lm hk hn
  obtain rfl : m = n := Option.some.inj (hm.symm.trans hn)
  exact hne (NodeSym.symbol.inj (sm.symm.trans sn))

/-- A symbol with a leaf is in the table (10_state.md R47 (e)). -/
theorem TreeInvariants.leafOf_present {s : State} (t : TreeInvariants s) {i : NodeIndex} {sy : Symbol}
    (h : leafOf s.node i sy) : ftGet s.ft sy ≠ 0 := by
  obtain ⟨n, hn, hl, hs⟩ := h
  obtain ⟨z, hz, -, pos⟩ := t.leafCount i n hn hl
  rwa [NodeSym.symbol.inj (hs.symm.trans hz)]

/-- In a tree of one leaf the only path to a leaf is the empty one, to the terminator's (42_code_map_generator.md R164). -/
theorem TreeInvariants.pathTo_single {s : State} (t : TreeInvariants s) (hk : s.nleaf.toNat = 1) {p : BitString}
    {sy : Symbol} (h : pathTo s p sy) : sy = .terminator ∧ p = [] := by
  obtain ⟨r, hr⟩ := Option.isSome_iff_exists.1 t.rootFree.1
  obtain ⟨j, hj, n, hn, hl, hs⟩ := h
  obtain ⟨rfl, rfl⟩ := follow_from_leaf hr ((t.root_isLeaf_iff hr).2 hk) hj hn
  obtain ⟨i, m, hm, -, hs'⟩ := t.terminator
  have root := t.root_toNat
  have inArena := t.valid_lt hm
  obtain rfl : i = s.root := BitVec.eq_of_toNat_eq (by omega)
  obtain rfl : m = n := Option.some.inj (hm.symm.trans hn)
  exact ⟨NodeSym.symbol.inj (hs.symm.trans hs'), rfl⟩

/-- A code is the path from ROOT to its symbol's leaf (10_state.md R49 (b)). -/
theorem HasCode.pathTo {s : State} (h : HasCode s) {sy : Symbol} {p : BitString} (hp : codeGet s.code sy = some p) :
    pathTo s p sy := by
  rcases walk_sound h hp with hc | ⟨r, rfl, hr⟩
  · simp at hc
  · exact hr

/-- A symbol has a code exactly when it is in the table (10_state.md R49 (a)). -/
theorem TreeInvariants.code_present_iff {s : State} (t : TreeInvariants s) (h : HasCode s) (sy : Symbol) :
    (codeGet s.code sy).isSome = true ↔ ftGet s.ft sy ≠ 0 := by
  constructor
  · intro hs
    obtain ⟨p, hp⟩ := Option.isSome_iff_exists.1 hs
    obtain ⟨i, -, hi⟩ := h.pathTo hp
    exact t.leafOf_present hi
  · intro hs
    obtain ⟨i, hi, -⟩ := t.oneLeaf sy hs
    have ⟨n, hn, _⟩ := hi
    obtain ⟨p, hp⟩ := t.reached i (by simp [hn])
    exact walk_complete h ⟨i, hp, hi⟩

/-- The code map `CM.GEN` makes of a tree has the code-map invariants (10_state.md R49). -/
theorem TreeInvariants.codeInvariants {s : State} (t : TreeInvariants s) (h : HasCode s) : CodeInvariants s where
  present := t.code_present_iff h
  path _ _ hp := h.pathTo hp
  short sy p hp := by
    obtain ⟨j, hj, n, hn, -⟩ := h.pathTo hp
    have depth := t.follow_length hj (by simp [hn])
    have root := t.root_toNat
    omega
  code hk a b p q hp hq := by
    refine ⟨?_, LeadsTo.not_prefix (h.pathTo hp) (h.pathTo hq)⟩
    rintro rfl
    obtain ⟨j, hj, n, hn, hl, -⟩ := h.pathTo hp
    obtain rfl := Option.some.inj hj
    have := (t.root_isLeaf_iff hn).1 hl
    omega
  single hk sy p := by
    refine ⟨fun hp => t.pathTo_single hk (h.pathTo hp), ?_⟩
    rintro ⟨rfl, rfl⟩
    obtain ⟨i, hi⟩ := t.terminator
    obtain ⟨q, hq⟩ := Option.isSome_iff_exists.1 ((t.code_present_iff h .terminator).2 (t.leafOf_present hi))
    rw [hq, (t.pathTo_single hk (h.pathTo hq)).2]

/-- In the phases of 10_state.md R49, there are a tree and the code map of that tree. -/
theorem Inv.hasTree_hasCode {s : State} (h : Inv s)
    (hp : s.phase = .mapped ∨ s.phase = .encode ∨ ((s.phase = .decode ∨ s.phase = .done) ∧ s.code ≠ emptyMap)) :
    HasTree s ∧ HasCode s := by
  have c := h.code
  rcases hp with e | e | ⟨e | e, made⟩ <;> refine ⟨h.hasTree (by simp [treePhase, e]), ?_⟩ <;> simp only [CodeOk, e] at c
  · exact c
  · exact c
  · exact c.resolve_left made
  · exact c.resolve_left made

/-- Settles O43: every code is a path in the tree, and the tree invariants bound and separate the paths to its leaves. -/
theorem codeInvariantsHoldWhereverACodeMapExists : Obligations.CodeInvariantsHoldWhereverACodeMapExists := fun _ inv hp =>
  have ⟨tree, code⟩ := inv.hasTree_hasCode hp
  tree.treeInvariants.codeInvariants code

end Sys2Proof.Machine
end

section
/-! PROOF. Everything a command can do, said once: how it completes, which fault it takes and from what state, and how a step with a
command word presented ends. -/

namespace Sys2Proof.Machine

/-- How a command completes from `s`: its flags, its data, and the state before the response. -/
inductive Completes (s : State) : Instr → RspFlags → Nat → State → Prop where
  | nop : Completes s .nop RspFlags.zero 0 s
  | clr : Completes s .clr RspFlags.zero 0 (clearSession s)
  | stRead {r : StReg} {v : Nat} (hv : readReg r s = .ok v) : Completes s (.stRead r) RspFlags.zero v s
  | ftRead {sy : Symbol} : Completes s (.ftRead sy) RspFlags.zero (ftGet s.ft sy) s
  | ftLoad {sy : Symbol} {cnt : Nat} (hc : cnt ≠ 0) (ha : ftGet s.ft sy = 0) :
    Completes s (.ftLoad sy cnt) RspFlags.zero 0 { s with ft := ftSet s.ft sy cnt, phase := .load }
  | faByte {b : Byte} (hl : s.len ≠ s.cfg.maxCnt - 1) :
    Completes s (.faByte b) RspFlags.zero 0
      { s with ft := ftSet s.ft (.byte b) (ftGet s.ft (.byte b) + 1), len := s.len + 1, phase := .count }
  | faEnd : Completes s .faEnd RspFlags.zero 0 { s with ft := ftSet s.ft .terminator 1, phase := .table }
  | tbBuild (ht : ftGet s.ft .terminator ≠ 0) (hs : ftTotal s.ft ≤ s.cfg.maxCnt) :
    Completes s .tbBuild RspFlags.zero 0
      { s with
        node := writeNodes s.node 0 (builtNodes s.ft)
        nleaf := BitVec.ofNat 9 (leaves s.ft).length
        nnode := BitVec.ofNat 10 (builtNodes s.ft).length
        root := builtRoot s.ft
        cur := builtRoot s.ft
        phase := .tree }
  | cmGen {cm : CodeMap} (hm : generatedMap s.node s.root = .ok cm) :
    Completes s .cmGen RspFlags.zero 0 { s with code := cm, phase := .mapped }
  | encByte {b : Byte} {c : BitString} (hc : codeGet s.code (.byte b) = some c) :
    Completes s (.encByte b) RspFlags.zero c.length { putBits c s with phase := .encode }
  | encEnd {c : BitString} (hc : codeGet s.code .terminator = some c) :
    Completes s .encEnd { consumed := false, emitted := false, done := true } c.length { putBits c s with phase := .done }
  | decDone {o : Offer} {n : Node} (hn : nodeGet s.node s.cur = some n) (hl : n.isLeaf = true)
      (hs : n.sym = .symbol .terminator) :
    Completes s (.decStep o) { consumed := false, emitted := false, done := true } 0 { s with phase := .done }
  | decEmit {o : Offer} {n m : Node} {v : Byte} {b : Bit} (hn : nodeGet s.node s.cur = some n) (hl : n.isLeaf = true)
      (hs : n.sym = .symbol (.byte v)) (ho : offerBit o = some b) (hm : nodeGet s.node s.root = some m)
      (hc : m.child b ≠ nilIndex) :
    Completes s (.decStep o) { consumed := true, emitted := true, done := false } v.toNat
      { putByte v s with cur := m.child b, phase := .decode }
  | decMove {o : Offer} {n : Node} {b : Bit} (hn : nodeGet s.node s.cur = some n) (hl : n.isLeaf = false)
      (ho : offerBit o = some b) (hc : n.child b ≠ nilIndex) :
    Completes s (.decStep o) { consumed := true, emitted := false, done := false } 0
      { s with cur := n.child b, phase := .decode }

/-- Which fault a command takes from `s` in a phase legal for it: the fault, the flag `emitted`, and the state before fault
entry, which is `s` but for a `DEC.STEP` that has emitted its byte (60_exceptions.md R241). -/
inductive TakesFault (s : State) : Instr → FaultKind → Bool → State → Prop where
  | badPair {sy : Symbol} {cnt : Nat} (h : cnt = 0 ∨ ftGet s.ft sy ≠ 0) :
    TakesFault s (.ftLoad sy cnt) .malformedHeader false s
  | lenFull {b : Byte} (hl : s.len = s.cfg.maxCnt - 1) : TakesFault s (.faByte b) .overflow false s
  | noTerminator (ht : ftGet s.ft .terminator = 0) : TakesFault s .tbBuild .malformedHeader false s
  | totalTooLarge (ht : ftGet s.ft .terminator ≠ 0) (hs : s.cfg.maxCnt < ftTotal s.ft) :
    TakesFault s .tbBuild .overflow false s
  | noByteCode {b : Byte} (hc : codeGet s.code (.byte b) = none) : TakesFault s (.encByte b) .missingCodeForSymbol false s
  | noTerminatorCode (hc : codeGet s.code .terminator = none) : TakesFault s .encEnd .missingCodeForSymbol false s
  | truncated {n : Node} (hn : nodeGet s.node s.cur = some n) (hl : n.isLeaf = false) :
    TakesFault s (.decStep .endMark) .truncatedStream false s
  | truncatedAfterByte {n : Node} {v : Byte} (hn : nodeGet s.node s.cur = some n) (hl : n.isLeaf = true)
      (hs : n.sym = .symbol (.byte v)) :
    TakesFault s (.decStep .endMark) .truncatedStream true { putByte v s with cur := s.root }

/-- How a command ends, with its response and the next state (60_exceptions.md R245). -/
inductive Ends (s : State) (i : Instr) : Response → State → Prop where
  | refused (hp : s.phase = .fault) (hr : runsInFault i = false) :
    Ends s i faultedResponse (respond faultedResponse s)
  | outOfPhase (hp : s.phase ≠ .fault) (hl : legalIn i s.phase = false) :
    Ends s i (faultResponse .illegalSequence (cmdWord i) false) (raiseFault .illegalSequence (cmdWord i) false s)
  | completes {fl : RspFlags} {d : Nat} {u : State} (hl : legalIn i s.phase = true) (h : Completes s i fl d u) :
    Ends s i (okResponse fl d) (respond (okResponse fl d) u)
  | faults {f : FaultKind} {em : Bool} {u : State} (hl : legalIn i s.phase = true) (h : TakesFault s i f em u) :
    Ends s i (faultResponse f (cmdWord i) em) (raiseFault f (cmdWord i) em u)

theorem Completes.responses {s u : State} {i : Instr} {fl : RspFlags} {d : Nat} (h : Completes s i fl d u) :
    u.responses = s.responses := by
  cases h <;> rfl

theorem TakesFault.responses {s u : State} {i : Instr} {f : FaultKind} {em : Bool} (h : TakesFault s i f em u) :
    u.responses = s.responses := by
  cases h <;> rfl

theorem Ends.responses {s t : State} {i : Instr} {r : Response} (h : Ends s i r t) : t.responses = s.responses ++ [r] := by
  cases h with
  | refused | outOfPhase => simp
  | completes hl h => simp [h.responses]
  | faults hl h => simp [h.responses]

/-- Consulting the offer of a `DEC.STEP` from the state `u`, in which the step has emitted a byte or nothing. -/
theorem consultOffer_next {o : Offer} {em : Bool} {d : Nat} {u t : State} (h : consultOffer o em d u = .next t) :
    (o = .endMark ∧ t = raiseFault .truncatedStream (cmdWord (.decStep o)) em u) ∨
    ∃ b n, offerBit o = some b ∧ nodeGet u.node u.cur = some n ∧ n.child b ≠ nilIndex ∧
      t = respond (okResponse { consumed := true, emitted := em, done := false } d)
        { u with cur := n.child b, phase := .decode } := by
  obtain ⟨rfl, e⟩ | ⟨b, n, ho, hn, hc, e⟩ | ⟨b, -, -, e⟩ | ⟨b, n, -, -, -, e⟩ := consultOffer_cases o em d u <;> rw [e] at h
  · exact .inl ⟨rfl, (Host.Outcome.next.inj h).symm⟩
  · exact .inr ⟨b, n, ho, hn, hc, (Host.Outcome.next.inj h).symm⟩
  · cases h
  · cases h

/-- A command in a phase legal for it completes or takes a fault. -/
theorem bodyOf_ends {i : Instr} {s t : State} (hl : legalIn i s.phase = true) (h : bodyOf i s = .next t) :
    ∃ r, Ends s i r t := by
  have ok : ∀ {fl d u}, Completes s i fl d u → bodyOf i s = complete fl d u → ∃ r, Ends s i r t := fun hc e =>
    ⟨_, Host.Outcome.next.inj (e.symm.trans h) ▸ Ends.completes hl hc⟩
  have bad : ∀ {f em u}, TakesFault s i f em u → bodyOf i s = .next (raiseFault f (cmdWord i) em u) → ∃ r, Ends s i r t :=
    fun hf e => ⟨_, Host.Outcome.next.inj (e.symm.trans h) ▸ Ends.faults hl hf⟩
  have stop : ∀ {e}, bodyOf i s = .fault e → ∃ r, Ends s i r t := fun e => nomatch e.symm.trans h
  cases i with
  | nop => exact ok .nop rfl
  | clr => exact ok .clr rfl
  | stRead r =>
    obtain ⟨v, hv, e⟩ | ⟨_, _, e⟩ := stReadBody_cases r s
    · exact ok (.stRead hv) e
    · exact stop e
  | ftRead sy => exact ok .ftRead rfl
  | ftLoad sy cnt =>
    obtain ⟨hb, e⟩ | ⟨hc, ha, e⟩ := ftLoadBody_cases sy cnt s
    · exact bad (.badPair hb) e
    · exact ok (.ftLoad hc ha) e
  | faByte b =>
    obtain ⟨hf, e⟩ | ⟨hf, e⟩ := faByteBody_cases b s
    · exact bad (.lenFull hf) e
    · exact ok (.faByte hf) e
  | faEnd => exact ok .faEnd rfl
  | tbBuild =>
    obtain ⟨ht, e⟩ | ⟨ht, hs, e⟩ | ⟨ht, hs, e⟩ := tbBuildBody_cases s
    · exact bad (.noTerminator ht) e
    · exact bad (.totalTooLarge ht hs) e
    · exact ok (.tbBuild ht hs) e
  | cmGen =>
    obtain ⟨cm, hm, e⟩ | ⟨_, _, e⟩ := cmGenBody_cases s
    · exact ok (.cmGen hm) e
    · exact stop e
  | encByte b =>
    obtain ⟨hc, e⟩ | ⟨c, hc, e⟩ := emitCode_cases (.encByte b) (.byte b) .encode RspFlags.zero s
    · exact bad (.noByteCode hc) e
    · exact ok (.encByte hc) e
  | encEnd =>
    obtain ⟨hc, e⟩ | ⟨c, hc, e⟩ :=
      emitCode_cases .encEnd .terminator .done { consumed := false, emitted := false, done := true } s
    · exact bad (.noTerminatorCode hc) e
    · exact ok (.encEnd hc) e
  | decStep o =>
    obtain ⟨_, e⟩ | ⟨n, hn, ⟨hl', hs, e⟩ | ⟨v, hl', hs, e⟩ | ⟨_, _, e⟩ | ⟨hl', e⟩⟩ := decStepBody_cases o s
    · exact stop e
    · exact ok (.decDone hn hl' hs) e
    · obtain ⟨rfl, rfl⟩ | ⟨b, m, ho, hm, hc, rfl⟩ := consultOffer_next (e.symm.trans h)
      · exact ⟨_, .faults hl (.truncatedAfterByte hn hl' hs)⟩
      · exact ⟨_, .completes hl (.decEmit hn hl' hs ho hm hc)⟩
    · exact stop e
    · obtain ⟨rfl, rfl⟩ | ⟨b, m, ho, hm, hc, rfl⟩ := consultOffer_next (e.symm.trans h)
      · exact ⟨_, .faults hl (.truncated hn hl')⟩
      · obtain rfl : n = m := Option.some.inj (hn.symm.trans hm)
        exact ⟨_, .completes hl (.decMove hn hl' ho hc)⟩

/-- A command that answers a next state ends in one of the ways of `Ends`. -/
theorem exec_ends {i : Instr} {s t : State} (h : exec i s = .next t) : ∃ r, Ends s i r t := by
  obtain ⟨hp, hr, e⟩ | ⟨hp, hl, e⟩ | ⟨hl, e⟩ := exec_cases i s <;> rw [e] at h
  · obtain rfl := Host.Outcome.next.inj h
    exact ⟨_, .refused hp hr⟩
  · obtain rfl := Host.Outcome.next.inj h
    exact ⟨_, .outOfPhase hp hl⟩
  · exact bodyOf_ends hl h

/-- The response added is the one the command ended with. -/
theorem exec_ends_with {i : Instr} {s t : State} {r : Response} (h : exec i s = .next t)
    (hr : t.responses = s.responses ++ [r]) : Ends s i r t := by
  obtain ⟨r', he⟩ := exec_ends h
  obtain rfl : r' = r := by simpa [he.responses] using hr
  exact he

/-- How a step ends that takes a command word: as the command the word decodes to, or as an illegal word (60_exceptions.md
R236, R242). -/
inductive StepEnds (s : State) (w : CmdWord) (d : Nat) : Response → State → Prop where
  | legal {i : Instr} {r : Response} {t : State} (hd : decode w (portData s.cfg d) = .ok i) (h : Ends (takeInput s) i r t) :
    StepEnds s w d r t
  | illegalRefused {e : Illegal} (hd : decode w (portData s.cfg d) = .error e) (hp : s.phase = .fault) :
    StepEnds s w d faultedResponse (respond faultedResponse (takeInput s))
  | illegal {e : Illegal} (hd : decode w (portData s.cfg d) = .error e) (hp : s.phase ≠ .fault) :
    StepEnds s w d (faultResponse .illegalCommand w false) (raiseFault .illegalCommand w false (takeInput s))

theorem StepEnds.responses {s t : State} {w : CmdWord} {d : Nat} {r : Response} (h : StepEnds s w d r t) :
    t.responses = s.responses ++ [r] := by
  cases h with
  | legal hd h => exact h.responses
  | illegalRefused | illegal => simp

theorem step_ends {s t : State} {w : CmdWord} {d : Nat} {rest : List HostInput} (hi : s.inputs = .command w d :: rest)
    (h : step s = .next t) : ∃ r, StepEnds s w d r t := by
  cases hd : decode w (portData s.cfg d) with
  | ok i =>
    rw [step_command hi hd] at h
    obtain ⟨r, he⟩ := exec_ends h
    exact ⟨r, .legal hd he⟩
  | error e =>
    rw [step_illegal hi hd] at h
    obtain rfl := Host.Outcome.next.inj h
    obtain ⟨hp, e⟩ | ⟨hp, e⟩ := illegalWord_cases w (takeInput s) <;> rw [e]
    · exact ⟨_, .illegalRefused hd hp⟩
    · exact ⟨_, .illegal hd hp⟩

theorem step_ends_with {s t : State} {w : CmdWord} {d : Nat} {rest : List HostInput} {r : Response}
    (hi : s.inputs = .command w d :: rest) (h : step s = .next t) (hr : t.responses = s.responses ++ [r]) :
    StepEnds s w d r t := by
  obtain ⟨r', he⟩ := step_ends hi h
  obtain rfl : r' = r := by simpa [he.responses] using hr
  exact he

end Sys2Proof.Machine
end

section
/-! PROOF. Phases, the sticky record, the traces and the status registers (10_state.md R25, R32, R40, R50, R55). -/

namespace Sys2Proof.Machine

/-! ### Answers, fault entry and refusal of the shared operations -/

theorem answers_respond (r : Response) {s u : State} (h : u.responses = s.responses) :
    Answers s (respond r u) r.status.code r.flags.bits r.rdata :=
  ⟨r, by simp [h], rfl, rfl, rfl⟩

theorem zero_bits : RspFlags.zero.bits = 0#3 := by decide

/-- Completion without a flag (30_encoding.md R95). -/
theorem answers_ok (d : Nat) {s u : State} (h : u.responses = s.responses) :
    Answers s (respond (okResponse RspFlags.zero d) u) 0#4 0#3 d :=
  ⟨okResponse RspFlags.zero d, by simp [h], rfl, zero_bits, rfl⟩

/-- The flags of a fault response: `emitted` alone, where a byte was appended (60_exceptions.md R240). -/
theorem faultResponse_flags (em : Bool) :
    RspFlags.bits { consumed := false, emitted := em, done := false } = if em then 2#3 else 0#3 := by
  cases em <;> decide

/-- `raiseFault` is fault entry (60_exceptions.md R240). -/
theorem faultEntry_raiseFault (f : FaultKind) (w : CmdWord) (em : Bool) (s : State) :
    FaultEntry s (raiseFault f w em s) f.code w em :=
  ⟨⟨faultResponse f w em, rfl, rfl, faultResponse_flags em, rfl⟩, rfl⟩

theorem refusedInFault_respond (s : State) : RefusedInFault s (respond faultedResponse s) :=
  ⟨answers_respond faultedResponse rfl, rfl⟩

/-! ### Phases -/

/-- The phase table as the spec prints it and as the common checks use it, compared entry by entry (10_state.md R32). -/
theorem mem_tableLegal (i : Instr) (p : Phase) : p ∈ tableLegal i ↔ legalIn i p = true := by
  cases i <;> cases p <;> simp [tableLegal, legalIn]

/-- A command that completes leaves the phase the table gives (10_state.md R32). -/
theorem Completes.phase {s u : State} {i : Instr} {fl : RspFlags} {d : Nat} (h : Completes s i fl d u) :
    u.phase = tableNext i s.phase (atTerminator s) := by
  cases h with
  | decDone hn hl hs => simp [tableNext, atTerminator, hn, hl, hs]
  | decEmit hn hl hs => simp [tableNext, atTerminator, hn, hs]
  | decMove hn hl => simp [tableNext, atTerminator, hn, hl]
  | _ => rfl

/-- No command takes IllegalSequence in a phase legal for it. -/
theorem TakesFault.ne_illegalSequence {s u : State} {i : Instr} {f : FaultKind} {em : Bool} (h : TakesFault s i f em u) :
    f ≠ .illegalSequence := by
  cases h <;> decide

/-- Out of its phases a command takes IllegalSequence, in PHASE FAULT it is refused (60_exceptions.md R237, R242). -/
theorem exec_not_legal {i : Instr} {s : State} (h : legalIn i s.phase = false) :
    (s.phase ≠ .fault ∧ exec i s = .next (raiseFault .illegalSequence (cmdWord i) false s)) ∨
    (s.phase = .fault ∧ exec i s = .next (respond faultedResponse s)) := by
  obtain ⟨hp, -, e⟩ | ⟨hp, -, e⟩ | ⟨hl, -⟩ := exec_cases i s
  · exact .inr ⟨hp, e⟩
  · exact .inl ⟨hp, e⟩
  · simp [h] at hl

theorem not_mem_tableLegal {i : Instr} {p : Phase} (h : p ∉ tableLegal i) : legalIn i p = false :=
  Bool.eq_false_iff.2 (mt (mem_tableLegal i p).2 h)

/-- In IDLE the table is empty, so `TB.BUILD` finds no terminator (10_state.md R32). -/
theorem Inv.tbBuild_idle {s : State} (h : Inv s) (hp : s.phase = .idle) :
    exec .tbBuild s = .next (raiseFault .malformedHeader 0x7000#16 false s) := by
  have empty := h.table
  simp only [TableOk, hp] at empty
  have absent : ftGet s.ft .terminator = 0 := by rw [empty.1, ftGet_empty]
  rw [exec_legal (by rw [hp]; rfl)]
  exact if_pos absent

/-- Settles O11: by how a command ends (`Ends`), with the phase each completion leaves. -/
theorem commandsFollowThePhaseTable : Obligations.CommandsFollowThePhaseTable := by
  refine ⟨fun i s hl hp => ?_, fun i s hl hp => ?_, fun i s t r hl he hr => ?_, fun i s t r he hr hok => ?_, fun s inv hp => ?_⟩
  · obtain ⟨-, e⟩ | ⟨hf, -⟩ := exec_not_legal (not_mem_tableLegal hl)
    · exact ⟨_, e, faultEntry_raiseFault ..⟩
    · exact absurd hf hp
  · obtain ⟨hf, -⟩ | ⟨-, e⟩ := exec_not_legal (not_mem_tableLegal hl)
    · exact absurd hp hf
    · exact ⟨_, e, refusedInFault_respond s⟩
  · rw [mem_tableLegal] at hl
    cases exec_ends_with he hr with
    | refused hp hn => simp [hp, legalIn_fault, hn] at hl
    | outOfPhase hp hn => simp [hn] at hl
    | completes _ h => simp [okResponse]
    | faults _ h => simp [faultResponse, h.ne_illegalSequence]
  · cases exec_ends_with he hr with
    | refused => cases hok
    | outOfPhase => cases hok
    | completes hl h => exact ⟨(mem_tableLegal i s.phase).2 hl, h.phase⟩
    | faults => cases hok
  · exact ⟨_, inv.tbBuild_idle hp, faultEntry_raiseFault ..⟩

/-! ### The sticky record -/

/-- FSTICKY after a response: the bit of the fault taken is set (60_exceptions.md R240). -/
def stickyAfter (sticky : BitVec 8) : Status → BitVec 8
  | .ok => sticky
  | .faultTaken f => stickySet sticky f
  | .faulted => sticky

theorem Completes.fsticky {s u : State} {i : Instr} {fl : RspFlags} {d : Nat} (h : Completes s i fl d u) :
    u.fsticky = s.fsticky := by
  cases h <;> rfl

theorem TakesFault.fsticky {s u : State} {i : Instr} {f : FaultKind} {em : Bool} (h : TakesFault s i f em u) :
    u.fsticky = s.fsticky := by
  cases h <;> rfl

theorem Ends.fsticky {s t : State} {i : Instr} {r : Response} (h : Ends s i r t) :
    t.fsticky = stickyAfter s.fsticky r.status := by
  cases h with
  | refused | outOfPhase => rfl
  | completes hl h => exact h.fsticky
  | faults hl h => exact congrArg (stickySet · _) h.fsticky

theorem StepEnds.fsticky {s t : State} {w : CmdWord} {d : Nat} {r : Response} (h : StepEnds s w d r t) :
    t.fsticky = stickyAfter s.fsticky r.status := by
  cases h with
  | legal hd h => exact h.fsticky
  | illegalRefused | illegal => rfl

/-- No fault has code 0 or 7 (60_exceptions.md R230), so bits 0 and 7 are never set. -/
theorem stickyAfter_unused (sticky : BitVec 8) (st : Status) :
    (stickyAfter sticky st).getLsbD 0 = sticky.getLsbD 0 ∧ (stickyAfter sticky st).getLsbD 7 = sticky.getLsbD 7 := by
  cases st with
  | ok | faulted => exact ⟨rfl, rfl⟩
  | faultTaken f => cases f <;> simp [stickyAfter, stickySet, FaultKind.code]

/-- `ST.READ` of a register that can be read completes in every phase and changes nothing (45_system.md R202). -/
theorem readsAs_of_readReg {s : State} {r : StReg} {v : Nat} (h : readReg r s = .ok v) : ReadsAs s r v := by
  refine ⟨respond (okResponse RspFlags.zero v) s, ?_, answers_ok v rfl, rfl⟩
  rw [exec_legal rfl]
  simp [bodyOf, stReadBody, h, complete]

/-- Settles O14: FSTICKY after a step is `stickyAfter` of the response given. -/
theorem stickyRegisterRecordsEveryFault : Obligations.StickyRegisterRecordsEveryFault := by
  refine ⟨fun s t w d rest r hi hs hr => ?_, fun s rest hi => ⟨_, step_reset hi, rfl⟩, fun s t hs h0 h7 => ?_,
    fun s => ⟨rfl, readsAs_of_readReg rfl⟩⟩
  · have sticky := (step_ends_with hi hs hr).fsticky
    refine ⟨fun f hf => by rw [sticky, hf]; rfl, fun hn => ?_⟩
    cases hst : r.status with
    | ok | faulted => rw [sticky, hst]; rfl
    | faultTaken f => exact absurd hst (hn f)
  · obtain ⟨-, e⟩ | ⟨rest, -, e⟩ | ⟨w, d, rest, -, hi, -⟩ | ⟨w, d, rest, -, hi, -⟩ := step_cases s
    · obtain rfl := Host.Outcome.next.inj (e.symm.trans hs)
      exact ⟨h0, h7⟩
    · obtain rfl := Host.Outcome.next.inj (e.symm.trans hs)
      simp [State.reset]
    all_goals
      obtain ⟨r, he⟩ := step_ends hi hs
      have unused := stickyAfter_unused s.fsticky r.status
      rw [he.fsticky, unused.1, unused.2]
      exact ⟨h0, h7⟩

/-! ### The traces -/

/-- The operand decoder gives a command of its opcode (30_encoding.md R90). -/
theorem opcode_of_decodeOperand {op : Opcode} {arg : BitVec 10} {d : Nat} {i : Instr}
    (h : decodeOperand op arg d = .ok i) : i.opcode = op := by
  have of_map : ∀ {α : Type} {o : Option α} {k : α → Instr}, operandOr (o.map k) = .ok i → ∃ x, i = k x := by
    intro α o k h
    cases o with
    | none => cases h
    | some x => exact ⟨x, (Except.ok.inj h).symm⟩
  cases op with
  | stRead | ftRead | ftLoad | decStep =>
    obtain ⟨x, rfl⟩ := of_map h
    rfl
  | _ =>
    obtain rfl := Except.ok.inj h
    rfl

theorem num_of_ofNum {n : BitVec 4} {op : Opcode} (h : Opcode.ofNum n = some op) : n = op.num := by
  revert n
  cases op <;> decide

/-- The opcode field of a legal word is its command's opcode (30_encoding.md R90). -/
theorem opField_of_decode {w : CmdWord} {d : Nat} {i : Instr} (h : decode w d = .ok i) : opField w = i.opcode.num := by
  unfold decode at h
  split at h
  · cases h
  · next op hop =>
    split at h
    · rw [opcode_of_decodeOperand h]
      exact num_of_ofNum hop
    · cases h

/-- What a command appends to the traces: bits only an `ENC`, a byte only a `DEC.STEP` (10_state.md R50). -/
def TracesGrow (op : BitVec 4) (s t : State) : Prop :=
  (∃ p : BitString, t.bitout = s.bitout ++ p ∧ (p ≠ [] → op = 0x9#4 ∨ op = 0xA#4)) ∧
    ∃ q : List Byte, t.byteout = s.byteout ++ q ∧ (q ≠ [] → op = 0xB#4 ∧ q.length = 1)

theorem tracesGrow_of_eq {op : BitVec 4} {s t : State} (hb : t.bitout = s.bitout) (hy : t.byteout = s.byteout) :
    TracesGrow op s t :=
  ⟨⟨[], by simp [hb], fun h => absurd rfl h⟩, [], by simp [hy], fun h => absurd rfl h⟩

theorem Completes.tracesGrow {s u : State} {i : Instr} {fl : RspFlags} {d : Nat} (h : Completes s i fl d u) :
    TracesGrow i.opcode.num s u := by
  cases h with
  | encByte => exact ⟨⟨_, rfl, fun _ => .inl rfl⟩, [], by simp, fun h => absurd rfl h⟩
  | encEnd => exact ⟨⟨_, rfl, fun _ => .inr rfl⟩, [], by simp, fun h => absurd rfl h⟩
  | decEmit => exact ⟨⟨[], by simp, fun h => absurd rfl h⟩, [_], rfl, fun _ => ⟨rfl, rfl⟩⟩
  | _ => exact tracesGrow_of_eq rfl rfl

theorem TakesFault.tracesGrow {s u : State} {i : Instr} {f : FaultKind} {em : Bool} (h : TakesFault s i f em u) :
    TracesGrow i.opcode.num s u := by
  cases h with
  | truncatedAfterByte => exact ⟨⟨[], by simp, fun h => absurd rfl h⟩, [_], rfl, fun _ => ⟨rfl, rfl⟩⟩
  | _ => exact tracesGrow_of_eq rfl rfl

theorem StepEnds.tracesGrow {s t : State} {w : CmdWord} {d : Nat} {r : Response} (h : StepEnds s w d r t) :
    TracesGrow (opField w) s t := by
  cases h with
  | illegalRefused | illegal => exact tracesGrow_of_eq rfl rfl
  | legal hd h =>
    rw [opField_of_decode hd]
    cases h with
    | refused | outOfPhase => exact tracesGrow_of_eq rfl rfl
    | completes _ h => exact h.tracesGrow
    | faults _ h => exact h.tracesGrow

/-- Settles O18: by how a step ends, with what each completion and each fault appends. -/
theorem tracesOnlyGrow : Obligations.TracesOnlyGrow := by
  refine ⟨fun s t w d rest hi hs => ?_, fun s rest hi => ⟨_, step_reset hi, rfl, rfl⟩⟩
  obtain ⟨r, he⟩ := step_ends hi hs
  exact he.tracesGrow

/-! ### The status registers -/

theorem readReg_eq {s : State} {r : StReg} (h : RootReadable s ∨ r ≠ .rootw) : readReg r s = .ok (registerValue s r) := by
  cases r with
  | rootw =>
    show rootWeight s = .ok (rootwValue s)
    unfold rootWeight rootwValue
    by_cases hr : s.root = nilIndex
    · rw [if_pos hr, if_pos hr]
    · obtain ⟨n, hn⟩ := Option.isSome_iff_exists.1 ((h.resolve_right (absurd rfl)).resolve_left hr)
      simp [hr, hn]
  | _ => rfl

/-- Which commands write a status register (10_state.md R40, the column of writers). -/
structure RegistersWritten (i : Instr) (s t : State) : Prop where
  fault : t.fcode ≠ s.fcode ∨ t.finfo ≠ s.finfo → t.phase = .fault ∨ i = .clr
  sticky : t.fsticky ≠ s.fsticky → t.phase = .fault
  len : t.len ≠ s.len → (∃ b, i = .faByte b) ∨ i = .clr
  tree : t.nleaf ≠ s.nleaf ∨ t.nnode ≠ s.nnode ∨ t.root ≠ s.root → i = .tbBuild ∨ i = .clr
  cur : t.cur ≠ s.cur → i = .tbBuild ∨ (∃ o, i = .decStep o) ∨ i = .clr

theorem Ends.registersWritten {s t : State} {i : Instr} {r : Response} (h : Ends s i r t) : RegistersWritten i s t := by
  cases h with
  | refused | outOfPhase => constructor <;> simp
  | completes _ h => cases h <;> constructor <;> simp
  | faults _ h => cases h <;> constructor <;> simp

/-- The number a word is, from its fields (30_encoding.md R80). -/
theorem mkWord_toNat (op : BitVec 4) (arg : BitVec 10) : (mkWord op arg).toNat = op.toNat * 4096 + arg.toNat := by
  have hop := op.isLt
  have harg := arg.isLt
  have shifted : op.toNat <<< 12 = op.toNat * 4096 := Nat.shiftLeft_eq ..
  rw [mkWord, BitVec.toNat_or, BitVec.toNat_shiftLeft, BitVec.toNat_setWidth, BitVec.toNat_setWidth,
    Nat.mod_eq_of_lt (a := op.toNat) (by omega), Nat.mod_eq_of_lt (a := arg.toNat) (by omega), Nat.mod_eq_of_lt (by omega),
    ← Nat.shiftLeft_add_eq_or_of_lt (by omega), shifted]

/-- The word of `ST.READ n`, by its fields (30_encoding.md R80, R81). -/
theorem stRead_word {n : Nat} (h : n ≤ 1023) : 0x2000#16 + BitVec.ofNat 16 n = mkWord 0x2#4 (BitVec.ofNat 10 n) := by
  refine BitVec.eq_of_toNat_eq ?_
  rw [mkWord_toNat]
  simp
  omega

/-- The register numbers from 10 up are reserved (30_encoding.md R93). -/
theorem decode_reserved_register {n : Nat} (lo : 10 ≤ n) (hi : n ≤ 1023) (d : Nat) :
    ∃ e, decode (0x2000#16 + BitVec.ofNat 16 n) d = .error e := by
  obtain ⟨hop, hz, harg⟩ := Laws.Layout.fields_mkWord 0x2#4 (BitVec.ofNat 10 n)
  have reserved : StReg.ofNum n = none := by
    obtain ⟨k, rfl⟩ := Nat.exists_eq_add_of_le' lo
    rfl
  rw [stRead_word hi, decode, hop, hz, harg]
  simp only [show Opcode.ofNum 0x2#4 = some .stRead from rfl]
  split
  · simp [decodeOperand, Nat.mod_eq_of_lt (show n < 1024 by omega), reserved, operandOr]
  · exact ⟨_, rfl⟩

/-- Settles O19: reads by `readReg_eq`, writers by how a command ends, reserved numbers by the decoder. -/
theorem statusRegistersRead : Obligations.StatusRegistersRead := by
  refine ⟨fun s r h => readsAs_of_readReg (readReg_eq h), fun r => by cases r <;> rfl, fun r => ?_, fun i s t he => ?_,
    fun s n d rest lo hi hin hp => ?_⟩
  · have v : registerValue State.reset r = if r = .root ∨ r = .cur then 0x3FF else 0 := by cases r <;> rfl
    rw [← v]
    exact readsAs_of_readReg (readReg_eq (.inl (.inl rfl)))
  · obtain ⟨r, h⟩ := exec_ends he
    obtain ⟨fault, sticky, len, tree, cur⟩ := h.registersWritten
    exact ⟨fault, sticky, len, tree, cur⟩
  · obtain ⟨e, hd⟩ := decode_reserved_register lo hi (portData s.cfg d)
    refine ⟨_, step_illegal hin hd, ?_⟩
    obtain ⟨hf, -⟩ | ⟨-, e⟩ := illegalWord_cases (0x2000#16 + BitVec.ofNat 16 n) (takeInput s)
    · exact absurd hf hp
    · rw [e, show ({ s with inputs := rest } : State) = takeInput s by simp [takeInput, hin]]
      exact faultEntry_raiseFault ..

/-! ### Reset and CLR -/

/-- The session registers and the arrays after `CLR` (10_state.md R55). -/
theorem sessionCleared_clearSession (s : State) : SessionCleared (clearSession s) :=
  ⟨rfl, rfl, rfl, rfl, rfl, rfl, rfl, rfl, ftGet_empty, nodeGet_empty, codeGet_empty⟩

/-- Settles O1: what reset leaves, and what `CLR` leaves, is a cleared session. -/
theorem resetAndClrLeaveTheResetValues : Obligations.ResetAndClrLeaveTheResetValues :=
  ⟨fun s _ hi => ⟨_, step_reset hi, sessionCleared_clearSession (applyReset (takeInput s)), rfl, rfl, rfl⟩,
    ⟨sessionCleared_clearSession State.reset, rfl, rfl, rfl⟩,
    fun s => ⟨_, exec_legal rfl, sessionCleared_clearSession (respond (okResponse RspFlags.zero 0) s), rfl, rfl, rfl⟩⟩

end Sys2Proof.Machine
end

section
/-! PROOF. Issued commands run (30_encoding.md R94), the first pass counts (40_frequency_analyzer.md R121 to R125), and the view ROOTW
(10_state.md R41). -/

namespace Sys2Proof.Machine

/-! ### Issuing a command runs it -/

/-- Every command's word has the layout of 30_encoding.md R80. -/
theorem cmdWord_layout (i : Instr) : Laws.Layout.Statement i := by
  cases i with
  | nop => exact Laws.Layout.nop
  | clr => exact Laws.Layout.clr
  | stRead r => exact Laws.Layout.stRead r
  | ftRead sy => exact Laws.Layout.ftRead sy
  | ftLoad sy cnt => exact Laws.Layout.ftLoad sy cnt
  | faByte b => exact Laws.Layout.faByte b
  | faEnd => exact Laws.Layout.faEnd
  | tbBuild => exact Laws.Layout.tbBuild
  | cmGen => exact Laws.Layout.cmGen
  | encByte b => exact Laws.Layout.encByte b
  | encEnd => exact Laws.Layout.encEnd
  | decStep o => exact Laws.Layout.decStep o

@[simp] theorem ofNum_num (op : Opcode) : Opcode.ofNum op.num = some op := by
  cases op <;> rfl

/-- The word of a command decodes by its opcode and its operand field (30_encoding.md R90 to R93). -/
theorem decode_cmdWord (i : Instr) (d : Nat) : decode (cmdWord i) d = decodeOperand i.opcode i.arg d := by
  obtain ⟨hop, hz, harg, clean⟩ := cmdWord_layout i
  simp [decode, hop, hz, harg, clean]

/-- The operand field of a command gives the command back, with the write data presented (30_encoding.md R81). -/
theorem decodeOperand_arg {i : Instr} {d : Nat} (h : ∀ sy cnt, i = .ftLoad sy cnt → cnt = d) :
    decodeOperand i.opcode i.arg d = .ok i := by
  have symbol : ∀ sy : Symbol, Symbol.ofIdx (sy.idx % 1024) = some sy := fun sy => by
    rw [Nat.mod_eq_of_lt ((symbol_idx_lt sy).trans (by decide)), symbol_ofIdx_idx]
  have byte : ∀ b : Byte, (b.setWidth 10).extractLsb' 0 8 = b := fun b => by
    ext k hk
    simp [hk, show k < 10 by omega]
  cases i with
  | stRead r => cases r <;> rfl
  | decStep o => cases o <;> rfl
  | ftRead sy => simp [decodeOperand, Instr.opcode, Instr.arg, symbol, operandOr]
  | ftLoad sy cnt => simp [decodeOperand, Instr.opcode, Instr.arg, symbol, operandOr, h sy cnt rfl]
  | faByte b => simp [decodeOperand, Instr.opcode, Instr.arg, byte]
  | encByte b => simp [decodeOperand, Instr.opcode, Instr.arg, byte]
  | _ => rfl

/-- A command the host can present crosses the port and runs (30_encoding.md R80, R94). -/
theorem issue_eq_exec {i : Instr} {s : State} (h : WellFormed s.cfg i = true) : issue i s = exec i s := by
  refine issue_of_decode ?_
  rw [decode_cmdWord]
  refine decodeOperand_arg fun sy cnt e => ?_
  subst e
  exact (Nat.mod_eq_of_lt (of_decide_eq_true h)).symm

/-! ### Completions -/

theorem Completes.exec {s u : State} {i : Instr} {fl : RspFlags} {d : Nat} (hl : legalIn i s.phase = true)
    (h : Completes s i fl d u) : exec i s = .next (respond (okResponse fl d) u) := by
  rw [exec_legal hl]
  cases h with
  | stRead hv => simp [bodyOf, stReadBody, hv, complete]
  | ftLoad hc ha => simp [bodyOf, ftLoadBody, hc, ha, complete]
  | faByte hf => simp [bodyOf, faByteBody, hf, complete]
  | tbBuild ht hs => simp [bodyOf, tbBuildBody, ht, hs, complete]
  | cmGen hm => simp [bodyOf, cmGenBody, hm, complete]
  | encByte hc => simp [bodyOf, encByteBody, emitCode, hc, complete]
  | encEnd hc => simp [bodyOf, encEndBody, emitCode, hc, complete]
  | decDone hn hl' hs => simp [bodyOf, decStepBody, hn, hl', hs, complete]
  | decEmit hn hl' hs ho hm hc => simp [bodyOf, decStepBody, hn, hl', hs, consultOffer, ho, hm, hc, complete]
  | decMove hn hl' ho hc => simp [bodyOf, decStepBody, hn, hl', consultOffer, ho, hc, complete]
  | _ => rfl

/-- A sequence goes on after a command that completes. -/
theorem Completes.issueAll_cons {s u : State} {i : Instr} {fl : RspFlags} {d : Nat} (h : Completes s i fl d u)
    (hw : WellFormed s.cfg i = true) (hl : legalIn i s.phase = true) (is : List Instr) :
    issueAll (i :: is) s = issueAll is (respond (okResponse fl d) u) := by
  have run : issueOk i s = .ok (okResponse fl d) (respond (okResponse fl d) u) :=
    issueOk_ok ((issue_eq_exec hw).trans (h.exec hl)) (lastResponse_respond ..) rfl
  rw [issueAll, run]
  rfl

/-- A sequence goes on after a part without a fault. -/
theorem issueAll_append_ok {is : List Instr} {s u : State} (h : issueAll is s = .ok () u) (js : List Instr) :
    issueAll (is ++ js) s = issueAll js u := by
  rw [issueAll_append, h]
  rfl

/-! ### The sums of the table -/

theorem ftTotal_eq (ft : FreqTable) : ftTotal ft = byteTotal ft + ftGet ft .terminator := by
  rw [ftTotal, allSymbols, List.map_append, List.map_map, List.sum_append, List.map_singleton, List.sum_singleton]
  rfl

theorem byteTotal_ftSet_terminator (ft : FreqTable) (v : Nat) : byteTotal (ftSet ft .terminator v) = byteTotal ft := by
  simp only [byteTotal, ftGet_ftSet_ne ft v (show Symbol.byte _ ≠ .terminator from Symbol.noConfusion)]

theorem byteTotal_empty : byteTotal emptyTable = 0 := by
  rw [byteTotal, List.sum_eq_zero]
  simp only [List.mem_map]
  rintro x ⟨n, -, rfl⟩
  exact ftGet_empty _

/-- One byte counted is one more in the sum of the byte entries (40_frequency_analyzer.md R121). -/
theorem byteTotal_count (ft : FreqTable) (b : Byte) :
    byteTotal (ftSet ft (.byte b) (ftGet ft (.byte b) + 1)) = byteTotal ft + 1 := by
  have entry : ∀ n ∈ List.range 256, ftGet (ftSet ft (.byte b) (ftGet ft (.byte b) + 1)) (.byte (BitVec.ofNat 8 n)) =
      ftGet ft (.byte (BitVec.ofNat 8 n)) + if n = b.toNat then 1 else 0 := fun n hn => by
    by_cases e : n = b.toNat
    · simp [e]
    · have ne : Symbol.byte (BitVec.ofNat 8 n) ≠ .byte b := fun h => e <| by
        rw [← Symbol.byte.inj h, BitVec.toNat_ofNat, Nat.mod_eq_of_lt (List.mem_range.1 hn)]
      rw [ftGet_ftSet_ne _ _ ne, if_neg e, Nat.add_zero]
  have once : ((List.range 256).map fun n => if n = b.toNat then 1 else 0).sum = 1 := by
    rw [List.sum_map_eq_nsmul_single b.toNat _ fun n ne _ => if_neg ne,
      List.count_eq_one_of_mem List.nodup_range (List.mem_range.2 b.isLt), one_nsmul, if_pos rfl]
  exact (congrArg List.sum (List.map_congr_left entry)).trans (List.sum_map_add.trans (by rw [once, byteTotal]))

/-! ### The first pass -/

/-- The table after the bytes given are counted (40_frequency_analyzer.md R125). -/
def countBytes : List Byte → FreqTable → FreqTable
  | [], ft => ft
  | b :: bs, ft => countBytes bs (ftSet ft (.byte b) (ftGet ft (.byte b) + 1))

theorem byteTotal_countBytes (bs : List Byte) (ft : FreqTable) : byteTotal (countBytes bs ft) = byteTotal ft + bs.length := by
  induction bs generalizing ft with
  | nil => exact (Nat.add_zero _).symm
  | cons b bs ih =>
    rw [countBytes, ih, byteTotal_count, List.length_cons]
    omega

/-- `FA.BYTES` counts every byte and changes nothing else, while LEN stays below its bound (40_frequency_analyzer.md R121,
R122). -/
theorem issueAll_faBytes (bs : List Byte) {s : State} (hp : s.phase = .idle ∨ s.phase = .count)
    (hl : s.len + bs.length ≤ s.cfg.maxCnt - 1) :
    ∃ t, issueAll (faBytes bs) s = .ok () t ∧ (t.phase = .idle ∨ t.phase = .count) ∧
      t = { s with
        ft := countBytes bs s.ft, len := s.len + bs.length, phase := t.phase, responses := t.responses } := by
  induction bs generalizing s with
  | nil => exact ⟨s, rfl, hp, rfl⟩
  | cons b bs ih =>
    simp only [List.length_cons] at hl
    have counts := Completes.faByte (s := s) (b := b) (by omega)
    have legal : legalIn (.faByte b) s.phase = true := by
      rcases hp with e | e <;> rw [e] <;> rfl
    obtain ⟨t, run, phase, frame⟩ := ih (s := respond (okResponse RspFlags.zero 0)
      { s with ft := ftSet s.ft (.byte b) (ftGet s.ft (.byte b) + 1), len := s.len + 1, phase := .count }) (.inr rfl)
      (by simp only [respond_len, respond_cfg]; omega)
    refine ⟨t, (counts.issueAll_cons rfl legal _).trans run, phase, frame.trans ?_⟩
    simp [respond, countBytes, Nat.add_assoc, Nat.add_comm 1]

/-- The first pass ends in TABLE with the bytes counted and the terminator once (40_frequency_analyzer.md R125). -/
theorem issueAll_firstPass (bs : List Byte) {s : State} (hp : s.phase = .idle ∨ s.phase = .count)
    (hl : s.len + bs.length ≤ s.cfg.maxCnt - 1) :
    ∃ t, issueAll (firstPass bs) s = .ok () t ∧
      t = { s with
        ft := ftSet (countBytes bs s.ft) .terminator 1
        len := s.len + bs.length
        phase := .table
        responses := t.responses } := by
  obtain ⟨u, run, phase, frame⟩ := issueAll_faBytes bs hp hl
  have legal : legalIn .faEnd u.phase = true := by
    rcases phase with e | e <;> rw [e] <;> rfl
  have ends := (Completes.faEnd (s := u)).issueAll_cons rfl legal []
  exact ⟨_, (issueAll_append_ok run _).trans ends, by rw [frame]; rfl⟩

/-- Counting N bytes in a fresh session makes a table whose sum is N + 1 (40_frequency_analyzer.md R125). -/
theorem ftTotal_firstPass (bs : List Byte) : ftTotal (ftSet (countBytes bs emptyTable) .terminator 1) = bs.length + 1 := by
  rw [ftTotal_eq, byteTotal_ftSet_terminator, byteTotal_countBytes, byteTotal_empty, ftGet_ftSet_same, Nat.zero_add]

/-! ### ROOTW -/

theorem readsAs_rootw {s : State} {n : Node} {v : Nat} (hn : nodeGet s.node s.root = some n) (hv : n.weight = v) :
    ReadsAs s .rootw v :=
  readsAs_of_readReg (by simp [readReg, rootWeight, ne_nil_of_nodeGet hn, hn, hv])

theorem Config.one_le_maxCnt {c : Config} (h : c.legal = true) : 1 ≤ c.maxCnt := by
  have wide : 16 ≤ c.cntW := of_decide_eq_true h
  have := Nat.one_lt_two_pow (n := c.cntW) (by omega)
  unfold Config.maxCnt
  omega

/-- Settles O20: the session counts to a sum of N + 1, and the root built weighs the sum. -/
theorem rootwIsTheRootsWeight : Obligations.RootwIsTheRootsWeight := by
  refine ⟨fun s hr => readsAs_of_readReg (by simp [readReg, rootWeight, hr]), fun s n _ hn => readsAs_rootw hn rfl,
    fun bs s ⟨inv, idle⟩ hb => ?_⟩
  have fresh := inv.table
  simp only [TableOk, idle] at fresh
  obtain ⟨empty, zero⟩ := fresh
  obtain ⟨u, run, frame⟩ := issueAll_firstPass bs (.inl idle) (by rwa [zero, Nat.zero_add])
  have total : ftTotal u.ft = bs.length + 1 := by rw [frame, empty, ftTotal_firstPass]
  have terminator : ftGet u.ft .terminator ≠ 0 := by
    rw [frame, ftGet_ftSet_same]
    decide
  have len : u.len = bs.length := by rw [frame, zero, Nat.zero_add]
  have fits : ftTotal u.ft ≤ u.cfg.maxCnt := by
    have := Config.one_le_maxCnt inv.cntW
    rw [total, show u.cfg = s.cfg by rw [frame]]
    omega
  obtain ⟨n, hn, hw⟩ := builtRoot_weighs u.node terminator
  have builds := (Completes.tbBuild terminator fits).issueAll_cons rfl (by rw [frame]; rfl) []
  exact ⟨_, (issueAll_append_ok run _).trans builds, len,
    readsAs_rootw hn (hw.trans (total.trans (congrArg (· + 1) len.symm)))⟩

end Sys2Proof.Machine
end

section
/-! PROOF. The decoder read backwards: a word that decodes is the word of its command, and that word breaks none of the rules R91 to
R93 of 30_encoding.md. -/

namespace Sys2Proof.Machine

/-! ### Operand fields -/

theorem StReg.num_of_ofNum {n : Nat} {r : StReg} (h : StReg.ofNum n = some r) : r.num = n := by
  unfold StReg.ofNum at h
  split at h <;> cases h <;> rfl

theorem Offer.num_of_ofNum {n : Nat} {o : Offer} (h : Offer.ofNum n = some o) : o.num = n := by
  unfold Offer.ofNum at h
  split at h <;> cases h <;> rfl

theorem Symbol.idx_of_ofIdx {n : Nat} {sy : Symbol} (h : Symbol.ofIdx n = some sy) : sy.idx = n := by
  unfold Symbol.ofIdx at h
  split at h
  · next lt =>
    obtain rfl := Option.some.inj h
    exact Nat.mod_eq_of_lt lt
  · split at h
    · next eq =>
      obtain rfl := Option.some.inj h
      exact eq.symm
    · cases h

theorem operandOr_map_ok {α : Type} {o : Option α} {k : α → Instr} {i : Instr} (h : operandOr (o.map k) = .ok i) :
    ∃ x, o = some x ∧ k x = i := by
  cases o with
  | none => cases h
  | some x => exact ⟨x, rfl, Except.ok.inj h⟩

/-- A byte operand fills its field (30_encoding.md R81 format B). -/
theorem setWidth_low_byte {arg : BitVec 10} (h : arg.toNat < 2 ^ 8) : (arg.extractLsb' 0 8).setWidth 10 = arg := by
  refine BitVec.eq_of_toNat_eq ?_
  simp only [BitVec.toNat_setWidth, BitVec.extractLsb'_toNat, Nat.shiftRight_zero]
  omega

/-- A command decoded from a clean operand field has that field (30_encoding.md R81). -/
theorem arg_of_decodeOperand {op : Opcode} {arg : BitVec 10} {d : Nat} {i : Instr} (h : decodeOperand op arg d = .ok i)
    (clean : op.format.argClean arg = true) : i.arg = arg := by
  have low := of_decide_eq_true clean
  have number : ∀ {n : Nat}, n = arg.toNat → BitVec.ofNat 10 n = arg := fun e => by
    rw [e, BitVec.ofNat_toNat, BitVec.setWidth_eq]
  cases op with
  | stRead =>
    obtain ⟨r, hr, rfl⟩ := operandOr_map_ok h
    exact number (StReg.num_of_ofNum hr)
  | ftRead | ftLoad =>
    obtain ⟨sy, hs, rfl⟩ := operandOr_map_ok h
    exact number (Symbol.idx_of_ofIdx hs)
  | decStep =>
    obtain ⟨o, ho, rfl⟩ := operandOr_map_ok h
    exact number (Offer.num_of_ofNum ho)
  | faByte | encByte =>
    obtain rfl := Except.ok.inj h
    exact setWidth_low_byte low
  | _ =>
    obtain rfl := Except.ok.inj h
    exact number (Nat.lt_one_iff.1 low).symm

/-! ### Command words -/

/-- A word whose reserved field is 0 is put together from its opcode and its operand field (30_encoding.md R80). -/
theorem mkWord_fields {w : CmdWord} (hz : zField w = 0#2) : mkWord (opField w) (argField w) = w := by
  have z := congrArg BitVec.toNat hz
  refine BitVec.eq_of_toNat_eq ?_
  rw [mkWord_toNat]
  simp only [zField, opField, argField, BitVec.extractLsb'_toNat, Nat.shiftRight_eq_div_pow, BitVec.toNat_ofNat] at z ⊢
  have := w.isLt
  omega

/-- No word executes as the command of another word (30_encoding.md R94). -/
theorem cmdWord_of_decode {w : CmdWord} {d : Nat} {i : Instr} (h : decode w d = .ok i) : cmdWord i = w := by
  have op := opField_of_decode h
  unfold decode at h
  split at h
  · cases h
  · split at h
    · next legal =>
      rw [cmdWord, ← op, arg_of_decodeOperand h legal.2, mkWord_fields legal.1]
    · cases h

/-- The fields of a command's word as `wordIllegal` takes them from its number (30_encoding.md R80). -/
theorem cmdWord_toNat_fields (i : Instr) :
    (cmdWord i).toNat / 4096 = i.opcode.num.toNat ∧ (cmdWord i).toNat / 1024 % 4 = 0 ∧
      (cmdWord i).toNat % 1024 = i.arg.toNat := by
  have := i.arg.isLt
  rw [cmdWord, mkWord_toNat]
  omega

/-- A command's word breaks none of the rules for legal words (30_encoding.md R91 to R93). -/
theorem wordIllegal_cmdWord (i : Instr) : wordIllegal (cmdWord i) = false := by
  obtain ⟨op, z, arg⟩ := cmdWord_toNat_fields i
  have symbol : ∀ sy : Symbol, (BitVec.ofNat 10 sy.idx).toNat < 257 := fun sy =>
    (Nat.mod_le ..).trans_lt (symbol_idx_lt sy)
  rw [wordIllegal, op, z, arg]
  cases i with
  | stRead r => cases r <;> rfl
  | decStep o => cases o <;> rfl
  | ftRead sy | ftLoad sy => exact decide_eq_false (Nat.not_le.2 (symbol sy))
  | faByte b | encByte b => exact decide_eq_false (Nat.not_le.2 (Laws.Layout.byte_clean b))
  | _ => rfl

/-- A word that breaks one of the rules is rejected (30_encoding.md R91 to R93). -/
theorem decode_error_of_wordIllegal {w : CmdWord} (h : wordIllegal w = true) (d : Nat) : ∃ e, decode w d = .error e := by
  cases hd : decode w d with
  | error e => exact ⟨e, rfl⟩
  | ok i =>
    rw [← cmdWord_of_decode hd, wordIllegal_cmdWord] at h
    cases h

/-- A word that does not decode takes IllegalCommand in every phase but FAULT (60_exceptions.md R236). -/
theorem step_illegal_faultEntry {s : State} {w : CmdWord} {d : Nat} {rest : List HostInput} {e : Illegal}
    (hin : s.inputs = .command w d :: rest) (hd : decode w (portData s.cfg d) = .error e) (hp : s.phase ≠ .fault) :
    ∃ t, step s = .next t ∧ FaultEntry { s with inputs := rest } t 5#4 w false := by
  have taken : ({ s with inputs := rest } : State) = takeInput s := by simp [takeInput, hin]
  refine ⟨_, step_illegal hin hd, ?_⟩
  obtain ⟨hf, -⟩ | ⟨-, e⟩ := illegalWord_cases w (takeInput s)
  · exact absurd hf hp
  · rw [e, taken]
    exact faultEntry_raiseFault ..

/-- Settles O10: an illegal word does not decode, and a word that decodes is its command's. -/
theorem illegalWordsTakeIllegalCommand : Obligations.IllegalWordsTakeIllegalCommand := by
  refine ⟨fun s w d rest hin hw hp => ?_, fun w d i hd => ?_⟩
  · obtain ⟨_, hd⟩ := decode_error_of_wordIllegal hw (portData s.cfg d)
    exact step_illegal_faultEntry hin hd hp
  · have word := cmdWord_of_decode hd
    exact ⟨word ▸ wordIllegal_cmdWord i, word⟩

end Sys2Proof.Machine
end

section
/-! PROOF. What a response says: its data by command and status (30_encoding.md R97), its flags and the width of its data (R95). -/

namespace Sys2Proof.Machine

/-! ### The data of a response -/

theorem registerValue_of_readReg {s : State} {r : StReg} {v : Nat} (h : readReg r s = .ok v) : v = registerValue s r := by
  have readable : RootReadable s ∨ r ≠ .rootw := by
    refine or_iff_not_imp_right.2 fun hr => or_iff_not_imp_left.2 fun root => ?_
    obtain rfl := not_not.1 hr
    cases hn : nodeGet s.node s.root with
    | some n => rfl
    | none => simp [readReg, rootWeight, root, hn] at h
  exact Except.ok.inj (h.symm.trans (readReg_eq readable))

/-- The data of a completion is what R97 says, seen from the state before the command's word was taken. -/
theorem Completes.dataOk {s u : State} {i : Instr} {fl : RspFlags} {d : Nat} (h : Completes (takeInput s) i fl d u) :
    dataOk i s (respond (okResponse fl d) u) (okResponse fl d) := by
  cases h with
  | @stRead r v hv =>
    rw [registerValue_of_readReg hv]
    cases r <;> rfl
  | encByte | encEnd => exact List.length_append
  | decEmit => exact ⟨_, rfl, rfl⟩
  | _ => rfl

/-- Settles O17: by how a step ends; a legal word is its command's word. -/
theorem responseDataByCommand : Obligations.ResponseDataByCommand := by
  intro s t w d rest r hin hs hr
  cases step_ends_with hin hs hr with
  | illegalRefused => exact ⟨nofun, nofun, fun _ => rfl⟩
  | illegal => exact ⟨nofun, fun _ _ => ⟨rfl, rfl⟩, nofun⟩
  | legal hd h =>
    obtain rfl := cmdWord_of_decode hd
    cases h with
    | refused => exact ⟨nofun, nofun, fun _ => rfl⟩
    | outOfPhase | faults => exact ⟨nofun, fun _ _ => ⟨rfl, rfl⟩, nofun⟩
    | completes _ h => exact ⟨fun _ => ⟨_, rfl, h.dataOk⟩, nofun, nofun⟩

/-! ### The data fits the port -/

theorem noTree_takeInput (s : State) : NoTree (takeInput s) ↔ NoTree s :=
  ⟨fun ⟨node, nleaf, nnode, root, cur⟩ => ⟨node, nleaf, nnode, root, cur⟩,
    fun ⟨node, nleaf, nnode, root, cur⟩ => ⟨node, nleaf, nnode, root, cur⟩⟩

theorem hasTree_takeInput (s : State) : HasTree (takeInput s) ↔ HasTree s :=
  ⟨fun ⟨terminator, fits, node, nleaf, nnode, root, cur⟩ => ⟨terminator, fits, node, nleaf, nnode, root, cur⟩,
    fun ⟨terminator, fits, node, nleaf, nnode, root, cur⟩ => ⟨terminator, fits, node, nleaf, nnode, root, cur⟩⟩

/-- The invariant does not speak of what the host presents. -/
theorem Inv.takeInput {s : State} (h : Inv s) : Inv (takeInput s) where
  cntW := h.cntW
  counts := h.counts
  len := h.len
  sticky := h.sticky
  record := h.record
  table := h.table
  tree := by
    simp only [TreeOk, noTree_takeInput, hasTree_takeInput]
    exact h.tree
  code := by
    simp only [CodeOk, hasTree_takeInput]
    exact h.code

/-- There is a tree or none, and no third (10_state.md R47). -/
theorem Inv.noTree_or_hasTree {s : State} (h : Inv s) : NoTree s ∨ HasTree s := by
  by_cases hp : treePhase s.phase = true
  · exact .inr (h.hasTree hp)
  · have tree := h.tree
    unfold TreeOk at tree
    cases e : s.phase <;> simp only [e] at tree hp
    case fault => exact tree
    case idle | count | load | table => exact .inl tree
    all_goals exact absurd rfl hp

/-- `CNT_W` is at least 16, so 16 bits fit the port (00_scope.md R7). -/
theorem Inv.lt_of_lt_two_pow_16 {s : State} (h : Inv s) {n : Nat} (hn : n < 2 ^ 16) : n < 2 ^ s.cfg.cntW :=
  hn.trans_le (Nat.pow_le_pow_right (by decide) (of_decide_eq_true h.cntW))

/-- The largest count fits the port (00_scope.md R7). -/
theorem Config.lt_of_le_maxCnt {c : Config} {n : Nat} (h : n ≤ c.maxCnt) : n < 2 ^ c.cntW := by
  have := Nat.two_pow_pos c.cntW
  unfold Config.maxCnt at h
  omega

/-- The view ROOTW fits the port: a root weighs what the table sums to (41_tree_builder.md R149). -/
theorem Inv.rootwValue_le {s : State} (h : Inv s) : rootwValue s ≤ s.cfg.maxCnt := by
  unfold rootwValue
  rcases h.noTree_or_hasTree with none | tree
  · rw [if_pos none.root]
    exact Nat.zero_le _
  · obtain ⟨n, hn, hw⟩ := tree.root_spec.1
    rw [if_neg (ne_nil_of_nodeGet hn), hn]
    exact hw.trans_le tree.fits

/-- Every status register fits the port (10_state.md R40: zero-extended). -/
theorem Inv.registerValue_lt {s : State} (h : Inv s) (r : StReg) : registerValue s r < 2 ^ s.cfg.cntW := by
  have narrow : ∀ {w : Nat} (x : BitVec w), w ≤ 16 → x.toNat < 2 ^ s.cfg.cntW := fun x hw =>
    h.lt_of_lt_two_pow_16 (x.isLt.trans_le (Nat.pow_le_pow_right (by decide) hw))
  cases r with
  | len => exact Config.lt_of_le_maxCnt (h.len.trans (Nat.sub_le ..))
  | rootw => exact Config.lt_of_le_maxCnt h.rootwValue_le
  | _ => exact narrow _ (by decide)

/-- Where the encoder runs, a code's length is bounded by NLEAF, a 9-bit register (10_state.md R49 (c)). -/
theorem Inv.code_length_lt {s : State} (h : Inv s) (hp : s.phase = .mapped ∨ s.phase = .encode) {sy : Symbol}
    {c : BitString} (hc : codeGet s.code sy = some c) : c.length < 512 := by
  obtain ⟨tree, code⟩ := h.hasTree_hasCode (hp.imp_right .inl)
  exact Nat.lt_of_succ_le (((tree.treeInvariants.codeInvariants code).short sy c hc).trans s.nleaf.isLt.le)

/-- The data of a completion fits the port's `CNT_W` bits (30_encoding.md R95). -/
theorem Completes.rdata_lt {s u : State} {i : Instr} {fl : RspFlags} {d : Nat} (h : Completes s i fl d u) (inv : Inv s)
    (hl : legalIn i s.phase = true) : d < 2 ^ s.cfg.cntW := by
  have encoder : (s.phase == .mapped || s.phase == .encode) = true → s.phase = .mapped ∨ s.phase = .encode := by simp
  cases h with
  | stRead hv => exact registerValue_of_readReg hv ▸ inv.registerValue_lt _
  | ftRead => exact Config.lt_of_le_maxCnt (inv.counts _)
  | encByte hc | encEnd hc => exact inv.lt_of_lt_two_pow_16 ((inv.code_length_lt (encoder hl) hc).trans (by decide))
  | decEmit => exact inv.lt_of_lt_two_pow_16 ((BitVec.isLt _).trans (by decide))
  | _ => exact Nat.two_pow_pos _

/-- The data of every response fits the port (30_encoding.md R95). -/
theorem StepEnds.rdata_lt {s t : State} {w : CmdWord} {d : Nat} {r : Response} (h : StepEnds s w d r t) (inv : Inv s) :
    r.rdata < 2 ^ s.cfg.cntW := by
  cases h with
  | illegalRefused => exact Nat.two_pow_pos _
  | illegal => exact inv.lt_of_lt_two_pow_16 w.isLt
  | legal hd h =>
    cases h with
    | refused => exact Nat.two_pow_pos _
    | outOfPhase | faults => exact inv.lt_of_lt_two_pow_16 (BitVec.isLt _)
    | completes hl h => exact h.rdata_lt inv.takeInput hl

/-! ### The flag `consumed` -/

/-- A word that decodes is a word of `DEC.STEP` exactly when its command is a `DEC.STEP`. -/
theorem decStep_word_iff {w : CmdWord} {d : Nat} {i : Instr} (h : decode w d = .ok i) :
    (∃ o, w = cmdWord (.decStep o)) ↔ ∃ o, i = .decStep o := by
  constructor
  · rintro ⟨o, rfl⟩
    rw [decode_cmdWord, decodeOperand_arg (i := .decStep o) nofun] at h
    exact ⟨o, (Except.ok.inj h).symm⟩
  · rintro ⟨o, rfl⟩
    exact ⟨o, (cmdWord_of_decode h).symm⟩

theorem Completes.consumed_iff {s u : State} {i : Instr} {fl : RspFlags} {d : Nat} (h : Completes s i fl d u) :
    fl.consumed = true ↔ (∃ o, i = .decStep o) ∧ fl.done = false := by
  cases h with
  | decEmit | decMove => exact ⟨fun _ => ⟨⟨_, rfl⟩, rfl⟩, fun _ => rfl⟩
  | decDone => exact ⟨nofun, fun ⟨_, short⟩ => nomatch short⟩
  | _ => exact ⟨nofun, fun ⟨⟨_, e⟩, _⟩ => nomatch e⟩

/-- A bit consumed moves the cursor, from where it stood or, after a byte, from ROOT (44_decoder.md R181). -/
theorem Completes.consumed_moves {s u : State} {i : Instr} {fl : RspFlags} {d : Nat} (h : Completes s i fl d u)
    (hc : fl.consumed = true) : ∃ (o : Offer) (b : Bit) (n : Node), i = .decStep o ∧ offerBit o = some b ∧
      (nodeGet s.node s.cur = some n ∨ nodeGet s.node s.root = some n) ∧ u.cur = n.child b := by
  cases h with
  | decEmit _ _ _ ho hm => exact ⟨_, _, _, rfl, ho, .inr hm, rfl⟩
  | decMove hn _ ho => exact ⟨_, _, _, rfl, ho, .inl hn, rfl⟩
  | _ => cases hc

/-- `consumed` is set exactly by a `DEC.STEP` that completes short of DONE (30_encoding.md R95). -/
theorem StepEnds.consumed_iff {s t : State} {w : CmdWord} {d : Nat} {r : Response} (h : StepEnds s w d r t) :
    r.flags.consumed = true ↔ (∃ o, w = cmdWord (.decStep o)) ∧ r.status = .ok ∧ r.flags.done = false := by
  cases h with
  | illegalRefused | illegal => exact ⟨nofun, nofun⟩
  | legal hd h =>
    cases h with
    | refused | outOfPhase | faults => exact ⟨nofun, nofun⟩
    | completes _ h =>
      rw [decStep_word_iff hd]
      exact h.consumed_iff.trans (and_congr_right fun _ => (and_iff_right rfl).symm)

theorem StepEnds.consumed_moves {s t : State} {w : CmdWord} {d : Nat} {r : Response} (h : StepEnds s w d r t)
    (hc : r.flags.consumed = true) : ∃ (o : Offer) (b : Bit) (n : Node), w = cmdWord (.decStep o) ∧ offerBit o = some b ∧
      (nodeGet s.node s.cur = some n ∨ nodeGet s.node s.root = some n) ∧ t.cur = n.child b := by
  cases h with
  | illegalRefused | illegal => cases hc
  | legal hd h =>
    cases h with
    | refused | outOfPhase | faults => cases hc
    | completes _ h =>
      obtain ⟨o, b, n, rfl, moves⟩ := h.consumed_moves hc
      exact ⟨o, b, n, (cmdWord_of_decode hd).symm, moves⟩

/-! ### The flag `emitted` -/

/-- No byte is appended where BYTEOUT stays. -/
theorem not_appended {l m : List Byte} (h : m = l) : ¬ ∃ b, m = l ++ [b] := by
  rintro ⟨b, e⟩
  simp [h] at e

theorem Completes.emitted_iff {s u : State} {i : Instr} {fl : RspFlags} {d : Nat} (h : Completes s i fl d u) :
    fl.emitted = true ↔ ∃ b, u.byteout = s.byteout ++ [b] := by
  cases h with
  | decEmit => exact ⟨fun _ => ⟨_, rfl⟩, fun _ => rfl⟩
  | _ => exact ⟨nofun, fun h => absurd h (not_appended rfl)⟩

theorem TakesFault.emitted_iff {s u : State} {i : Instr} {f : FaultKind} {em : Bool} (h : TakesFault s i f em u) :
    em = true ↔ ∃ b, u.byteout = s.byteout ++ [b] := by
  cases h with
  | truncatedAfterByte => exact ⟨fun _ => ⟨_, rfl⟩, fun _ => rfl⟩
  | _ => exact ⟨nofun, fun h => absurd h (not_appended rfl)⟩

/-- `emitted` is set exactly by a command that appends a byte, also where it then takes a fault (30_encoding.md R95). -/
theorem StepEnds.emitted_iff {s t : State} {w : CmdWord} {d : Nat} {r : Response} (h : StepEnds s w d r t) :
    r.flags.emitted = true ↔ ∃ b, t.byteout = s.byteout ++ [b] := by
  cases h with
  | illegalRefused | illegal => exact ⟨nofun, fun h => absurd h (not_appended rfl)⟩
  | legal hd h =>
    cases h with
    | refused | outOfPhase => exact ⟨nofun, fun h => absurd h (not_appended rfl)⟩
    | completes _ h => exact h.emitted_iff
    | faults _ h => exact h.emitted_iff

/-- Only a `DEC.STEP` emits a byte (10_state.md R50). -/
theorem StepEnds.opField_of_emitted {s t : State} {w : CmdWord} {d : Nat} {r : Response} (h : StepEnds s w d r t)
    (he : r.flags.emitted = true) : opField w = 0xB#4 := by
  obtain ⟨b, hb⟩ := h.emitted_iff.1 he
  obtain ⟨-, q, hq, only⟩ := h.tracesGrow
  obtain rfl : [b] = q := List.append_cancel_left (hb.symm.trans hq)
  exact (only (List.cons_ne_nil b [])).1

/-! ### The flag `done` -/

/-- Of the commands that complete, `ENC.END` and a `DEC.STEP` at the terminator leaf bring the block to DONE, and both are
legal only before it (10_state.md R32). -/
theorem Completes.done_iff {s u : State} {i : Instr} {fl : RspFlags} {d : Nat} (h : Completes s i fl d u)
    (hl : legalIn i s.phase = true) : fl.done = true ↔ u.phase = .done ∧ s.phase ≠ .done := by
  cases h with
  | nop | stRead | ftRead => exact ⟨nofun, fun ⟨done, before⟩ => absurd done before⟩
  | encEnd | decDone =>
    refine ⟨fun _ => ⟨rfl, fun done => ?_⟩, fun _ => rfl⟩
    rw [done] at hl
    cases hl
  | _ => exact ⟨nofun, nofun⟩

/-- `done` is set exactly by a command that brings the block to PHASE DONE (30_encoding.md R95). -/
theorem StepEnds.done_iff {s t : State} {w : CmdWord} {d : Nat} {r : Response} (h : StepEnds s w d r t) :
    r.flags.done = true ↔ t.phase = .done ∧ s.phase ≠ .done := by
  cases h with
  | illegalRefused => exact ⟨nofun, fun ⟨done, before⟩ => absurd done before⟩
  | illegal => exact ⟨nofun, nofun⟩
  | legal hd h =>
    cases h with
    | refused => exact ⟨nofun, fun ⟨done, before⟩ => absurd done before⟩
    | outOfPhase | faults => exact ⟨nofun, nofun⟩
    | completes hl h => exact h.done_iff hl

/-- Settles O16: one lemma for each flag and one for the data, by how a step ends. -/
theorem everyCommandAnswersOnce : Obligations.EveryCommandAnswersOnce := by
  intro s t w d rest hin hs
  obtain ⟨r, h⟩ := step_ends hin hs
  exact ⟨r, h.responses, h.rdata_lt, h.consumed_iff, h.consumed_moves, h.emitted_iff, h.opField_of_emitted, h.done_iff⟩

end Sys2Proof.Machine
end

section
/-! PROOF. The frequency analyzer and the table port over whole sessions (40_frequency_analyzer.md R124 to R130): the first pass counts
occurrences, loads fill the table whatever their order, and the entries read give the table back. -/

namespace Sys2Proof.Machine

/-! ### A fresh session -/

/-- In IDLE the table is empty and LEN is 0 (10_state.md R23). -/
theorem Ready.empty {s : State} (h : Ready s) : s.ft = emptyTable ∧ s.len = 0 := by
  obtain ⟨inv, idle⟩ := h
  simpa only [TableOk, idle] using inv.table

theorem Ready.noTree {s : State} (h : Ready s) : NoTree s := by
  obtain ⟨inv, idle⟩ := h
  simpa only [TreeOk, idle] using inv.tree

/-- Settles O27: `FA.END` completes in IDLE, where the table is empty. -/
theorem emptyInputTableHoldsTheTerminatorAlone : Obligations.EmptyInputTableHoldsTheTerminatorAlone := by
  intro s ready
  obtain ⟨empty, zero⟩ := ready.empty
  refine ⟨_, Completes.faEnd.exec (by rw [ready.2]; rfl), answers_ok 0 rfl, ftGet_ftSet_same .., fun sy hs => ?_, zero, rfl⟩
  rw [respond_ft, ftGet_ftSet_ne _ _ hs, empty, ftGet_empty]

/-! ### The first pass -/

theorem occurrences_cons (b v : Byte) (bs : List Byte) :
    occurrences (b :: bs) v = occurrences bs v + if b = v then 1 else 0 := by
  by_cases e : b = v <;> simp [occurrences, e]

/-- Counting the bytes adds to each byte's entry its occurrences (40_frequency_analyzer.md R125). -/
theorem ftGet_countBytes (bs : List Byte) (ft : FreqTable) (v : Byte) :
    ftGet (countBytes bs ft) (.byte v) = ftGet ft (.byte v) + occurrences bs v := by
  induction bs generalizing ft with
  | nil => rfl
  | cons b bs ih =>
    rw [countBytes, ih, occurrences_cons]
    by_cases e : b = v
    · subst e
      rw [ftGet_ftSet_same, if_pos rfl]
      omega
    · rw [ftGet_ftSet_ne _ _ fun h => e (Symbol.byte.inj h).symm, if_neg e, Nat.add_zero]

theorem ftGet_countBytes_terminator (bs : List Byte) (ft : FreqTable) :
    ftGet (countBytes bs ft) .terminator = ftGet ft .terminator := by
  induction bs generalizing ft with
  | nil => rfl
  | cons b bs ih => rw [countBytes, ih, ftGet_ftSet_ne _ _ Symbol.noConfusion]

/-- The order of the bytes counted does not matter (40_frequency_analyzer.md R125). -/
theorem countBytes_perm {cs bs : List Byte} (h : cs.Perm bs) (ft : FreqTable) : countBytes cs ft = countBytes bs ft := by
  refine ft_ext fun sy => ?_
  cases sy with
  | byte v => rw [ftGet_countBytes, ftGet_countBytes, occurrences, occurrences, (h.filter _).length_eq]
  | terminator => rw [ftGet_countBytes_terminator, ftGet_countBytes_terminator]

/-- Settles O28: the first pass leaves `countBytes` of the bytes with the terminator set to 1. -/
theorem firstPassCountsOccurrences : Obligations.FirstPassCountsOccurrences := by
  intro bs s ready hb
  obtain ⟨empty, zero⟩ := ready.empty
  obtain ⟨t, run, frame⟩ := issueAll_firstPass bs (.inl ready.2) (by rwa [zero, Nat.zero_add])
  have table : t.ft = ftSet (countBytes bs emptyTable) .terminator 1 := by rw [frame, empty]
  refine ⟨t, run, by rw [frame], fun v => ?_, ?_, by rw [frame, zero, Nat.zero_add], ?_, fun cs u perm runCs => ?_⟩
  · rw [table, ftGet_ftSet_ne _ _ Symbol.noConfusion, ftGet_countBytes, ftGet_empty, Nat.zero_add]
  · rw [table, ftGet_ftSet_same]
  · rw [table, ftTotal_firstPass]
  · obtain ⟨u', runCs', frame'⟩ :=
      issueAll_firstPass cs (.inl ready.2) (by rwa [zero, Nat.zero_add, perm.length_eq])
    obtain ⟨-, rfl⟩ := HostRun.ok.inj (runCs.symm.trans runCs')
    rw [table, frame', empty, countBytes_perm perm]

/-! ### Loading a table -/

/-- The table after the pairs given are loaded (40_frequency_analyzer.md R126). -/
def loadPairs : HostTable → FreqTable → FreqTable
  | [], ft => ft
  | p :: tbl, ft => loadPairs tbl (ftSet ft p.1 p.2)

theorem ftGet_loadPairs_of_notMem {tbl : HostTable} {sy : Symbol} (h : sy ∉ tbl.map Prod.fst) (ft : FreqTable) :
    ftGet (loadPairs tbl ft) sy = ftGet ft sy := by
  induction tbl generalizing ft with
  | nil => rfl
  | cons p tbl ih =>
    obtain ⟨ne, nm⟩ := not_or.1 (mt List.mem_cons.2 h)
    rw [loadPairs, ih nm, ftGet_ftSet_ne _ _ ne]

/-- With no symbol twice each pair writes its own entry (40_frequency_analyzer.md R128). -/
theorem ftGet_loadPairs_of_mem {tbl : HostTable} (nd : (tbl.map Prod.fst).Nodup) {p : Symbol × Nat} (h : p ∈ tbl)
    (ft : FreqTable) : ftGet (loadPairs tbl ft) p.1 = p.2 := by
  induction tbl generalizing ft with
  | nil => cases h
  | cons q tbl ih =>
    obtain ⟨nm, nd⟩ := List.nodup_cons.1 nd
    rw [loadPairs]
    rcases List.mem_cons.1 h with rfl | h
    · rw [ftGet_loadPairs_of_notMem nm, ftGet_ftSet_same]
    · exact ih nd h _

/-- The order of loading does not matter (40_frequency_analyzer.md R128). -/
theorem loadPairs_perm {tbl tbl' : HostTable} (perm : tbl'.Perm tbl) (nd : (tbl.map Prod.fst).Nodup) (ft : FreqTable) :
    loadPairs tbl' ft = loadPairs tbl ft := by
  have keys := perm.map Prod.fst
  refine ft_ext fun sy => ?_
  by_cases h : sy ∈ tbl.map Prod.fst
  · obtain ⟨p, hp, rfl⟩ := List.mem_map.1 h
    rw [ftGet_loadPairs_of_mem nd hp, ftGet_loadPairs_of_mem (keys.nodup_iff.2 nd) (perm.mem_iff.2 hp)]
  · rw [ftGet_loadPairs_of_notMem h, ftGet_loadPairs_of_notMem (mt keys.mem_iff.1 h)]

theorem goodTable_cons {c : Config} {p : Symbol × Nat} {tbl : HostTable} :
    goodTable c (p :: tbl) ↔ p.1 ∉ tbl.map Prod.fst ∧ 0 < p.2 ∧ p.2 ≤ c.maxCnt ∧ goodTable c tbl := by
  simp only [goodTable, List.map_cons, List.nodup_cons, List.forall_mem_cons]
  tauto

theorem goodTable.perm {c : Config} {tbl tbl' : HostTable} (good : goodTable c tbl) (h : tbl'.Perm tbl) :
    goodTable c tbl' :=
  ⟨(h.map Prod.fst).nodup_iff.2 good.1, fun p hp => good.2 p (h.mem_iff.1 hp)⟩

/-- The loads of a good table of absent symbols all complete, and write the table and PHASE alone (40_frequency_analyzer.md
R126). -/
theorem issueAll_loads {tbl : HostTable} {s : State} (hp : s.phase = .idle ∨ s.phase = .load) (good : goodTable s.cfg tbl)
    (absent : ∀ p ∈ tbl, ftGet s.ft p.1 = 0) :
    ∃ t, issueAll (loads tbl) s = .ok () t ∧ (t.phase = .idle ∨ t.phase = .load) ∧
      t = { s with ft := loadPairs tbl s.ft, phase := t.phase, responses := t.responses } := by
  induction tbl generalizing s with
  | nil => exact ⟨s, rfl, hp, rfl⟩
  | cons p tbl ih =>
    obtain ⟨new, positive, le, good⟩ := goodTable_cons.1 good
    have stores := Completes.ftLoad positive.ne' (absent p List.mem_cons_self)
    have legal : legalIn (.ftLoad p.1 p.2) s.phase = true := by
      rcases hp with e | e <;> rw [e] <;> rfl
    have fits : WellFormed s.cfg (.ftLoad p.1 p.2) = true := decide_eq_true (Config.lt_of_le_maxCnt le)
    obtain ⟨t, run, phase, frame⟩ := ih (s := respond (okResponse RspFlags.zero 0)
      { s with ft := ftSet s.ft p.1 p.2, phase := .load }) (.inr rfl) good fun q hq => by
        have ne : q.1 ≠ p.1 := fun e => new (e ▸ List.mem_map_of_mem hq)
        rw [respond_ft, ftGet_ftSet_ne _ _ ne, absent q (List.mem_cons_of_mem _ hq)]
    exact ⟨t, (stores.issueAll_cons fits legal _).trans run, phase, frame⟩

/-- Loading a good table in a fresh session (40_frequency_analyzer.md R126). -/
theorem Ready.issueAll_loads {tbl : HostTable} {s : State} (ready : Ready s) (good : goodTable s.cfg tbl) :
    ∃ t, issueAll (loads tbl) s = .ok () t ∧ legalIn .tbBuild t.phase = true ∧
      t = { s with ft := loadPairs tbl emptyTable, phase := t.phase, responses := t.responses } := by
  obtain ⟨empty, -⟩ := ready.empty
  obtain ⟨t, run, phase, frame⟩ := Machine.issueAll_loads (.inl ready.2) good fun p _ => by rw [empty, ftGet_empty]
  rw [empty] at frame
  exact ⟨t, run, by rcases phase with e | e <;> rw [e] <;> rfl, frame⟩

/-- The node array and the registers NLEAF, NNODE and ROOT, what `TB.BUILD` makes a tree of (41_tree_builder.md R140). -/
def State.treeParts (s : State) : NodeArena × BitVec 9 × BitVec 10 × NodeIndex := (s.node, s.nleaf, s.nnode, s.root)

/-- What `TB.BUILD` leaves of the tree is read off the table, MAXCNT and the tree before (41_tree_builder.md R140 to R142). -/
theorem tbBuild_treeParts {t u : State} (hl : legalIn .tbBuild t.phase = true) (h : exec .tbBuild t = .next u) :
    u.treeParts =
      if ftGet t.ft .terminator = 0 ∨ t.cfg.maxCnt < ftTotal t.ft then t.treeParts
      else (writeNodes t.node 0 (builtNodes t.ft), BitVec.ofNat 9 (leaves t.ft).length,
        BitVec.ofNat 10 (builtNodes t.ft).length, builtRoot t.ft) := by
  rw [exec_legal hl] at h
  obtain ⟨ht, e⟩ | ⟨ht, hs, e⟩ | ⟨ht, hs, e⟩ := tbBuildBody_cases t <;> obtain rfl := Host.Outcome.next.inj (e.symm.trans h)
  · rw [if_pos (.inl ht)]
    rfl
  · rw [if_pos (.inr hs)]
    rfl
  · rw [if_neg (not_or.2 ⟨ht, Nat.not_lt.2 hs⟩)]
    rfl

/-- Settles O30: the loads leave `loadPairs` of the pairs, and `TB.BUILD` depends on nothing else that was loaded. -/
theorem loadOrderDoesNotMatter : Obligations.LoadOrderDoesNotMatter := by
  refine ⟨fun tbl tbl' s ready good perm => ?_, fun c s ready positive le => ?_⟩
  · obtain ⟨t, run, legal, frame⟩ := ready.issueAll_loads good
    obtain ⟨t', run', legal', frame'⟩ := ready.issueAll_loads (good.perm perm)
    have table : t'.ft = t.ft := by rw [frame, frame', loadPairs_perm perm good.1]
    have cfg : t'.cfg = t.cfg := by rw [frame, frame']
    have before : t'.treeParts = t.treeParts := by rw [frame, frame']; rfl
    refine ⟨t, t', run, run', table, fun u u' hu hu' => ?_⟩
    have after : u'.treeParts = u.treeParts := by
      rw [tbBuild_treeParts legal hu, tbBuild_treeParts legal' hu', before, table, cfg, (Prod.mk.inj before).1]
    simpa only [State.treeParts, Prod.mk.injEq] using after
  · obtain ⟨t, run, legal, frame⟩ := ready.issueAll_loads (tbl := [(.terminator, c)])
      (goodTable_cons.2 ⟨List.not_mem_nil, positive, le, List.nodup_nil, List.forall_mem_nil _⟩)
    have count : ftGet t.ft .terminator = c := by rw [frame]; exact ftGet_ftSet_same ..
    have total : ftTotal t.ft = c := by
      rw [ftTotal_eq, count, frame]
      simp only [loadPairs, byteTotal_ftSet_terminator, byteTotal_empty, Nat.zero_add]
    have builds := (Completes.tbBuild (s := t) (by rw [count]; exact positive.ne')
      (by rw [total, frame]; exact le)).issueAll_cons rfl legal []
    exact ⟨_, (issueAll_append_ok run [.tbBuild]).trans builds⟩

/-! ### Reading a table -/

/-- The pairs of the symbols given that are present, in order (40_frequency_analyzer.md R129). -/
def tableEntries (sys : List Symbol) (ft : FreqTable) : HostTable :=
  sys.filterMap fun sy => if ftGet ft sy = 0 then none else some (sy, ftGet ft sy)

theorem tableEntries_cons (sy : Symbol) (sys : List Symbol) (ft : FreqTable) :
    tableEntries (sy :: sys) ft =
      if ftGet ft sy = 0 then tableEntries sys ft else (sy, ftGet ft sy) :: tableEntries sys ft := by
  by_cases e : ftGet ft sy = 0 <;> simp [tableEntries, e]

theorem mem_tableEntries {sys : List Symbol} {ft : FreqTable} {p : Symbol × Nat} :
    p ∈ tableEntries sys ft ↔ p.1 ∈ sys ∧ p.2 ≠ 0 ∧ ftGet ft p.1 = p.2 := by
  obtain ⟨sy, c⟩ := p
  simp only [tableEntries, List.mem_filterMap, Option.ite_none_left_eq_some, Option.some.injEq, Prod.mk.injEq]
  constructor
  · rintro ⟨sy', hs, hc, rfl, rfl⟩
    exact ⟨hs, hc, rfl⟩
  · rintro ⟨hs, hc, rfl⟩
    exact ⟨sy, hs, hc, rfl, rfl⟩

theorem tableEntries_nodup {sys : List Symbol} (h : sys.Nodup) (ft : FreqTable) :
    ((tableEntries sys ft).map Prod.fst).Nodup := by
  induction sys with
  | nil => exact List.nodup_nil
  | cons sy sys ih =>
    obtain ⟨nm, nd⟩ := List.nodup_cons.1 h
    rw [tableEntries_cons]
    split
    · exact ih nd
    · refine List.nodup_cons.2 ⟨fun hm => ?_, ih nd⟩
      obtain ⟨p, hp, rfl⟩ := List.mem_map.1 hm
      exact nm (mem_tableEntries.1 hp).1

/-- The entries of a table, loaded into an empty one, are the table (40_frequency_analyzer.md R130). -/
theorem loadPairs_tableEntries (ft : FreqTable) : loadPairs (tableEntries allSymbols ft) emptyTable = ft := by
  refine ft_ext fun sy => ?_
  by_cases h : ftGet ft sy = 0
  · have absent : sy ∉ (tableEntries allSymbols ft).map Prod.fst := fun hm => by
      obtain ⟨p, hp, rfl⟩ := List.mem_map.1 hm
      obtain ⟨-, hc, e⟩ := mem_tableEntries.1 hp
      exact hc (e.symm.trans h)
    rw [ftGet_loadPairs_of_notMem absent, ftGet_empty, h]
  · have present : (sy, ftGet ft sy) ∈ tableEntries allSymbols ft := mem_tableEntries.2 ⟨mem_allSymbols sy, h, rfl⟩
    exact ftGet_loadPairs_of_mem (tableEntries_nodup allSymbols_nodup ft) present _

theorem Completes.issueOk {s u : State} {i : Instr} {fl : RspFlags} {d : Nat} (h : Completes s i fl d u)
    (hw : WellFormed s.cfg i = true) (hl : legalIn i s.phase = true) :
    issueOk i s = .ok (okResponse fl d) (respond (okResponse fl d) u) :=
  issueOk_ok ((issue_eq_exec hw).trans (h.exec hl)) (lastResponse_respond ..) rfl

/-- Reading entries through `FT.READ` answers the table's, and nothing but the responses changes (40_frequency_analyzer.md
R129). -/
theorem readEntries_eq (sys : List Symbol) {s : State} (hp : s.phase ≠ .fault) :
    ∃ t, readEntries sys s = .ok (tableEntries sys s.ft) t ∧ OnlyResponses s t := by
  induction sys generalizing s with
  | nil => exact ⟨s, rfl, rfl⟩
  | cons sy sys ih =>
    have read := (Completes.ftRead (s := s) (sy := sy)).issueOk rfl (by simpa [legalIn] using hp)
    obtain ⟨t, rest, frame⟩ := ih (s := respond (okResponse RspFlags.zero (ftGet s.ft sy)) s) hp
    refine ⟨t, ?_, frame⟩
    rw [readEntries, read, HostRun.andThen, rest, HostRun.andThen, tableEntries_cons]
    rfl

/-- From TABLE on the table has the terminator and its sum fits a weight, so `TB.BUILD` accepts it (41_tree_builder.md R141,
R142). -/
theorem Inv.table_accepted {s : State} (h : Inv s) (hp : s.phase = .table ∨ treePhase s.phase = true) :
    ftGet s.ft .terminator ≠ 0 ∧ ftTotal s.ft ≤ s.cfg.maxCnt := by
  rcases hp with hp | hp
  · have counted := h.table
    simp only [TableOk, hp] at counted
    obtain ⟨one, len⟩ := counted
    have := h.len
    have := Config.one_le_maxCnt h.cntW
    exact ⟨by omega, by rw [ftTotal_eq]; omega⟩
  · exact ⟨(h.hasTree hp).terminator, (h.hasTree hp).fits⟩

/-- Settles O31: the entries read are a good table that loads to the table read (`loadPairs_tableEntries`), whatever the order
(`loadPairs_perm`), and in a fresh session `TB.BUILD` writes its nodes into an empty arena, as for the tree of session A. -/
theorem tableRoundTripsThroughThePort : Obligations.TableRoundTripsThroughThePort := by
  intro s u inv hp ready cfg
  have noFault : s.phase ≠ .fault := by
    intro e
    simp [e, treePhase] at hp
  obtain ⟨s', read, -⟩ := readEntries_eq allSymbols noFault
  have good : goodTable u.cfg (tableEntries allSymbols s.ft) :=
    ⟨tableEntries_nodup allSymbols_nodup s.ft, fun p hm => by
      obtain ⟨-, hc, e⟩ := mem_tableEntries.1 hm
      exact ⟨Nat.pos_of_ne_zero hc, by rw [← e, cfg]; exact inv.counts p.1⟩⟩
  refine ⟨_, s', read, fun tbl' perm => ?_⟩
  obtain ⟨v, run, legal, frame⟩ := ready.issueAll_loads (good.perm perm)
  have table : v.ft = s.ft := by rw [frame]; exact (loadPairs_perm perm good.1 _).trans (loadPairs_tableEntries s.ft)
  have fresh : v.node = emptyArena := by rw [frame]; exact ready.noTree.node
  obtain ⟨terminator, fits⟩ := inv.table_accepted hp
  have builds := (Completes.tbBuild (s := v) (by rwa [table]) (by rw [table, frame]; exact cfg ▸ fits)).issueAll_cons
    rfl legal []
  refine ⟨v, run, table, _, builds, fun hp => ?_⟩
  have tree := inv.hasTree hp
  refine ⟨?_, ?_, ?_, ?_⟩
  · simpa only [respond_node, table, fresh] using tree.node.symm
  · simpa only [respond_nleaf, table] using tree.nleaf.symm
  · simpa only [respond_nnode, table] using tree.nnode.symm
  · simpa only [respond_root, table] using tree.root.symm

end Sys2Proof.Machine
end

section
/-! PROOF. The weights of a tree (41_tree_builder.md R142, R151): a run of the merge loop joins the two lightest elements of the queue, so
internal weights do not decrease; every weight is positive, so no node but ROOT is as heavy as the whole table. -/

namespace Sys2Proof.Machine

/-! ### Internal weights in creation order -/

/-- The queue holds no index twice: each node made is in it once or is a child (41_tree_builder.md R144). -/
theorem ForestOk.queue_nodup {ft : FreqTable} {f : Forest} (h : ForestOk ft f) : (f.queue.map QEntry.idx).Nodup :=
  (List.nodup_append.1 (h.owned.nodup_iff.2 List.nodup_range)).2.1

/-- One run of the loop on a sound forest: nothing on a queue of at most one element, else the join of the least element a
and of the next b, in the order of `remove_min` (41_tree_builder.md R144, R145). -/
theorem ForestOk.mergeOnce_least {ft : FreqTable} {f : Forest} (h : ForestOk ft f) :
    (f.queue.length ≤ 1 ∧ Machine.mergeOnce f = f) ∨
    ∃ (a b : QEntry) (q : List QEntry), (a :: b :: q).Perm f.queue ∧ a.before b = true ∧ (∀ x ∈ q, b.before x = true) ∧
      Machine.mergeOnce f =
        { nodes := f.nodes ++ [joinNode a b]
          queue := q ++ [{ weight := a.weight + b.weight, idx := f.nodes.length }] } := by
  have nd := h.queue_nodup
  cases hq : f.queue with
  | nil => exact .inl ⟨Nat.zero_le _, by simp [Machine.mergeOnce, hq]⟩
  | cons e q =>
    rw [hq] at nd
    have p := removeMin_perm e q
    have least := removeMin_least e q nd
    cases hq' : (removeMin e q).2 with
    | nil =>
      rw [hq'] at p
      exact .inl ⟨p.length_eq.ge, by simp [Machine.mergeOnce, hq, hq']⟩
    | cons e' q' =>
      rw [hq'] at p least
      have p' := removeMin_perm e' q'
      have nd' : ((e' :: q').map QEntry.idx).Nodup := (List.nodup_cons.1 ((p.map QEntry.idx).nodup_iff.2 nd)).2
      exact .inr ⟨_, _, _, (p'.cons _).trans p, least _ (p'.mem_iff.1 List.mem_cons_self), removeMin_least e' q' nd',
        mergeOnce_two hq hq'⟩

/-- What the merge loop keeps of the weights: the internal nodes stand in order of weight, and none is heavier than twice a
weight that every element of the queue has at least. -/
structure WeightsOrdered (f : Forest) : Prop where
  sorted : f.nodes.Pairwise fun m n => m.isLeaf = false → n.isLeaf = false → m.weight ≤ n.weight
  floor : ∃ w, (∀ n ∈ f.nodes, n.isLeaf = false → n.weight ≤ 2 * w) ∧ ∀ e ∈ f.queue, w ≤ e.weight

theorem weightsOrdered_leaves (ft : FreqTable) : WeightsOrdered { nodes := leaves ft, queue := leafQueue (leaves ft) } := by
  have leaf : ∀ n ∈ leaves ft, n.isLeaf ≠ false := fun n hn => by
    obtain ⟨sy, -, rfl⟩ := mem_leaves.1 hn
    simp
  exact ⟨List.pairwise_of_forall_mem_list fun m hm _ _ hl => absurd hl (leaf m hm),
    0, fun n hn hl => absurd hl (leaf n hn), fun _ _ => Nat.zero_le _⟩

/-- The join of the two lightest is no lighter than any join before it, and the second of the two is the new floor. -/
theorem WeightsOrdered.mergeOnce {ft : FreqTable} {f : Forest} (h : WeightsOrdered f) (ok : ForestOk ft f) :
    WeightsOrdered (mergeOnce f) := by
  obtain ⟨-, e⟩ | ⟨a, b, q, perm, ab, bq, e⟩ := ok.mergeOnce_least <;> rw [e]
  · exact h
  · obtain ⟨w, below, above⟩ := h.floor
    have wa : w ≤ a.weight := above a (perm.mem_iff.1 (by simp))
    have wb : w ≤ b.weight := above b (perm.mem_iff.1 (by simp))
    rw [before_iff] at ab
    refine ⟨List.pairwise_append.2 ⟨h.sorted, List.pairwise_singleton .., fun m hm n hn hl _ => ?_⟩,
      b.weight, fun n hn hl => ?_, fun x hx => ?_⟩
    · obtain rfl := List.mem_singleton.1 hn
      have := below m hm hl
      simp only [joinNode]
      omega
    · rcases List.mem_append.1 hn with hn | hn
      · have := below n hn hl
        omega
      · obtain rfl := List.mem_singleton.1 hn
        simp only [joinNode]
        omega
    · rcases List.mem_append.1 hx with hx | hx
      · have := (before_iff b x).1 (bq x hx)
        omega
      · obtain rfl := List.mem_singleton.1 hx
        exact Nat.le_add_left ..

theorem WeightsOrdered.mergeLoop {ft : FreqTable} (n : Nat) {f : Forest} (h : WeightsOrdered f) (ok : ForestOk ft f) :
    WeightsOrdered (mergeLoop n f) := by
  induction n generalizing f with
  | zero => exact h
  | succ n ih => exact ih (h.mergeOnce ok) ok.mergeOnce

/-- The nodes `TB.BUILD` makes have internal weights that do not decrease (41_tree_builder.md R151). -/
theorem builtNodes_weights_sorted (ft : FreqTable) :
    (builtNodes ft).Pairwise fun m n => m.isLeaf = false → n.isLeaf = false → m.weight ≤ n.weight :=
  ((weightsOrdered_leaves ft).mergeLoop _ (forestOk_leaves ft)).sorted

theorem HasTree.weight_le {s : State} (h : HasTree s) {i j : NodeIndex} {m n : Node} (hm : nodeGet s.node i = some m)
    (hn : nodeGet s.node j = some n) (lm : m.isLeaf = false) (ln : n.isLeaf = false) (hij : i.toNat ≤ j.toNat) :
    m.weight ≤ n.weight := by
  rw [h.nodeGet_eq] at hm hn
  rcases hij.eq_or_lt with eq | lt
  · rw [eq, hn] at hm
    rw [Option.some.inj hm]
  · obtain ⟨hi, rfl⟩ := List.getElem?_eq_some_iff.1 hm
    obtain ⟨hj, rfl⟩ := List.getElem?_eq_some_iff.1 hn
    exact List.pairwise_iff_getElem.1 (builtNodes_weights_sorted s.ft) _ _ hi hj lt lm ln

/-- Settles O40: R47 (c) and (f) give the sums, and the merge loop keeps `WeightsOrdered`. -/
theorem weightsAddUpAndDoNotDecrease : Obligations.WeightsAddUpAndDoNotDecrease := by
  intro s inv hp
  have tree := inv.hasTree hp
  have t := tree.treeInvariants
  obtain ⟨r, hr, weighs⟩ := t.rootWeighs
  refine ⟨fun i n hn hl => ?_, ⟨r, hr, weighs, fun one counted => ?_⟩, fun i j m n hm hn => tree.weight_le hm hn⟩
  · obtain ⟨-, -, -, sum⟩ := t.children i n hn hl
    exact sum
  · rw [weighs, ftTotal_eq, one, counted]

/-! ### No node but ROOT weighs the whole table -/

/-- Every weight is positive: a leaf's is its symbol's count, an internal node's a sum (10_state.md R47 (c), (e)). -/
theorem TreeInvariants.weight_pos {s : State} (t : TreeInvariants s) {i : NodeIndex} {n : Node}
    (hn : nodeGet s.node i = some n) : 0 < n.weight := by
  cases hl : n.isLeaf with
  | true =>
    obtain ⟨sy, -, weight, present⟩ := t.leafCount i n hn hl
    exact weight ▸ Nat.pos_of_ne_zero present
  | false =>
    obtain ⟨lt, -, -, a, b, ha, -, sum⟩ := t.children i n hn hl
    have := t.weight_pos ha
    omega
  termination_by i.toNat

/-- A node is lighter than its parent, and so than ROOT, which weighs the sum of the table (41_tree_builder.md R142). -/
theorem TreeInvariants.weight_lt_total {s : State} (t : TreeInvariants s) {i : NodeIndex} {n : Node}
    (hn : nodeGet s.node i = some n) (hr : i ≠ s.root) : n.weight < ftTotal s.ft := by
  have some_i : (nodeGet s.node i).isSome = true := by simp [hn]
  obtain ⟨j, ⟨m, hm, hc⟩, -⟩ := t.owned i some_i hr
  have above := (t.parent_above (ne_nil_of_nodeGet hn) hm hc).1
  have hl : m.isLeaf = false := (mem_links.1 ((isChild_iff (ne_nil_of_nodeGet hn) m).1 hc)).1
  obtain ⟨-, -, -, a, b, ha, hb, sum⟩ := t.children j m hm hl
  have := t.weight_pos ha
  have := t.weight_pos hb
  have lighter : n.weight < m.weight := by
    rcases hc with rfl | rfl
    · obtain rfl := Option.some.inj (ha.symm.trans hn)
      omega
    · obtain rfl := Option.some.inj (hb.symm.trans hn)
      omega
  by_cases root : j = s.root
  · obtain ⟨r, hroot, weighs⟩ := t.rootWeighs
    obtain rfl : m = r := Option.some.inj (hm.symm.trans (root ▸ hroot))
    rwa [← weighs]
  · have := t.valid_lt hm
    exact lighter.trans (t.weight_lt_total hm root)
  termination_by 2 * s.nleaf.toNat - i.toNat

end Sys2Proof.Machine
end

section
/-! PROOF. What `TB.BUILD` checks and what it leaves (41_tree_builder.md R141, R142, R148, R150). -/

namespace Sys2Proof.Machine

/-- The phases in which `TB.BUILD` is legal (10_state.md R32). -/
theorem tbBuild_legal {s : State} (h : s.phase = .idle ∨ s.phase = .load ∨ s.phase = .table) :
    legalIn .tbBuild s.phase = true := by
  rw [← mem_tableLegal]
  simpa [tableLegal] using h

theorem TakesFault.exec {s u : State} {i : Instr} {f : FaultKind} {em : Bool} (hl : legalIn i s.phase = true)
    (h : TakesFault s i f em u) : exec i s = .next (raiseFault f (cmdWord i) em u) := by
  rw [exec_legal hl]
  cases h with
  | badPair hb =>
    rcases hb with rfl | hc
    · simp [bodyOf, ftLoadBody]
    · simp [bodyOf, ftLoadBody, hc]
  | lenFull hf => simp [bodyOf, faByteBody, hf]
  | noTerminator ht => simp [bodyOf, tbBuildBody, ht]
  | totalTooLarge ht hs => simp [bodyOf, tbBuildBody, ht, hs]
  | noByteCode hc => simp [bodyOf, encByteBody, emitCode, hc]
  | noTerminatorCode hc => simp [bodyOf, encEndBody, emitCode, hc]
  | truncated hn hl' => simp [bodyOf, decStepBody, hn, hl', consultOffer, offerBit]
  | truncatedAfterByte hn hl' hs => simp [bodyOf, decStepBody, hn, hl', hs, consultOffer, offerBit]

/-- A command that takes a fault makes fault entry from the state the fault leaves (60_exceptions.md R240). -/
theorem TakesFault.faultEntry {s u : State} {i : Instr} {f : FaultKind} {em : Bool} (hl : legalIn i s.phase = true)
    (h : TakesFault s i f em u) : ∃ t, Machine.exec i s = .next t ∧ FaultEntry u t f.code (cmdWord i) em :=
  ⟨_, h.exec hl, faultEntry_raiseFault ..⟩

/-- A `TB.BUILD` that brings the block to TREE was legal and has completed (41_tree_builder.md R140). -/
theorem tbBuild_to_tree {s t : State} (h : exec .tbBuild s = .next t) (after : t.phase = .tree) (before : s.phase ≠ .tree) :
    legalIn .tbBuild s.phase = true ∧ ftGet s.ft .terminator ≠ 0 ∧ ftTotal s.ft ≤ s.cfg.maxCnt ∧
      t = respond (okResponse RspFlags.zero 0)
        { s with
          node := writeNodes s.node 0 (builtNodes s.ft)
          nleaf := BitVec.ofNat 9 (leaves s.ft).length
          nnode := BitVec.ofNat 10 (builtNodes s.ft).length
          root := builtRoot s.ft
          cur := builtRoot s.ft
          phase := .tree } := by
  obtain ⟨r, ends⟩ := exec_ends h
  cases ends with
  | refused => exact absurd after before
  | outOfPhase | faults => cases after
  | completes legal completes =>
    cases completes with
    | tbBuild terminator fits => exact ⟨legal, terminator, fits, rfl⟩

/-- Under the invariant there is no tree in a phase in which `TB.BUILD` is legal (10_state.md R33). -/
theorem Inv.noTree_of_legal {s : State} (h : Inv s) (legal : legalIn .tbBuild s.phase = true) : NoTree s := by
  have tree := h.tree
  rw [← mem_tableLegal, tableLegal, List.mem_cons, List.mem_cons, List.mem_singleton] at legal
  rcases legal with e | e | e <;> simpa only [TreeOk, e] using tree

/-- A `TB.BUILD` that brings the block to TREE leaves the tree of the table, which is unchanged (41_tree_builder.md R140). -/
theorem Inv.hasTree_of_tbBuild {s t : State} (h : Inv s) (run : exec .tbBuild s = .next t) (after : t.phase = .tree)
    (before : s.phase ≠ .tree) : HasTree t ∧ t.ft = s.ft ∧ t.cfg = s.cfg := by
  obtain ⟨legal, terminator, fits, rfl⟩ := tbBuild_to_tree run after before
  refine ⟨⟨terminator, fits, ?_, rfl, rfl, rfl, ?_⟩, rfl, rfl⟩
  · simp only [respond_node, respond_ft, (h.noTree_of_legal legal).node]
  · obtain ⟨n, hn, -⟩ := builtRoot_weighs s.node terminator
    simp only [respond_node, respond_cur, hn, Option.isSome_some]

/-- In a tree of one leaf the only node is the terminator's leaf (41_tree_builder.md R141). -/
theorem TreeInvariants.sym_of_single {s : State} (t : TreeInvariants s) (hk : s.nleaf.toNat = 1) {i : NodeIndex} {n : Node}
    (hn : nodeGet s.node i = some n) : n.sym = .symbol .terminator := by
  obtain ⟨j, m, hm, -, hs⟩ := t.terminator
  have := t.valid_lt hn
  have := t.valid_lt hm
  obtain rfl : i = j := BitVec.eq_of_toNat_eq (by omega)
  obtain rfl : m = n := Option.some.inj (hm.symm.trans hn)
  exact hs

/-- `FA.END` that brings the block to TABLE has counted the terminator once (40_frequency_analyzer.md R123). -/
theorem faEnd_to_table {s t : State} (h : exec .faEnd s = .next t) (after : t.phase = .table) (before : s.phase ≠ .table) :
    ftGet t.ft .terminator = 1 := by
  obtain ⟨r, ends⟩ := exec_ends h
  cases ends with
  | refused => exact absurd after before
  | outOfPhase | faults => cases after
  | completes _ completes =>
    cases completes with
    | faEnd => exact ftGet_ftSet_same ..

/-- Settles O32: the first check of `TB.BUILD`, and what `FA.END`, TABLE and a tree say of the terminator. -/
theorem tbBuildRejectsATableWithoutTheTerminator : Obligations.TbBuildRejectsATableWithoutTheTerminator := by
  refine ⟨fun s hp absent => (TakesFault.noTerminator absent).faultEntry (tbBuild_legal hp), fun s t run after before => ?_,
    fun s inv hp => (inv.table_accepted (.inl hp)).1, fun s inv hp => ?_⟩
  · rw [faEnd_to_table run after before]
    decide
  · have t := (inv.hasTree hp).treeInvariants
    exact ⟨t.terminator, fun hk _ _ => t.sym_of_single hk⟩

/-- Settles O33: the checks of `TB.BUILD`; ROOT weighs the sum of the table and every other node less
(`TreeInvariants.weight_lt_total`); in TABLE the sum is LEN + 1. -/
theorem tbBuildRejectsAnOverflowingTable : Obligations.TbBuildRejectsAnOverflowingTable := by
  refine ⟨fun s hp large => ⟨fun present => (TakesFault.totalTooLarge present large).faultEntry (tbBuild_legal hp),
    fun absent => (TakesFault.noTerminator absent).faultEntry (tbBuild_legal hp)⟩, fun s t inv run after before i n hn => ?_,
    fun s inv hp => ?_⟩
  · obtain ⟨tree, ft, cfg⟩ := inv.hasTree_of_tbBuild run after before
    have fits := tree.fits
    obtain ⟨r, hr, weighs⟩ := tree.root_spec.1
    rw [← ft, ← cfg]
    have atRoot : i = t.root → n.weight = ftTotal t.ft := fun e => by
      rw [← weighs, Option.some.inj (hn.symm.trans (e ▸ hr))]
    have elsewhere : i ≠ t.root → n.weight < ftTotal t.ft := tree.treeInvariants.weight_lt_total hn
    refine ⟨?_, atRoot, elsewhere⟩
    by_cases e : i = t.root
    · exact (atRoot e).trans_le fits
    · exact (elsewhere e).le.trans fits
  · have counted := inv.table
    simp only [TableOk, hp] at counted
    obtain ⟨one, len⟩ := counted
    exact ⟨by rw [ftTotal_eq, one, len], (inv.table_accepted (.inl hp)).2⟩

/-- Settles O38: a `TB.BUILD` that completes writes NLEAF, NNODE, ROOT and the entries below NNODE from the table. -/
theorem buildIsAFunctionOfTheTable : Obligations.BuildIsAFunctionOfTheTable := by
  intro s s' t t' _ ft run run' before before' after after'
  obtain ⟨-, -, -, rfl⟩ := tbBuild_to_tree run after before
  obtain ⟨-, -, -, rfl⟩ := tbBuild_to_tree run' after' before'
  simp only [respond_nleaf, respond_nnode, respond_root, respond_node, ft, true_and]
  intro i hi
  have lt : i.toNat < (builtNodes s.ft).length := hi.trans_le (Nat.mod_le ..)
  rw [nodeGet_built _ lt, nodeGet_built _ lt]

/-! ### Counts -/

/-- There are as many leaves as symbols present (41_tree_builder.md R143). -/
theorem leaves_length (ft : FreqTable) : (leaves ft).length = (allSymbols.filter fun sy => ftGet ft sy != 0).length := by
  rw [leaves, List.length_filterMap_eq_countP, ← List.countP_eq_length_filter]
  refine List.countP_congr fun sy _ => ?_
  by_cases h : ftGet ft sy = 0 <;> simp [h]

theorem HasTree.nnode_toNat {s : State} (h : HasTree s) : s.nnode.toNat = (builtNodes s.ft).length := by
  have := builtNodes_length_le s.ft
  rw [h.nnode, BitVec.toNat_ofNat]
  omega

/-- The node of each index below NNODE, by where it stands (41_tree_builder.md R150). -/
theorem TreeInvariants.node_at {s : State} (t : TreeInvariants s) {i : NodeIndex} (hi : i.toNat + 1 < 2 * s.nleaf.toNat) :
    ∃ n, nodeGet s.node i = some n ∧
      (i.toNat < s.nleaf.toNat → n.c0 = nilIndex ∧ n.c1 = nilIndex) ∧
      (s.nleaf.toNat ≤ i.toNat → (nodeGet s.node n.c0).isSome = true ∧ (nodeGet s.node n.c1).isSome = true) := by
  obtain ⟨n, hn⟩ := Option.isSome_iff_exists.1 ((t.valid i).2 hi)
  refine ⟨n, hn, fun low => ?_, fun high => ?_⟩
  · have leaf := t.leafLow i n hn low
    exact ⟨child_of_isLeaf leaf false, child_of_isLeaf leaf true⟩
  · have internal : n.isLeaf = false := Bool.eq_false_iff.2 fun leaf => Nat.not_lt.2 high ((t.isLeaf_iff hn).1 leaf)
    obtain ⟨-, -, -, a, b, ha, hb, -⟩ := t.children i n hn internal
    simp [ha, hb]

/-- Settles O39: the number of leaves counts the symbols present; the tree invariants and `follow_length` give the rest. -/
theorem treeCounts : Obligations.TreeCounts := by
  intro s inv hp
  have tree := inv.hasTree hp
  have t := tree.treeInvariants
  have nleaf := tree.nleaf_toNat
  have nnode := tree.nnode_toNat
  have length := tree.length
  have positive := leaves_length_pos tree.terminator
  have atMost := leaves_length_le s.ft
  have root := t.root_toNat
  refine ⟨nleaf.trans (leaves_length s.ft), by omega, by omega, by omega, by omega, root,
    fun i hi => t.node_at (by omega), fun p sy path => ?_⟩
  obtain ⟨j, hj, n, hn, -⟩ := path
  have := t.follow_length hj (by simp [hn])
  omega

end Sys2Proof.Machine
end

section
/-! PROOF. The trees of one and of two leaves (41_tree_builder.md R147, R152), node by node, and the code of the two-leaf tree. -/

namespace Sys2Proof.Machine

/-! ### The leaves of a small table -/

/-- The leaves are the one list of the table's leaf nodes in ascending order of symbol (41_tree_builder.md R143). -/
theorem leaves_eq_of_ascending {ft : FreqTable} {ls : List Node} (asc : ls.Pairwise fun m n => m.sym.num < n.sym.num)
    (mem : ∀ n, n ∈ leaves ft ↔ n ∈ ls) : leaves ft = ls := by
  have nodup : ∀ {l : List Node}, (l.Pairwise fun m n => m.sym.num < n.sym.num) → l.Nodup := fun h =>
    h.imp fun lt e => lt.ne (congrArg (fun n => n.sym.num) e)
  have perm := (List.perm_ext_iff_of_nodup (nodup (leaves_ascending ft)) (nodup asc)).2 mem
  exact perm.eq_of_pairwise (fun _ _ _ _ lt gt => absurd gt lt.asymm) (leaves_ascending ft) asc

/-- A table of the terminator alone has one leaf (41_tree_builder.md R147). -/
theorem leaves_terminator {ft : FreqTable} (present : ftGet ft .terminator ≠ 0)
    (alone : ∀ sy, sy ≠ .terminator → ftGet ft sy = 0) :
    leaves ft = [leafNode .terminator (ftGet ft .terminator)] := by
  refine leaves_eq_of_ascending (List.pairwise_singleton ..) fun n => ?_
  rw [mem_leaves, List.mem_singleton]
  constructor
  · rintro ⟨sy, hs, rfl⟩
    obtain rfl : sy = .terminator := not_not.1 (mt (alone sy) hs)
    rfl
  · rintro rfl
    exact ⟨_, present, rfl⟩

/-- A table of one byte value and the terminator has two leaves, the byte's first (41_tree_builder.md R152). -/
theorem leaves_byte_terminator {ft : FreqTable} {v : Byte} (byte : ftGet ft (.byte v) ≠ 0)
    (terminator : ftGet ft .terminator ≠ 0) (others : ∀ sy, sy ≠ .byte v → sy ≠ .terminator → ftGet ft sy = 0) :
    leaves ft = [leafNode (.byte v) (ftGet ft (.byte v)), leafNode .terminator (ftGet ft .terminator)] := by
  refine leaves_eq_of_ascending (List.pairwise_pair.2 v.isLt) fun n => ?_
  rw [mem_leaves, List.mem_pair]
  constructor
  · rintro ⟨sy, hs, rfl⟩
    by_cases e : sy = .byte v
    · exact .inl (by rw [e])
    · obtain rfl : sy = .terminator := not_not.1 (mt (others sy e) hs)
      exact .inr rfl
  · rintro (rfl | rfl)
    · exact ⟨_, byte, rfl⟩
    · exact ⟨_, terminator, rfl⟩

/-! ### The forests of one and of two leaves -/

/-- One leaf: the loop body never runs (41_tree_builder.md R147). -/
theorem buildForest_single {ft : FreqTable} {x : Node} (h : leaves ft = [x]) :
    buildForest ft = { nodes := [x], queue := [{ weight := x.weight, idx := 0 }] } := by
  rw [buildForest, h]
  rfl

/-- Two leaves: one join, with the lighter leaf on the zero-branch and the first at a tie (41_tree_builder.md R145). -/
theorem buildForest_pair {ft : FreqTable} {x y : Node} (h : leaves ft = [x, y]) :
    buildForest ft =
      { nodes := [x, y, if x.weight ≤ y.weight then joinNode ⟨x.weight, 0⟩ ⟨y.weight, 1⟩
          else joinNode ⟨y.weight, 1⟩ ⟨x.weight, 0⟩]
        queue := [{ weight := x.weight + y.weight, idx := 2 }] } := by
  have order : QEntry.before ⟨x.weight, 0⟩ ⟨y.weight, 1⟩ = true ↔ x.weight ≤ y.weight := by
    rw [before_iff]
    simp only
    omega
  by_cases le : x.weight ≤ y.weight
  · simp [buildForest, h, leafQueue, mergeLoop, mergeOnce, removeMin, order.2 le, le]
  · simp [buildForest, h, leafQueue, mergeLoop, mergeOnce, removeMin, mt order.1 le, le, Nat.add_comm]

/-- Settles O37: the forest is the terminator's leaf alone, and the table's sum is its count. -/
theorem singleLeafTree : Obligations.SingleLeafTree := by
  intro s hp present alone fits
  have one := leaves_terminator present alone
  have forest := buildForest_single one
  have nodes : builtNodes s.ft = [leafNode .terminator (ftGet s.ft .terminator)] := congrArg Forest.nodes forest
  have root : builtRoot s.ft = 0#10 := by rw [builtRoot, forest]
  have total : ftTotal s.ft = ftGet s.ft .terminator := by rw [← leaves_weight_sum, one]; rfl
  have builds := Completes.tbBuild (s := s) present (total ▸ fits)
  refine ⟨_, builds.exec (tbBuild_legal hp), answers_ok 0 rfl, ?_, ?_, ?_, ?_⟩
  · rw [respond_node, nodeGet_built s.node (by rw [nodes]; exact Nat.one_pos), nodes]
    rfl
  · rw [respond_root, root]
  · rw [respond_nnode, nodes]
    rfl
  · rw [respond_nleaf, one]
    rfl

/-! ### One byte value repeated -/

/-- The walk records the path to a leaf (42_code_map_generator.md R161). -/
theorem walk_leafNode {ar : NodeArena} {i : NodeIndex} {sy : Symbol} {w : Nat} (h : nodeGet ar i = some (leafNode sy w))
    (d : Nat) (p : BitString) (cm : CodeMap) : walk ar (d + 1) i p cm = .ok (codeSet cm sy p) := by
  rw [walk]
  simp only [h, leafNode_isLeaf, if_true]
  rfl

/-- The code map of a tree of two leaves: one bit each, 0 for the zero-branch (42_code_map_generator.md R161). -/
theorem generatedMap_pair {ar : NodeArena} {root : NodeIndex} {n : Node} {a b : Symbol} {wa wb : Nat}
    (hn : nodeGet ar root = some n) (hl : n.isLeaf = false) (ha : nodeGet ar n.c0 = some (leafNode a wa))
    (hb : nodeGet ar n.c1 = some (leafNode b wb)) (hab : a ≠ b) :
    ∃ cm, generatedMap ar root = .ok cm ∧ codeGet cm a = some [false] ∧ codeGet cm b = some [true] := by
  refine ⟨codeSet (codeSet emptyMap a [false]) b [true], ?_, ?_, codeGet_codeSet_same ..⟩
  · rw [generatedMap, walk]
    simp only [hn, hl, walk_leafNode ha 255, walk_leafNode hb 255]
    rfl
  · rw [codeGet_codeSet_ne _ _ hab, codeGet_codeSet_same]

/-- The table of one byte value counted n times, after `FA.END`. -/
def repeatTable (v : Byte) (n : Nat) : FreqTable := ftSet (countBytes (List.replicate n v) emptyTable) .terminator 1

theorem occurrences_replicate (v w : Byte) (n : Nat) :
    occurrences (List.replicate n v) w = if w = v then n else 0 := by
  by_cases e : w = v
  · simp [occurrences, e]
  · simp [occurrences, e, Ne.symm e]

theorem ftGet_repeatTable_byte (v w : Byte) (n : Nat) : ftGet (repeatTable v n) (.byte w) = if w = v then n else 0 := by
  rw [repeatTable, ftGet_ftSet_ne _ _ Symbol.noConfusion, ftGet_countBytes, ftGet_empty, Nat.zero_add,
    occurrences_replicate]

@[simp] theorem ftGet_repeatTable_terminator (v : Byte) (n : Nat) : ftGet (repeatTable v n) .terminator = 1 :=
  ftGet_ftSet_same ..

@[simp] theorem ftGet_repeatTable_same (v : Byte) (n : Nat) : ftGet (repeatTable v n) (.byte v) = n := by
  rw [ftGet_repeatTable_byte, if_pos rfl]

theorem ftGet_repeatTable_other {v : Byte} {sy : Symbol} (n : Nat) (hb : sy ≠ .byte v) (ht : sy ≠ .terminator) :
    ftGet (repeatTable v n) sy = 0 := by
  cases sy with
  | byte w => rw [ftGet_repeatTable_byte, if_neg fun e => hb (congrArg Symbol.byte e)]
  | terminator => exact absurd rfl ht

/-- The internal node of the tree of a byte value counted n times (41_tree_builder.md R152). -/
def repeatRoot (n : Nat) : Node := if n ≤ 1 then joinNode ⟨n, 0⟩ ⟨1, 1⟩ else joinNode ⟨1, 1⟩ ⟨n, 0⟩

theorem leaves_repeatTable (v : Byte) {n : Nat} (hn : 1 ≤ n) :
    leaves (repeatTable v n) = [leafNode (.byte v) n, leafNode .terminator 1] := by
  have two := leaves_byte_terminator (ft := repeatTable v n) (v := v) (by simp; omega) (by simp)
    fun sy => ftGet_repeatTable_other n
  rwa [ftGet_repeatTable_same, ftGet_repeatTable_terminator] at two

theorem builtNodes_repeatTable (v : Byte) {n : Nat} (hn : 1 ≤ n) :
    builtNodes (repeatTable v n) = [leafNode (.byte v) n, leafNode .terminator 1, repeatRoot n] :=
  congrArg Forest.nodes (buildForest_pair (leaves_repeatTable v hn))

theorem builtRoot_repeatTable (v : Byte) {n : Nat} (hn : 1 ≤ n) : builtRoot (repeatTable v n) = 2#10 := by
  rw [builtRoot, buildForest_pair (leaves_repeatTable v hn)]

/-- The first pass over a byte value repeated, and `TB.BUILD`, in a fresh session: the three nodes (41_tree_builder.md
R152). -/
theorem Ready.build_repeat {s : State} (ready : Ready s) (v : Byte) {n : Nat} (hn : 1 ≤ n) (fits : n ≤ s.cfg.maxCnt - 1) :
    ∃ t, issueAll (firstPass (List.replicate n v) ++ [.tbBuild]) s = .ok () t ∧ t.phase = .tree ∧
      t.ft = repeatTable v n ∧ t.nleaf = 2#9 ∧ t.root = 2#10 ∧
      nodeGet t.node 0#10 = some (leafNode (.byte v) n) ∧
      nodeGet t.node 1#10 = some (leafNode .terminator 1) ∧
      nodeGet t.node 2#10 = some (repeatRoot n) := by
  obtain ⟨empty, zero⟩ := ready.empty
  obtain ⟨u, run, frame⟩ := issueAll_firstPass (List.replicate n v) (.inl ready.2)
    (by rwa [zero, Nat.zero_add, List.length_replicate])
  have table : u.ft = repeatTable v n := by rw [frame, empty]; rfl
  have total : ftTotal u.ft = n + 1 := by rw [table, repeatTable, ftTotal_firstPass, List.length_replicate]
  have nodes := builtNodes_repeatTable v hn
  have accepted : ftTotal u.ft ≤ u.cfg.maxCnt := by
    rw [total, show u.cfg = s.cfg by rw [frame]]
    omega
  have builds := (Completes.tbBuild (s := u) (by simp [table]) accepted).issueAll_cons rfl (by rw [frame]; rfl) []
  have node : ∀ i : NodeIndex, i.toNat < 3 → nodeGet (writeNodes u.node 0 (builtNodes u.ft)) i =
      [leafNode (.byte v) n, leafNode .terminator 1, repeatRoot n][i.toNat]? := fun i hi => by
    rw [nodeGet_built u.node (by rw [table, nodes]; exact hi), table, nodes]
  refine ⟨_, (issueAll_append_ok run _).trans builds, rfl, table, ?_, ?_, node 0#10 (by decide), node 1#10 (by decide),
    node 2#10 (by decide)⟩
  · rw [respond_nleaf, table, leaves_repeatTable v hn]
    rfl
  · rw [respond_root, table, builtRoot_repeatTable v hn]

/-- Settles O41: the tree is `repeatRoot` over the two leaves, and the code map of a tree of two leaves has one bit for each. -/
theorem twoLeafTree : Obligations.TwoLeafTree := by
  intro v n s ready positive fits
  obtain ⟨t, run, phase, table, nleaf, root, byteLeaf, termLeaf, join⟩ := ready.build_repeat v positive fits
  have legal : legalIn .cmGen t.phase = true := by rw [phase]; rfl
  have other : ∀ sy : Symbol, sy ≠ .byte v → sy ≠ .terminator → ftGet t.ft sy = 0 := fun sy hb ht => by
    rw [table, ftGet_repeatTable_other n hb ht]
  have ends : ∀ {cm}, generatedMap t.node 2#10 = .ok cm → exec .cmGen t = .next _ := fun code =>
    (Completes.cmGen (root ▸ code)).exec legal
  have count : ftGet t.ft (.byte v) = n := by rw [table, ftGet_repeatTable_same]
  have once : ftGet t.ft .terminator = 1 := by rw [table, ftGet_repeatTable_terminator]
  by_cases one : n ≤ 1
  · obtain rfl : n = 1 := by omega
    obtain ⟨cm, code, byteCode, termCode⟩ := generatedMap_pair join rfl byteLeaf termLeaf Symbol.noConfusion
    exact ⟨t, _, run, ends code, nleaf, count, once, other, byteLeaf, termLeaf, fun _ => ⟨join, byteCode, termCode⟩,
      fun two => absurd two (by decide)⟩
  · have shape : repeatRoot n = joinNode ⟨1, 1⟩ ⟨n, 0⟩ := if_neg one
    rw [shape] at join
    obtain ⟨cm, code, termCode, byteCode⟩ := generatedMap_pair join rfl termLeaf byteLeaf Symbol.noConfusion
    exact ⟨t, _, run, ends code, nleaf, count, once, other, byteLeaf, termLeaf, fun e => absurd e.le one,
      fun _ => ⟨by rw [join, joinNode, Nat.add_comm], byteCode, termCode⟩⟩

end Sys2Proof.Machine
end

section
/-! PROOF. `CM.GEN` in TREE (42_code_map_generator.md R160 to R164): the walk of a tree ends within its depth, and a tree has only
one path from ROOT to a node, so the code map made holds the path of each symbol of the table. -/

namespace Sys2Proof.Machine

/-! ### The walk of a tree ends -/

/-- At a leaf of a tree the walk ends (42_code_map_generator.md R161). -/
theorem HasTree.walk_leaf_ok {s : State} (h : HasTree s) {i : NodeIndex} {n : Node} (hn : nodeGet s.node i = some n)
    (hl : n.isLeaf = true) (d : Nat) (p : BitString) (cm : CodeMap) : ∃ cm', walk s.node (d + 1) i p cm = .ok cm' := by
  obtain ⟨sy, -, rfl⟩ := h.leaf_eq hn hl
  exact ⟨_, walk_leafNode hn d p cm⟩

/-- At an internal node the walk ends where those of its two branches do (42_code_map_generator.md R161). -/
theorem walk_internal {ar : NodeArena} {d : Nat} {i : NodeIndex} {n : Node} {p : BitString} {cm c cm' : CodeMap}
    (hn : nodeGet ar i = some n) (hl : n.isLeaf = false) (h0 : walk ar d n.c0 (p ++ [false]) cm = .ok c)
    (h1 : walk ar d n.c1 (p ++ [true]) c = .ok cm') : walk ar (d + 1) i p cm = .ok cm' := by
  rw [walk]
  simp [hn, hl, h0, h1]

/-- The walk from a node of a tree ends within as many levels as there are internal nodes from that node down: a child stands
below its parent (10_state.md R47 (c)). -/
theorem HasTree.walk_ok {s : State} (h : HasTree s) {d : Nat} {i : NodeIndex} {n : Node} (hn : nodeGet s.node i = some n)
    (hd : i.toNat < s.nleaf.toNat + d) (p : BitString) (cm : CodeMap) : ∃ cm', walk s.node (d + 1) i p cm = .ok cm' := by
  induction d generalizing i n p cm with
  | zero => exact h.walk_leaf_ok hn ((h.isLeaf_iff hn).2 hd) 0 p cm
  | succ d ih =>
    cases hl : n.isLeaf with
    | true => exact h.walk_leaf_ok hn hl (d + 1) p cm
    | false =>
      obtain ⟨⟨a, ha⟩, lt0⟩ := h.treeInvariants.child_valid hn hl false
      obtain ⟨⟨b, hb⟩, lt1⟩ := h.treeInvariants.child_valid hn hl true
      obtain ⟨c, h0⟩ := ih ha (by omega) (p ++ [false]) cm
      obtain ⟨cm', h1⟩ := ih hb (by omega) (p ++ [true]) c
      exact ⟨cm', walk_internal hn hl h0 h1⟩

/-- The walk from ROOT ends: the arena holds no tree deeper than `walkDepth` allows (41_tree_builder.md R150). -/
theorem HasTree.generatedMap_ok {s : State} (h : HasTree s) : ∃ cm, generatedMap s.node s.root = .ok cm := by
  obtain ⟨r, hr, -⟩ := h.root_spec.1
  have root := h.treeInvariants.root_toNat
  have nleaf := h.nleaf_toNat
  have atMost := leaves_length_le s.ft
  exact h.walk_ok (d := maxLen) hr (by simp only [maxLen]; omega) [] emptyMap

/-- `CM.GEN` finds a code map in a tree, and it has the code-map invariants (42_code_map_generator.md R162, R163). -/
theorem HasTree.exists_codeMap {s : State} (h : HasTree s) :
    ∃ cm, generatedMap s.node s.root = .ok cm ∧ CodeInvariants { s with code := cm } := by
  obtain ⟨cm, hm⟩ := h.generatedMap_ok
  have tree : HasTree { s with code := cm } := { h with }
  exact ⟨cm, hm, tree.treeInvariants.codeInvariants hm⟩

/-! ### A tree has one path to each node -/

/-- The last step of a path is from a node to its child. -/
theorem follow_concat {ar : NodeArena} {i j : NodeIndex} {p : BitString} {b : Bit} (h : follow ar i (p ++ [b]) = some j) :
    ∃ k n, follow ar i p = some k ∧ nodeGet ar k = some n ∧ n.child b = j := by
  rw [follow_append] at h
  obtain ⟨k, hk, hj⟩ := Option.bind_eq_some_iff.1 h
  cases hn : nodeGet ar k with
  | none => simp [follow, hn] at hj
  | some n =>
    rw [follow_cons hn] at hj
    exact ⟨k, n, hk, hn, Option.some.inj hj⟩

theorem child_eq_c0_or_c1 (n : Node) (b : Bit) : n.c0 = n.child b ∨ n.c1 = n.child b := by
  cases b
  · exact .inl rfl
  · exact .inr rfl

/-- A valid node is the child of one node only, on one branch only (10_state.md R47 (c), (d)). -/
theorem TreeInvariants.parent_unique {s : State} (t : TreeInvariants s) {i j k : NodeIndex} {m n : Node} {b c : Bit}
    (hi : (nodeGet s.node i).isSome = true) (hm : nodeGet s.node j = some m) (hn : nodeGet s.node k = some n)
    (hb : m.child b = i) (hc : n.child c = i) : j = k ∧ b = c := by
  have mi : m.c0 = i ∨ m.c1 = i := hb ▸ child_eq_c0_or_c1 m b
  have ni : n.c0 = i ∨ n.c1 = i := hc ▸ child_eq_c0_or_c1 n c
  have notRoot : i ≠ s.root := fun e => mi.elim (e ▸ (t.rootFree.2 j m hm).1) (e ▸ (t.rootFree.2 j m hm).2)
  obtain ⟨o, -, only⟩ := t.owned i hi notRoot
  obtain rfl : j = k := (only j ⟨m, hm, mi⟩).trans (only k ⟨n, hn, ni⟩).symm
  obtain rfl : m = n := Option.some.inj (hm.symm.trans hn)
  obtain ⟨v, hv⟩ := Option.isSome_iff_exists.1 hi
  have internal : m.isLeaf = false := (mem_links.1 ((isChild_iff (ne_nil_of_nodeGet hv) m).1 mi)).1
  obtain ⟨-, -, distinct, -⟩ := t.children j m hm internal
  refine ⟨rfl, ?_⟩
  cases b <;> cases c
  · rfl
  · exact absurd (hb.trans hc.symm) distinct
  · exact absurd (hc.trans hb.symm) distinct
  · rfl

/-- No path but the empty one leads from ROOT back to it: ROOT is no node's child (10_state.md R47 (d)). -/
theorem TreeInvariants.follow_root {s : State} (t : TreeInvariants s) {p : BitString}
    (h : follow s.node s.root p = some s.root) : p = [] := by
  rcases List.eq_nil_or_concat' p with e | ⟨q, b, rfl⟩
  · exact e
  · obtain ⟨k, n, -, hn, hc⟩ := follow_concat h
    obtain ⟨free0, free1⟩ := t.rootFree.2 k n hn
    exact (hc ▸ child_eq_c0_or_c1 n b).elim (absurd · free0) (absurd · free1)

/-- Two paths from ROOT to one valid node are equal: they come through its one parent, on one branch, and so on up to ROOT. -/
theorem TreeInvariants.follow_unique {s : State} (t : TreeInvariants s) {p q : BitString} {i : NodeIndex}
    (hp : follow s.node s.root p = some i) (hq : follow s.node s.root q = some i) (hi : (nodeGet s.node i).isSome = true) :
    p = q := by
  induction p using List.reverseRecOn generalizing q i with
  | nil =>
    obtain rfl := Option.some.inj hp
    exact (t.follow_root hq).symm
  | append_singleton p b ih =>
    obtain ⟨j, m, hj, hm, hb⟩ := follow_concat hp
    rcases List.eq_nil_or_concat' q with rfl | ⟨q, c, rfl⟩
    · obtain rfl := Option.some.inj hq
      exact t.follow_root hp
    · obtain ⟨k, n, hk, hn, hc⟩ := follow_concat hq
      obtain ⟨rfl, rfl⟩ := t.parent_unique hi hm hn hb hc
      rw [ih hj hk (by simp [hm])]

/-- A symbol has at most one path from ROOT to its leaf (42_code_map_generator.md R162). -/
theorem HasTree.pathTo_unique {s : State} (h : HasTree s) {p q : BitString} {sy : Symbol} (hp : pathTo s p sy)
    (hq : pathTo s q sy) : q = p := by
  obtain ⟨i, hi, leaf⟩ := hp
  obtain ⟨j, hj, leaf'⟩ := hq
  obtain rfl := h.leafOf_unique leaf leaf'
  obtain ⟨n, hn, -⟩ := leaf
  exact h.treeInvariants.follow_unique hj hi (by simp [hn])

/-! ### `CM.GEN` -/

/-- In TREE `CM.GEN` completes with the code map of the tree (42_code_map_generator.md R160). -/
theorem exec_cmGen {s : State} {cm : CodeMap} (hp : s.phase = .tree) (hm : generatedMap s.node s.root = .ok cm) :
    exec .cmGen s = .next (respond (okResponse RspFlags.zero 0) { s with code := cm, phase := .mapped }) :=
  (Completes.cmGen hm).exec (by rw [hp]; rfl)

/-- Settles O42: the walk of the tree ends, the code map made has the invariants R49 (a) and (b), and no other path leads to
the leaf. -/
theorem cmGenGivesEverySymbolItsPath : Obligations.CmGenGivesEverySymbolItsPath := by
  intro s inv hp
  have tree := inv.hasTree (by simp [treePhase, hp])
  obtain ⟨cm, hm, codes⟩ := tree.exists_codeMap
  refine ⟨_, exec_cmGen hp hm, answers_ok 0 rfl, rfl, fun sy => ⟨fun absent => ?_, fun present => ?_⟩⟩
  · exact Option.not_isSome_iff_eq_none.1 fun coded => (codes.present sy).1 coded absent
  · obtain ⟨p, hc⟩ := Option.isSome_iff_exists.1 ((codes.present sy).2 present)
    have path : pathTo s p sy := codes.path sy p hc
    exact ⟨p, hc, path, fun _ => tree.pathTo_unique path⟩

/-- Settles O44: ROOT is the one node, and the code map made has the invariant R49 (e). -/
theorem singleLeafCodeIsEmptyAndPresent : Obligations.SingleLeafCodeIsEmptyAndPresent := by
  intro s inv hp one
  have tree := inv.hasTree (by simp [treePhase, hp])
  have t := tree.treeInvariants
  obtain ⟨r, hr, -⟩ := tree.root_spec.1
  obtain ⟨cm, hm, codes⟩ := tree.exists_codeMap
  refine ⟨⟨r, hr, (t.root_isLeaf_iff hr).2 one, t.sym_of_single one hr⟩, _, exec_cmGen hp hm,
    (codes.single one .terminator []).2 ⟨rfl, rfl⟩, fun sy other => ?_⟩
  exact Option.eq_none_iff_forall_ne_some.2 fun p hc => other ((codes.single one sy p).1 hc).1

end Sys2Proof.Machine
end

section
/-! PROOF. `ENC.END` where the encoder runs (43_encoder.md R172 to R174): the code map there is that of an accepted table, in which
the terminator stands. -/

namespace Sys2Proof.Machine

/-- Where the encoder runs, the code map has the invariants of 10_state.md R49. -/
theorem Inv.codeInvariants {s : State} (h : Inv s) (hp : s.phase = .mapped ∨ s.phase = .encode) : CodeInvariants s :=
  codeInvariantsHoldWhereverACodeMapExists s h (hp.imp_right .inl)

/-- The terminator has a code: a table with a tree holds it (10_state.md R49 (a)). -/
theorem Inv.terminator_coded {s : State} (h : Inv s) (hp : s.phase = .mapped ∨ s.phase = .encode) :
    (codeGet s.code .terminator).isSome = true := by
  obtain ⟨tree, -⟩ := h.hasTree_hasCode (hp.imp_right .inl)
  exact ((h.codeInvariants hp).present .terminator).2 tree.terminator

/-- `ENC.END` with a code for the terminator appends that code and completes in DONE (43_encoder.md R172). -/
theorem exec_encEnd {s : State} {c : BitString} (hp : s.phase = .mapped ∨ s.phase = .encode)
    (hc : codeGet s.code .terminator = some c) :
    exec .encEnd s = .next (respond (okResponse { consumed := false, emitted := false, done := true } c.length)
      { putBits c s with phase := .done }) :=
  (Completes.encEnd hc).exec (by simpa [legalIn] using hp)

/-- Settles O46: the terminator's count is not 0, so its code is present and `ENC.END` has it to emit. -/
theorem terminatorAlwaysHasACode : Obligations.TerminatorAlwaysHasACode := by
  intro s inv hp
  have coded := inv.terminator_coded hp
  obtain ⟨c, hc⟩ := Option.isSome_iff_exists.1 coded
  exact ⟨coded, _, exec_encEnd hp hc, rfl⟩

/-- Settles O47: with one leaf the terminator's code is empty (10_state.md R49 (e)), so nothing is appended and the count of bits
answered is 0. -/
theorem emptyInputEncodesToNothing : Obligations.EmptyInputEncodesToNothing := by
  intro s inv hp one
  have empty : codeGet s.code .terminator = some [] := ((inv.codeInvariants (.inl hp)).single one .terminator []).2 ⟨rfl, rfl⟩
  exact ⟨_, exec_encEnd (.inl hp) empty, ⟨_, rfl, rfl, rfl, rfl⟩, List.append_nil s.bitout, rfl⟩

end Sys2Proof.Machine
end

section
/-! PROOF. `DEC.STEP` and the decode loop (44_decoder.md R181 to R190): the outcomes of a step, the node at which a bit is consulted,
and the descent along a code, by which decoding inverts encoding. -/

namespace Sys2Proof.Machine

/-! ### The outcomes of a step -/

/-- The phases in which `DEC.STEP` is legal (10_state.md R32). -/
theorem decStep_legal_iff (o : Offer) (p : Phase) :
    legalIn (.decStep o) p = true ↔ p = .tree ∨ p = .mapped ∨ p = .decode := by
  rw [← mem_tableLegal]
  simp [tableLegal]

/-- The flags of a step that emits a byte and takes a bit (30_encoding.md R95). -/
theorem consumed_emitted_bits : RspFlags.bits { consumed := true, emitted := true, done := false } = 3#3 := by decide

/-- Settles O49: each row is a way to complete (`Completes`) or a fault to take (`TakesFault`), with its effect. -/
theorem decodeStepOutcomes : Obligations.DecodeStepOutcomes := by
  intro s n hp hn
  have legal := fun o => (decStep_legal_iff o s.phase).2 hp
  refine ⟨fun hl hs o => ?_, fun v m o b hl hs hm ho hc => ?_, fun v hl hs => ?_, fun o b hl ho hc => ?_, fun hl => ?_⟩
  · exact ⟨_, (Completes.decDone hn hl hs).exec (legal o), ⟨_, rfl, rfl, rfl, rfl⟩, rfl⟩
  · exact ⟨_, (Completes.decEmit hn hl hs ho hm hc).exec (legal o), ⟨_, rfl, rfl, consumed_emitted_bits, rfl⟩, rfl⟩
  · exact (TakesFault.truncatedAfterByte hn hl hs).faultEntry (legal .endMark)
  · exact ⟨_, (Completes.decMove hn hl ho hc).exec (legal o), ⟨_, rfl, rfl, rfl, rfl⟩, rfl⟩
  · exact (TakesFault.truncated hn hl).faultEntry (legal .endMark)

/-! ### Where a step consults the offer -/

/-- A step from `s` consults the offer at a node, after it has emitted these bytes: at the cursor on an internal node, at ROOT
after the byte of a byte leaf (44_decoder.md R181). -/
inductive Consults (s : State) : NodeIndex → List Byte → Prop where
  | internal {n : Node} (hn : nodeGet s.node s.cur = some n) (hl : n.isLeaf = false) : Consults s s.cur []
  | byteLeaf {v : Byte} (hv : leafOf s.node s.cur (.byte v)) : Consults s s.root [v]

/-- On a bit the step emits what is due and goes on to a child of the node that consults it (44_decoder.md R182). -/
theorem Consults.completes {s : State} {i : NodeIndex} {q : List Byte} (h : Consults s i q) {o : Offer} {b : Bit} {m : Node}
    (ho : offerBit o = some b) (hm : nodeGet s.node i = some m) (hc : m.child b ≠ nilIndex) :
    ∃ fl d, fl.consumed = true ∧ fl.done = false ∧
      Completes s (.decStep o) fl d { s with byteout := s.byteout ++ q, cur := m.child b, phase := .decode } := by
  cases h with
  | internal hn hl =>
    obtain rfl := Option.some.inj (hn.symm.trans hm)
    rw [List.append_nil]
    exact ⟨_, _, rfl, rfl, .decMove hn hl ho hc⟩
  | byteLeaf hv =>
    obtain ⟨n, hn, hl, hs⟩ := hv
    exact ⟨_, _, rfl, rfl, .decEmit hn hl hs ho hm hc⟩

/-- At the end of the source the step takes TruncatedStream (44_decoder.md R184). -/
theorem Consults.truncated {s : State} {i : NodeIndex} {q : List Byte} (h : Consults s i q) :
    ∃ em u, TakesFault s (.decStep .endMark) .truncatedStream em u := by
  cases h with
  | internal hn hl => exact ⟨_, _, .truncated hn hl⟩
  | byteLeaf hv =>
    obtain ⟨n, hn, hl, hs⟩ := hv
    exact ⟨_, _, .truncatedAfterByte hn hl hs⟩

/-- In a tree with a node that is not the terminator's leaf ROOT is internal (44_decoder.md R186). -/
theorem TreeInvariants.root_internal {s : State} (t : TreeInvariants s) {i : NodeIndex} {n : Node}
    (hn : nodeGet s.node i = some n) (hs : n.sym ≠ .symbol .terminator) :
    ∃ m, nodeGet s.node s.root = some m ∧ m.isLeaf = false := by
  obtain ⟨m, hm⟩ := Option.isSome_iff_exists.1 t.rootFree.1
  exact ⟨m, hm, Bool.eq_false_iff.2 fun hl => hs (t.sym_of_single ((t.root_isLeaf_iff hm).1 hl) hn)⟩

/-- In a tree a step stands at the terminator's leaf, or consults the offer at an internal node (44_decoder.md R186). -/
theorem HasTree.terminator_or_consults {s : State} (h : HasTree s) :
    leafOf s.node s.cur .terminator ∨ ∃ i q m, Consults s i q ∧ nodeGet s.node i = some m ∧ m.isLeaf = false := by
  obtain ⟨n, hn⟩ := Option.isSome_iff_exists.1 h.cur
  cases hl : n.isLeaf with
  | false => exact .inr ⟨s.cur, [], n, .internal hn hl, hn, hl⟩
  | true =>
    obtain ⟨sy, hs, -⟩ := h.treeInvariants.leafCount s.cur n hn hl
    cases sy with
    | terminator => exact .inl ⟨n, hn, hl, hs⟩
    | byte v =>
      obtain ⟨m, hm, internal⟩ := h.treeInvariants.root_internal hn (by simp [hs])
      exact .inr ⟨s.root, [v], m, .byteLeaf ⟨n, hn, hl, hs⟩, hm, internal⟩

/-- In a tree a step completes on every bit and leaves the cursor on a valid node (44_decoder.md R186). -/
theorem HasTree.decStep_bit {s : State} (h : HasTree s) {o : Offer} {b : Bit} (hl : legalIn (.decStep o) s.phase = true)
    (ho : offerBit o = some b) :
    ∃ t, exec (.decStep o) s = .next t ∧ (nodeGet t.node t.cur).isSome = true ∧ t.phase ≠ .fault := by
  obtain ⟨n, hn, leaf, hs⟩ | ⟨i, q, m, consults, hm, internal⟩ := h.terminator_or_consults
  · exact ⟨_, (Completes.decDone hn leaf hs).exec hl, h.cur, nofun⟩
  · obtain ⟨⟨c, hc⟩, -⟩ := h.treeInvariants.child_valid hm internal b
    obtain ⟨fl, d, -, -, completes⟩ := consults.completes ho hm (ne_nil_of_nodeGet hc)
    exact ⟨_, completes.exec hl, Option.isSome_iff_exists.2 ⟨c, hc⟩, nofun⟩

/-- In a tree a step never stops: it completes or takes TruncatedStream (44_decoder.md R185). -/
theorem HasTree.decStep_next {s : State} (h : HasTree s) {o : Offer} (hl : legalIn (.decStep o) s.phase = true) :
    ∃ t, exec (.decStep o) s = .next t := by
  cases ho : offerBit o with
  | some b =>
    obtain ⟨t, run, -⟩ := h.decStep_bit hl ho
    exact ⟨t, run⟩
  | none =>
    obtain rfl : o = .endMark := by
      cases o with
      | endMark => rfl
      | bit0 | bit1 => cases ho
    obtain ⟨n, hn, leaf, hs⟩ | ⟨i, q, m, consults, -⟩ := h.terminator_or_consults
    · exact ⟨_, (Completes.decDone hn leaf hs).exec hl⟩
    · obtain ⟨em, u, faults⟩ := consults.truncated
      exact ⟨_, faults.exec hl⟩

/-- Where `DEC.STEP` is legal there is a tree (10_state.md R33). -/
theorem Inv.hasTree_of_decStep {s : State} (h : Inv s) (hp : s.phase = .tree ∨ s.phase = .mapped ∨ s.phase = .decode) :
    HasTree s :=
  h.hasTree (by rcases hp with e | e | e <;> rw [e] <;> rfl)

/-- Settles O51: a leaf that is not the terminator's makes two leaves, so ROOT is internal, and in a tree the children of an
internal node are valid. -/
theorem descentStaysInTheTree : Obligations.DescentStaysInTheTree := by
  intro s n inv hp hn
  have tree := inv.hasTree_of_decStep hp
  have valid := fun i m hm internal b =>
    Option.isSome_iff_exists.2 (tree.treeInvariants.child_valid (i := i) (n := m) hm internal b).1
  exact ⟨fun _ hs => tree.treeInvariants.root_internal hn hs,
    fun i m hm internal => ⟨valid i m hm internal false, valid i m hm internal true⟩,
    fun o b ho => tree.decStep_bit ((decStep_legal_iff o s.phase).2 hp) ho⟩

/-- Before the decoder moves it the cursor stands at ROOT (10_state.md R33). -/
theorem Inv.cur_eq_root {s : State} (h : Inv s) (hp : s.phase = .tree ∨ s.phase = .mapped) : s.cur = s.root := by
  have tree := h.tree
  rcases hp with e | e <;> simp only [TreeOk, e] at tree <;> exact tree.2

/-- Settles O50: with one leaf the cursor stands on the terminator's; and a step is out of phase, refused, or one in a tree. -/
theorem singleLeafDecodesToNothing : Obligations.SingleLeafDecodesToNothing := by
  refine ⟨fun s o inv hp one => ?_, fun s o inv => ?_⟩
  · obtain ⟨leaf, -⟩ := singleLeafCodeIsEmptyAndPresent s inv hp one
    have atRoot := inv.cur_eq_root (.inl hp)
    obtain ⟨n, hn, hl, hs⟩ := atRoot ▸ leaf
    have done := (Completes.decDone hn hl hs).exec ((decStep_legal_iff o s.phase).2 (.inl hp))
    exact ⟨leaf, atRoot, _, done, ⟨_, rfl, rfl, rfl, rfl⟩, rfl, rfl⟩
  · cases hl : legalIn (.decStep o) s.phase with
    | true => exact (inv.hasTree_of_decStep ((decStep_legal_iff o s.phase).1 hl)).decStep_next hl
    | false =>
      obtain ⟨-, run⟩ | ⟨-, run⟩ := exec_not_legal hl
      · exact ⟨_, run⟩
      · exact ⟨_, run⟩

/-! ### The decode loop -/

/-- The bit a source shows first is the one offered (46_host_sequences.md R212). -/
@[simp] theorem offerBit_peek_cons (b : Bit) (src : BitString) : offerBit (peek (b :: src)) = some b := by
  cases b <;> rfl

/-- The loop after a step that completes: it ends where the step is done, else it goes on (46_host_sequences.md R212). -/
theorem Completes.decodeLoop_succ {s u : State} {src : BitString} {fl : RspFlags} {d : Nat}
    (h : Completes s (.decStep (peek src)) fl d u) (hp : s.phase = .tree ∨ s.phase = .mapped ∨ s.phase = .decode)
    (fuel n : Nat) :
    decodeLoop (fuel + 1) n src s =
      if fl.done then .done (respond (okResponse fl d) u) (advance (okResponse fl d) src) (n + 1)
      else decodeLoop fuel (n + 1) (advance (okResponse fl d) src) (respond (okResponse fl d) u) := by
  have run : issue (.decStep (peek src)) s = .next (respond (okResponse fl d) u) :=
    (issue_eq_exec rfl).trans (h.exec ((decStep_legal_iff (peek src) s.phase).2 hp))
  simp [decodeLoop, run, okResponse]

/-- At the terminator's leaf the loop ends and the source is not advanced (44_decoder.md R183). -/
theorem decodeLoop_terminator {s : State} (h : leafOf s.node s.cur .terminator)
    (hp : s.phase = .tree ∨ s.phase = .mapped ∨ s.phase = .decode) (fuel n : Nat) (src : BitString) :
    ∃ t, decodeLoop (fuel + 1) n src s = .done t src (n + 1) ∧ t.byteout = s.byteout ∧ t.fsticky = s.fsticky := by
  obtain ⟨m, hm, hl, hs⟩ := h
  exact ⟨_, (Completes.decDone hm hl hs).decodeLoop_succ hp fuel n, rfl, rfl⟩

/-- Over one bit the loop takes one step and the bit (44_decoder.md R183). -/
theorem Consults.decodeLoop_bit {s : State} {i : NodeIndex} {q : List Byte} {m : Node} {b : Bit} (h : Consults s i q)
    (hp : s.phase = .tree ∨ s.phase = .mapped ∨ s.phase = .decode) (hm : nodeGet s.node i = some m)
    (hc : m.child b ≠ nilIndex) (fuel n : Nat) (src : BitString) :
    ∃ r, decodeLoop (fuel + 1) n (b :: src) s = decodeLoop fuel (n + 1) src
      (respond r { s with byteout := s.byteout ++ q, cur := m.child b, phase := .decode }) := by
  obtain ⟨fl, d, consumed, running, completes⟩ := h.completes (offerBit_peek_cons b src) hm hc
  refine ⟨okResponse fl d, ?_⟩
  rw [completes.decodeLoop_succ hp]
  simp [running, advance, okResponse, consumed]

/-- A path to a valid node starts at a valid node. -/
theorem follow_start_valid {ar : NodeArena} {i j : NodeIndex} {p : BitString} (h : follow ar i p = some j)
    (hj : (nodeGet ar j).isSome = true) : ∃ n, nodeGet ar i = some n := by
  cases p with
  | nil =>
    obtain rfl := Option.some.inj h
    exact Option.isSome_iff_exists.1 hj
  | cons b p =>
    cases hn : nodeGet ar i with
    | none => simp [follow, hn] at h
    | some n => exact ⟨n, rfl⟩

/-- The descent: over the bits of a path that leads to a leaf from the node that consults the first of them, the loop emits
what is due, takes one step a bit, and brings the cursor to that leaf (44_decoder.md R190). -/
theorem Consults.decodeLoop_path {s : State} {i j : NodeIndex} {q : List Byte} {p : BitString} {sy : Symbol}
    (h : Consults s i q) (hp : s.phase = .tree ∨ s.phase = .mapped ∨ s.phase = .decode) (path : follow s.node i p = some j)
    (leaf : leafOf s.node j sy) (nonempty : p ≠ []) (fuel n : Nat) (src : BitString) :
    ∃ rs, decodeLoop (fuel + p.length) n (p ++ src) s =
      decodeLoop fuel (n + p.length) src
        { s with byteout := s.byteout ++ q, cur := j, phase := .decode, responses := rs } := by
  have ⟨z, hz, _⟩ := leaf
  have valid : (nodeGet s.node j).isSome = true := by simp [hz]
  induction p generalizing s i q n with
  | nil => exact absurd rfl nonempty
  | cons b p ih =>
    obtain ⟨m, hm⟩ := follow_start_valid path valid
    rw [follow_cons hm] at path
    obtain ⟨c, hc⟩ := follow_start_valid path valid
    obtain ⟨r, step⟩ := h.decodeLoop_bit hp hm (ne_nil_of_nodeGet hc) (fuel + p.length) n (p ++ src)
    rw [List.length_cons, ← Nat.add_assoc, List.cons_append, step]
    cases p with
    | nil =>
      obtain rfl := Option.some.inj path
      exact ⟨_, rfl⟩
    | cons b' p =>
      have internal : c.isLeaf = false := Bool.eq_false_iff.2 fun hl => by
        simpa using (follow_from_leaf hc hl path hz).1
      obtain ⟨rs, rest⟩ := ih (s := respond r
        { s with byteout := s.byteout ++ q, cur := m.child b, phase := .decode }) (.internal hc internal) (.inr (.inr rfl))
        path leaf (by simp) (n + 1) hz valid
      exact ⟨rs, by simpa [Nat.add_assoc, Nat.add_comm 1] using rest⟩

/-- The payload of a byte and more is the byte's code and the payload of the rest (30_encoding.md R100). -/
theorem payloadOf_cons {cm : CodeMap} {b : Byte} {bs : List Byte} {p : BitString} (h : payloadOf cm (b :: bs) = some p) :
    ∃ c p', codeGet cm (.byte b) = some c ∧ payloadOf cm bs = some p' ∧ p = c ++ p' := by
  rw [payloadOf] at h
  cases hc : codeGet cm (.byte b) with
  | none => simp [hc] at h
  | some c =>
    cases hp : payloadOf cm bs with
    | none => simp [hc, hp] at h
    | some p' => exact ⟨c, p', rfl, rfl, by simpa [hc, hp] using h.symm⟩

/-- Over a payload, from a step that consults its first bit at ROOT, the loop emits what is due and then the bytes, and ends
with the payload consumed (44_decoder.md R190): the codes lead from ROOT to the leaves of their symbols and none is empty. -/
theorem Consults.decodeLoop_payload {cm : CodeMap} {s : State} {q : List Byte} {bs : List Byte} {p : BitString}
    (h : Consults s s.root q) (hp : s.phase = .tree ∨ s.phase = .mapped ∨ s.phase = .decode)
    (codes : ∀ sy c, codeGet cm sy = some c → LeadsTo s.node s.root c sy ∧ c ≠ []) (payload : payloadOf cm bs = some p)
    (fuel n : Nat) (x : BitString) :
    ∃ t, decodeLoop (fuel + 1 + p.length) n (p ++ x) s = .done t x (n + p.length + 1) ∧
      t.byteout = s.byteout ++ q ++ bs ∧ t.fsticky = s.fsticky := by
  induction bs generalizing s q p n with
  | nil =>
    obtain ⟨⟨j, path, leaf⟩, nonempty⟩ := codes .terminator p payload
    obtain ⟨rs, descent⟩ := h.decodeLoop_path hp path leaf nonempty (fuel + 1) n x
    rw [descent, List.append_nil]
    exact decodeLoop_terminator (s := { s with byteout := _, cur := j, phase := .decode, responses := rs }) leaf
      (.inr (.inr rfl)) fuel (n + p.length) x
  | cons b bs ih =>
    obtain ⟨c, p', hc, payload', rfl⟩ := payloadOf_cons payload
    obtain ⟨⟨j, path, leaf⟩, nonempty⟩ := codes (.byte b) c hc
    obtain ⟨rs, descent⟩ := h.decodeLoop_path hp path leaf nonempty (fuel + 1 + p'.length) n (p' ++ x)
    obtain ⟨t, rest, out, sticky⟩ :=
      ih (s := { s with byteout := s.byteout ++ q, cur := j, phase := .decode, responses := rs }) (.byteLeaf leaf)
        (.inr (.inr rfl)) codes payload' (n + c.length)
    refine ⟨t, ?_, by simpa using out, sticky⟩
    rw [List.append_assoc, List.length_append, Nat.add_comm c.length, ← Nat.add_assoc, descent, rest, Nat.add_assoc n,
      Nat.add_comm p'.length]

/-- With one leaf only the empty sequence has a payload, the empty one (42_code_map_generator.md R164). -/
theorem payloadOf_single {cm : CodeMap} (single : ∀ sy c, codeGet cm sy = some c ↔ sy = .terminator ∧ c = [])
    {bs : List Byte} {p : BitString} (h : payloadOf cm bs = some p) : bs = [] ∧ p = [] := by
  cases bs with
  | nil => exact ⟨rfl, ((single .terminator p).1 h).2⟩
  | cons b bs =>
    obtain ⟨c, -, hc, -⟩ := payloadOf_cons h
    cases ((single (.byte b) c).1 hc).1

/-- Settles O53: with one leaf the loop ends at its first step; with two or more ROOT is internal and no code is empty, so the
loop descends along one code after the other. -/
theorem decodingInvertsEncoding : Obligations.DecodingInvertsEncoding := by
  intro bs p x cm s inv hp hm payload
  have legal : s.phase = .tree ∨ s.phase = .mapped ∨ s.phase = .decode := hp.imp_right .inl
  have atRoot := inv.cur_eq_root hp
  have tree := inv.hasTree_of_decStep legal
  have t := tree.treeInvariants
  obtain ⟨cm', hm', codes⟩ := tree.exists_codeMap
  obtain rfl := Except.ok.inj (hm'.symm.trans hm)
  obtain ⟨r, hr⟩ := Option.isSome_iff_exists.1 t.rootFree.1
  cases hl : r.isLeaf with
  | true =>
    have one := (t.root_isLeaf_iff hr).1 hl
    obtain ⟨rfl, rfl⟩ := payloadOf_single (codes.single one) payload
    have leaf : leafOf s.node s.cur .terminator := atRoot ▸ ⟨r, hr, hl, t.sym_of_single one hr⟩
    obtain ⟨u, run, out, sticky⟩ := decodeLoop_terminator leaf legal x.length 0 x
    exact ⟨u, run, by rw [out, List.append_nil], sticky⟩
  | false =>
    have two : 2 ≤ s.nleaf.toNat := by
      have := (t.root_isLeaf_iff hr).not.1 (by simp [hl])
      have := t.root_toNat
      omega
    have start : Consults s s.root [] := atRoot ▸ .internal (atRoot ▸ hr) hl
    obtain ⟨u, run, out, sticky⟩ := start.decodeLoop_payload legal
      (fun sy c hc => ⟨codes.path sy c hc, (codes.code two sy sy c c hc hc).1⟩) payload x.length 0 x
    refine ⟨u, ?_, by simpa using out, sticky⟩
    rw [decBits, List.length_append, Nat.add_assoc, Nat.add_comm, run, Nat.zero_add]

end Sys2Proof.Machine
end

section
/-! PROOF. The code of a table (42_code_map_generator.md R160 to R162), which depends on the table alone: every table with the
terminator has a tree, so it has a code for exactly its symbols, and every sequence of its bytes has a payload. -/

namespace Sys2Proof.Machine

/-! ### The tree of a table -/

/-- What `TB.BUILD` leaves where it completes, before its response (41_tree_builder.md R140). -/
def State.withTree (s : State) : State :=
  { s with
    node := writeNodes s.node 0 (builtNodes s.ft)
    nleaf := BitVec.ofNat 9 (leaves s.ft).length
    nnode := BitVec.ofNat 10 (builtNodes s.ft).length
    root := builtRoot s.ft
    cur := builtRoot s.ft
    phase := .tree }

/-- A sequence goes on after a `TB.BUILD` of a table it accepts (41_tree_builder.md R140). -/
theorem issueAll_tbBuild_cons {s : State} (legal : legalIn .tbBuild s.phase = true) (terminator : ftGet s.ft .terminator ≠ 0)
    (fits : ftTotal s.ft ≤ s.cfg.maxCnt) (is : List Instr) :
    issueAll (.tbBuild :: is) s = issueAll is (respond (okResponse RspFlags.zero 0) s.withTree) :=
  (Completes.tbBuild terminator fits).issueAll_cons rfl legal is

/-- A response leaves the tree as it is. -/
theorem HasTree.answered {s : State} (h : HasTree s) (r : Response) : HasTree (respond r s) := { h with }

/-- On an arena without valid nodes `TB.BUILD` leaves the tree of the table (41_tree_builder.md R140). -/
theorem hasTree_withTree {s : State} (fresh : s.node = emptyArena) (terminator : ftGet s.ft .terminator ≠ 0)
    (fits : ftTotal s.ft ≤ s.cfg.maxCnt) : HasTree s.withTree where
  terminator := terminator
  fits := fits
  node := by simp only [State.withTree, fresh]
  nleaf := rfl
  nnode := rfl
  root := rfl
  cur := by
    obtain ⟨n, hn, -⟩ := builtRoot_weighs s.node terminator
    simp only [State.withTree, hn, Option.isSome_some]

/-- Every table with the terminator has a tree, on a block whose counts are wide enough. -/
theorem exists_hasTree {ft : FreqTable} (terminator : ftGet ft .terminator ≠ 0) : ∃ s, HasTree s ∧ s.ft = ft :=
  ⟨State.withTree { State.reset with ft := ft, cfg := ⟨ftTotal ft⟩ },
    hasTree_withTree rfl terminator (Nat.le_sub_one_of_lt Nat.lt_two_pow_self), rfl⟩

/-! ### The code of a table -/

/-- The code map of a table: the one `CM.GEN` makes of its tree (42_code_map_generator.md R160). -/
def tableCode (ft : FreqTable) : CodeMap :=
  match generatedMap (writeNodes emptyArena 0 (builtNodes ft)) (builtRoot ft) with
  | .ok cm => cm
  | .error _ => emptyMap

/-- `CM.GEN` makes of a tree the code of its table, and that code has the code-map invariants (10_state.md R49). -/
theorem HasTree.tableCode_spec {s : State} (h : HasTree s) :
    generatedMap s.node s.root = .ok (tableCode s.ft) ∧ CodeInvariants { s with code := tableCode s.ft } := by
  obtain ⟨cm, hm, codes⟩ := h.exists_codeMap
  obtain rfl : tableCode s.ft = cm := by rw [tableCode, ← h.node, ← h.root, hm]
  exact ⟨hm, codes⟩

/-- A symbol has a code exactly when it is in the table (10_state.md R49 (a)). -/
theorem tableCode_isSome_iff {ft : FreqTable} (terminator : ftGet ft .terminator ≠ 0) (sy : Symbol) :
    (codeGet (tableCode ft) sy).isSome = true ↔ ftGet ft sy ≠ 0 := by
  obtain ⟨s, tree, rfl⟩ := exists_hasTree terminator
  exact tree.tableCode_spec.2.present sy

/-- In a table of one symbol, the terminator, its code is the empty bit string (42_code_map_generator.md R164). -/
theorem tableCode_single {ft : FreqTable} (terminator : ftGet ft .terminator ≠ 0) (one : (leaves ft).length = 1) :
    codeGet (tableCode ft) .terminator = some [] := by
  obtain ⟨s, tree, rfl⟩ := exists_hasTree terminator
  exact (tree.tableCode_spec.2.single (tree.nleaf_toNat.trans one) .terminator []).2 ⟨rfl, rfl⟩

/-! ### Payloads -/

/-- A sequence of bytes with codes has a payload, where the terminator has a code (30_encoding.md R100). -/
theorem exists_payloadOf {cm : CodeMap} {bs : List Byte} (bytes : ∀ b ∈ bs, (codeGet cm (.byte b)).isSome = true)
    (terminator : (codeGet cm .terminator).isSome = true) : ∃ p, payloadOf cm bs = some p := by
  induction bs with
  | nil => exact Option.isSome_iff_exists.1 terminator
  | cons b bs ih =>
    obtain ⟨hb, bytes⟩ := List.forall_mem_cons.1 bytes
    obtain ⟨c, hc⟩ := Option.isSome_iff_exists.1 hb
    obtain ⟨p, hp⟩ := ih bytes
    exact ⟨c ++ p, by simp [payloadOf, hc, hp]⟩

/-- Under the code of a table every sequence of its bytes has a payload (46_host_sequences.md R215). -/
theorem exists_payloadOf_tableCode {ft : FreqTable} (terminator : ftGet ft .terminator ≠ 0) {bs : List Byte}
    (bytes : ∀ b ∈ bs, ftGet ft (.byte b) ≠ 0) : ∃ p, payloadOf (tableCode ft) bs = some p :=
  exists_payloadOf (fun b hb => (tableCode_isSome_iff terminator (.byte b)).2 (bytes b hb))
    ((tableCode_isSome_iff terminator .terminator).2 terminator)

/-- The payload of one byte value repeated: its code n times, then the terminator's (30_encoding.md R100). -/
theorem payloadOf_replicate {cm : CodeMap} {v : Byte} {c e : BitString} (hc : codeGet cm (.byte v) = some c)
    (he : codeGet cm .terminator = some e) (n : Nat) :
    payloadOf cm (List.replicate n v) = some ((List.replicate n c).flatten ++ e) := by
  induction n with
  | zero => exact he
  | succ n ih => simp [List.replicate_succ, payloadOf, hc, ih]

/-! ### The stream of an input -/

/-- The table of an input: its bytes counted, and the terminator once (40_frequency_analyzer.md R125). -/
def inputTable (bs : List Byte) : FreqTable := ftSet (countBytes bs emptyTable) .terminator 1

/-- The stream of an input, its table's entries and its payload: a function of the input alone (46_host_sequences.md R216). -/
def inputStream (bs : List Byte) : Stream where
  table := tableEntries allSymbols (inputTable bs)
  payload := (payloadOf (tableCode (inputTable bs)) bs).getD []

theorem inputStream_table (bs : List Byte) : (inputStream bs).table = tableEntries allSymbols (inputTable bs) := rfl

@[simp] theorem inputTable_terminator (bs : List Byte) : ftGet (inputTable bs) .terminator = 1 := ftGet_ftSet_same ..

theorem inputTable_terminator_ne (bs : List Byte) : ftGet (inputTable bs) .terminator ≠ 0 := by simp

/-- A byte of the input is in its table (40_frequency_analyzer.md R125). -/
theorem inputTable_byte_ne {bs : List Byte} {b : Byte} (hb : b ∈ bs) : ftGet (inputTable bs) (.byte b) ≠ 0 := by
  rw [inputTable, ftGet_ftSet_ne _ _ Symbol.noConfusion, ftGet_countBytes, ftGet_empty, Nat.zero_add, occurrences]
  have kept : b ∈ bs.filter (· == b) := List.mem_filter.2 ⟨hb, beq_self_eq_true b⟩
  exact (List.length_pos_of_mem kept).ne'

theorem inputTable_total (bs : List Byte) : ftTotal (inputTable bs) = bs.length + 1 := ftTotal_firstPass bs

/-- The payload of the stream is that of the input under the code of its table (46_host_sequences.md R210). -/
theorem payloadOf_inputTable (bs : List Byte) :
    payloadOf (tableCode (inputTable bs)) bs = some (inputStream bs).payload := by
  obtain ⟨p, hp⟩ := exists_payloadOf_tableCode (inputTable_terminator_ne bs) (bs := bs) fun _ => inputTable_byte_ne
  rw [inputStream, hp, Option.getD_some]

end Sys2Proof.Machine
end

section
/-! PROOF. The host's sequences (46_host_sequences.md R210 to R218): what `COMPRESS` and `DECOMPRESS` hand over, and the
round trip. -/

namespace Sys2Proof.Machine

/-! ### Encoding under the code of a table -/

/-- The second pass appends the payload and ends in DONE (43_encoder.md R175). -/
theorem issueAll_encBytes_encEnd {bs : List Byte} {s : State} {p : BitString} (hp : s.phase = .mapped ∨ s.phase = .encode)
    (payload : payloadOf s.code bs = some p) :
    ∃ t, issueAll (encBytes bs ++ [.encEnd]) s = .ok () t ∧
      t = { s with bitout := s.bitout ++ p, phase := .done, responses := t.responses } := by
  induction bs generalizing s p with
  | nil =>
    have legal : legalIn .encEnd s.phase = true := by simpa [legalIn] using hp
    exact ⟨_, (Completes.encEnd payload).issueAll_cons rfl legal [], rfl⟩
  | cons b bs ih =>
    have legal : legalIn (.encByte b) s.phase = true := by simpa [legalIn] using hp
    obtain ⟨c, q, hc, hq, rfl⟩ := payloadOf_cons payload
    obtain ⟨t, run, frame⟩ := ih (s := respond (okResponse RspFlags.zero c.length)
      { putBits c s with phase := .encode }) (.inr rfl) hq
    refine ⟨t, ((Completes.encByte hc).issueAll_cons rfl legal _).trans run, frame.trans ?_⟩
    simp [respond, putBits]

/-- From TREE, `CM.GEN` and a second pass append the payload under the code of the table (46_host_sequences.md R215). -/
theorem HasTree.issueAll_encode {s : State} (tree : HasTree s) (hp : s.phase = .tree) {bs : List Byte} {p : BitString}
    (payload : payloadOf (tableCode s.ft) bs = some p) :
    ∃ t, issueAll ([.cmGen] ++ encBytes bs ++ [.encEnd]) s = .ok () t ∧
      t = { s with code := tableCode s.ft, bitout := s.bitout ++ p, phase := .done, responses := t.responses } := by
  obtain ⟨t, run, frame⟩ := issueAll_encBytes_encEnd (s := respond (okResponse RspFlags.zero 0)
    { s with code := tableCode s.ft, phase := .mapped }) (.inl rfl) payload
  have generates := (Completes.cmGen tree.tableCode_spec.1).issueAll_cons rfl (by rw [hp]; rfl) (encBytes bs ++ [.encEnd])
  exact ⟨t, generates.trans run, frame⟩

/-! ### `COMPRESS` -/

/-- The first pass in a fresh session leaves the table of the input and changes nothing of the tree (46_host_sequences.md R210
steps 1 and 2). -/
theorem Ready.issueAll_firstPass {s : State} (ready : Ready s) {bs : List Byte} (hb : bs.length ≤ s.cfg.maxCnt - 1) :
    ∃ t, issueAll (firstPass bs) s = .ok () t ∧
      t = { s with ft := inputTable bs, len := bs.length, phase := .table, responses := t.responses } := by
  obtain ⟨empty, zero⟩ := ready.empty
  obtain ⟨t, run, frame⟩ := Machine.issueAll_firstPass bs (.inl ready.2) (by rwa [zero, Nat.zero_add])
  rw [empty, zero, Nat.zero_add] at frame
  exact ⟨t, run, frame⟩

/-- The table of an input within the bound is one `TB.BUILD` accepts (41_tree_builder.md R142). -/
theorem Ready.inputTable_fits {s : State} (ready : Ready s) {bs : List Byte} (hb : bs.length ≤ s.cfg.maxCnt - 1) :
    ftTotal (inputTable bs) ≤ s.cfg.maxCnt := by
  have := Config.one_le_maxCnt ready.1.cntW
  rw [inputTable_total]
  omega

/-- `CLR` makes a block ready for a fresh session (45_system.md R201). -/
theorem ready_clearSession {s : State} (legal : s.cfg.legal = true)
    (sticky : s.fsticky.getLsbD 0 = false ∧ s.fsticky.getLsbD 7 = false) (r : Response) :
    Ready (respond r (clearSession s)) where
  left :=
    { cntW := legal
      counts := fun sy => by simp
      len := Nat.zero_le _
      sticky := sticky
      record := ⟨rfl, rfl⟩
      table := ⟨rfl, rfl⟩
      tree := ⟨rfl, rfl, rfl, rfl, rfl⟩
      code := rfl }
  right := rfl

/-- From TABLE, the second pass appends the payload of the input (46_host_sequences.md R210 steps 5 to 8). -/
theorem issueAll_secondPass {s : State} {bs : List Byte} (phase : s.phase = .table) (fresh : s.node = emptyArena)
    (table : s.ft = inputTable bs) (fits : ftTotal s.ft ≤ s.cfg.maxCnt) :
    ∃ t, issueAll (secondPass bs) s = .ok () t ∧ t.bitout = s.bitout ++ (inputStream bs).payload ∧ t.cfg = s.cfg ∧
      t.fsticky = s.fsticky := by
  have terminator : ftGet s.ft .terminator ≠ 0 := table ▸ inputTable_terminator_ne bs
  have tree := (hasTree_withTree fresh terminator fits).answered (okResponse RspFlags.zero 0)
  obtain ⟨t, encodes, frame⟩ := tree.issueAll_encode rfl (by rw [← payloadOf_inputTable, ← table]; rfl)
  refine ⟨t, (issueAll_tbBuild_cons (by rw [phase]; rfl) terminator fits _).trans encodes, ?_, ?_, ?_⟩ <;> rw [frame] <;> rfl

/-- `COMPRESS` hands over the stream of the input and leaves the block ready (46_host_sequences.md R210). -/
theorem Ready.compress_eq {s : State} (ready : Ready s) {bs : List Byte} (hb : bs.length ≤ s.cfg.maxCnt - 1) :
    ∃ t, compress bs s = .ok (inputStream bs) t ∧ Ready t := by
  obtain ⟨s1, counts, frame1⟩ := ready.issueAll_firstPass hb
  obtain ⟨s2, reads, frame2⟩ := readEntries_eq allSymbols (s := s1) (by rw [frame1]; nofun)
  have table : s1.ft = inputTable bs := by rw [frame1]
  obtain ⟨s3, encodes, bits, cfg, sticky⟩ := issueAll_secondPass (s := s2) (bs := bs) (by rw [frame2, frame1])
    (by rw [frame2, frame1]; exact ready.noTree.node) (by rw [frame2, table])
    (by rw [frame2, frame1]; exact ready.inputTable_fits hb)
  have clears := (Completes.clr (s := s3)).issueOk rfl rfl
  have payload : s3.bitout.drop s2.bitout.length = (inputStream bs).payload := by rw [bits, List.drop_left]
  refine ⟨respond (okResponse RspFlags.zero 0) (clearSession s3), ?_, ready_clearSession ?_ ?_ _⟩
  · simp only [compress, counts, HostRun.andThen, reads, encodes, clears, payload, table]
    rfl
  · rw [cfg, frame2, frame1]
    exact ready.1.cntW
  · rw [sticky, frame2, frame1]
    exact ready.1.sticky

/-- Settles O56: the stream is `inputStream` of the input, which names no state. -/
theorem compressIsAFunctionOfTheInput : Obligations.CompressIsAFunctionOfTheInput := by
  refine fun bs => ⟨inputStream bs, fun s ready hb => ?_⟩
  obtain ⟨t, run, -⟩ := ready.compress_eq hb
  exact ⟨t, run⟩

/-! ### What a sequence without a fault has done -/

/-- A command that does not end the sequence has answered OK (46_host_sequences.md R213). -/
theorem issueOk_spec {i : Instr} {s t : State} {r : Response} (h : issueOk i s = .ok r t) :
    issue i s = .next t ∧ lastResponse t = some r ∧ r.status = .ok := by
  unfold issueOk recover at h
  split at h
  · next u run =>
    split at h
    · next r' last =>
      split at h
      · next ok =>
        obtain ⟨rfl, rfl⟩ := HostRun.ok.inj h
        exact ⟨run, last, ok⟩
      · split at h <;> cases h
    · cases h
  · cases h
  · cases h

/-- A command issued that answers OK has completed (46_host_sequences.md R213). -/
theorem completes_of_issueOk {i j : Instr} {s t : State} {r : Response} (h : issueOk i s = .ok r t)
    (runs : issue i s = exec j s) :
    legalIn j s.phase = true ∧ ∃ fl d u, Completes s j fl d u ∧ t = respond (okResponse fl d) u := by
  obtain ⟨next, last, ok⟩ := issueOk_spec h
  obtain ⟨r', ends⟩ := exec_ends (runs.symm.trans next)
  obtain rfl : r' = r := by simpa [lastResponse, ends.responses] using last
  cases ends with
  | refused | outOfPhase | faults => cases ok
  | completes legal completes => exact ⟨legal, _, _, _, completes, rfl⟩

/-- The first command of a sequence without a fault answers OK, and the rest goes on from there. -/
theorem issueAll_cons_ok {i : Instr} {is : List Instr} {s t : State} (h : issueAll (i :: is) s = .ok () t) :
    ∃ r u, issueOk i s = .ok r u ∧ issueAll is u = .ok () t := by
  rw [issueAll] at h
  cases hi : issueOk i s with
  | ok r u =>
    rw [hi] at h
    exact ⟨r, u, rfl, h⟩
  | failed r u =>
    rw [hi] at h
    cases h
  | stopped =>
    rw [hi] at h
    cases h

/-- `FT.LOAD` crosses the port with its count cut to `CNT_W` bits (30_encoding.md R80). -/
theorem issue_ftLoad (sy : Symbol) (cnt : Nat) (s : State) :
    issue (.ftLoad sy cnt) s = exec (.ftLoad sy (portData s.cfg cnt)) s := by
  have word : decode (cmdWord (.ftLoad sy cnt)) (portData s.cfg cnt) = .ok (.ftLoad sy (portData s.cfg cnt)) :=
    (decode_cmdWord (.ftLoad sy (portData s.cfg cnt)) _).trans (decodeOperand_arg fun _ _ e => (Instr.ftLoad.inj e).2.symm)
  exact step_command (s := present (.command (cmdWord (.ftLoad sy cnt)) cnt) s) rfl word

/-! ### The invariant of a session that loads -/

/-- Before a tree is built there is no code (10_state.md R23). -/
theorem Inv.noCode_of_legal {s : State} (h : Inv s) (legal : legalIn .tbBuild s.phase = true) : NoCode s := by
  have code := h.code
  rw [← mem_tableLegal, tableLegal, List.mem_cons, List.mem_cons, List.mem_singleton] at legal
  rcases legal with e | e | e <;> simpa only [CodeOk, e] using code

/-- Where `TB.BUILD` is legal no fault is recorded (10_state.md R24). -/
theorem Inv.noFault_of_legal {s : State} (h : Inv s) (legal : legalIn .tbBuild s.phase = true) :
    s.fcode = 0#4 ∧ s.finfo = 0#16 := by
  have noFault : s.phase ≠ .fault := by
    intro e
    rw [e] at legal
    cases legal
  simpa only [FaultRecordOk, if_neg noFault] using h.record

/-- Where `FT.LOAD` is legal nothing has been counted (10_state.md R27). -/
theorem Inv.len_of_ftLoad {s : State} (h : Inv s) (hp : s.phase = .idle ∨ s.phase = .load) : s.len = 0 := by
  have table := h.table
  rcases hp with e | e <;> simp only [TableOk, e] at table
  · exact table.2
  · exact table.1

/-- An `FT.LOAD` that completes keeps the invariant (40_frequency_analyzer.md R126). -/
theorem Inv.ftLoad {s : State} (h : Inv s) (hp : s.phase = .idle ∨ s.phase = .load) {sy : Symbol} {cnt : Nat}
    (positive : cnt ≠ 0) (le : cnt ≤ s.cfg.maxCnt) (r : Response) :
    Inv (respond r { s with ft := ftSet s.ft sy cnt, phase := .load }) := by
  have legal := tbBuild_legal (hp.imp_right .inl)
  have none := h.noTree_of_legal legal
  exact
    { cntW := h.cntW
      counts := fun z => by
        by_cases e : z = sy
        · subst e
          rw [respond_ft, ftGet_ftSet_same]
          exact le
        · rw [respond_ft, ftGet_ftSet_ne _ _ e]
          exact h.counts z
      len := h.len
      sticky := h.sticky
      record := h.noFault_of_legal legal
      table := ⟨h.len_of_ftLoad hp, fun e => positive <| by
        rw [← ftGet_ftSet_same s.ft sy cnt]
        exact (congrArg (ftGet · sy) e).trans (ftGet_empty sy)⟩
      tree := ⟨none.node, none.nleaf, none.nnode, none.root, none.cur⟩
      code := h.noCode_of_legal legal }

/-- A `TB.BUILD` that completes after loads keeps the invariant (41_tree_builder.md R140). -/
theorem Inv.tbBuild {s : State} (h : Inv s) (hp : s.phase = .idle ∨ s.phase = .load) (terminator : ftGet s.ft .terminator ≠ 0)
    (fits : ftTotal s.ft ≤ s.cfg.maxCnt) (r : Response) : Inv (respond r s.withTree) := by
  have legal := tbBuild_legal (hp.imp_right .inl)
  exact
    { cntW := h.cntW
      counts := h.counts
      len := h.len
      sticky := h.sticky
      record := h.noFault_of_legal legal
      table := .inl (h.len_of_ftLoad hp)
      tree := ⟨(hasTree_withTree (h.noTree_of_legal legal).node terminator fits).answered r, rfl⟩
      code := h.noCode_of_legal legal }

/-- What the port's wires carry is no more than `MAXCNT` (00_scope.md R7, 30_encoding.md R80). -/
theorem portData_le_maxCnt (c : Config) (d : Nat) : portData c d ≤ c.maxCnt :=
  Nat.le_sub_one_of_lt (Nat.mod_lt _ (Nat.two_pow_pos c.cntW))

/-- Loads without a fault keep the invariant, whatever the pairs (46_host_sequences.md R211 step 2). -/
theorem Inv.loads_tbBuild {tbl : HostTable} {s t : State} (h : Inv s) (hp : s.phase = .idle ∨ s.phase = .load)
    (run : issueAll (loads tbl ++ [.tbBuild]) s = .ok () t) : Inv t ∧ t.phase = .tree := by
  induction tbl generalizing s with
  | nil =>
    obtain ⟨r, u, builds, done⟩ := issueAll_cons_ok run
    obtain ⟨-, rfl⟩ := HostRun.ok.inj done
    obtain ⟨-, _, _, _, completes, rfl⟩ := completes_of_issueOk builds (issue_eq_exec rfl)
    cases completes with
    | tbBuild terminator fits => exact ⟨h.tbBuild hp terminator fits _, rfl⟩
  | cons p tbl ih =>
    obtain ⟨r, u, stores, rest⟩ := issueAll_cons_ok run
    obtain ⟨-, _, _, _, completes, rfl⟩ := completes_of_issueOk stores (issue_ftLoad p.1 p.2 s)
    cases completes with
    | ftLoad positive absent => exact ih (h.ftLoad hp positive (portData_le_maxCnt ..) _) (.inr rfl) rest

/-- Settles O55: the session holds a tree in the invariant, every byte of the sequence has a code in the code of its table, and
decoding inverts that encoding (O53). -/
theorem anyEncodableSequenceDecodesBack : Obligations.AnyEncodableSequenceDecodesBack := by
  intro tbl bs x s t ready run bytes
  obtain ⟨inv, phase⟩ := ready.1.loads_tbBuild (.inl ready.2) run
  have tree := inv.hasTree (by rw [phase]; rfl)
  obtain ⟨p, payload⟩ := exists_payloadOf_tableCode tree.terminator bytes
  obtain ⟨u, encodes, frame⟩ := tree.issueAll_encode phase payload
  obtain ⟨v, decodes, out, -⟩ :=
    decodingInvertsEncoding bs p x (tableCode t.ft) t inv (.inl phase) tree.tableCode_spec.1 payload
  have bits : u.bitout.drop t.bitout.length = p := by rw [frame, List.drop_left]
  exact ⟨u, encodes, v, _, bits ▸ decodes, out⟩

/-! ### `DECOMPRESS` -/

/-- No entry of a table exceeds their sum (41_tree_builder.md R142). -/
theorem ftGet_le_ftTotal (ft : FreqTable) (sy : Symbol) : ftGet ft sy ≤ ftTotal ft :=
  List.le_sum_of_mem (List.mem_map_of_mem (mem_allSymbols sy))

/-- The entries of a table that `TB.BUILD` accepts, loaded in a fresh session, give the tree of that table
(46_host_sequences.md R211 steps 2 and 3). -/
theorem Ready.issueAll_tableEntries {s : State} (ready : Ready s) {ft : FreqTable} (terminator : ftGet ft .terminator ≠ 0)
    (fits : ftTotal ft ≤ s.cfg.maxCnt) :
    ∃ t, issueAll (loads (tableEntries allSymbols ft) ++ [.tbBuild]) s = .ok () t ∧ Inv t ∧ t.phase = .tree ∧
      t.ft = ft ∧ t.byteout = s.byteout := by
  have good : goodTable s.cfg (tableEntries allSymbols ft) :=
    ⟨tableEntries_nodup allSymbols_nodup ft, fun p hm => by
      obtain ⟨-, hc, e⟩ := mem_tableEntries.1 hm
      exact ⟨Nat.pos_of_ne_zero hc, e ▸ (ftGet_le_ftTotal ft p.1).trans fits⟩⟩
  obtain ⟨t, run, legal, frame⟩ := ready.issueAll_loads good
  rw [loadPairs_tableEntries] at frame
  have table : t.ft = ft := by rw [frame]
  have cfg : t.cfg = s.cfg := by rw [frame]
  have whole := (issueAll_append_ok run _).trans
    (issueAll_tbBuild_cons legal (table ▸ terminator) (by rw [table, cfg]; exact fits) [])
  obtain ⟨inv, phase⟩ := ready.1.loads_tbBuild (.inl ready.2) whole
  exact ⟨_, whole, inv, phase, table, by rw [frame]; rfl⟩

/-- `DECOMPRESS` of the entries of a table and a payload under its code, with anything after it, gives the bytes back
(46_host_sequences.md R211). -/
theorem Ready.decompress_payload {s : State} (ready : Ready s) {ft : FreqTable} (terminator : ftGet ft .terminator ≠ 0)
    (fits : ftTotal ft ≤ s.cfg.maxCnt) {bs : List Byte} {p : BitString} (payload : payloadOf (tableCode ft) bs = some p)
    (x : BitString) :
    ∃ v, decompress (tableEntries allSymbols ft) (p ++ x) s = .ok bs v ∧ v.byteout = s.byteout ++ bs := by
  obtain ⟨t, builds, inv, phase, rfl, out⟩ := ready.issueAll_tableEntries terminator fits
  have code := (inv.hasTree (by rw [phase]; rfl)).tableCode_spec.1
  obtain ⟨u, decodes, bytes, -⟩ := decodingInvertsEncoding bs p x _ t inv (.inl phase) code payload
  have clears := (Completes.clr (s := u)).issueOk rfl rfl
  have result : u.byteout.drop t.byteout.length = bs := by rw [bytes, List.drop_left]
  refine ⟨respond (okResponse RspFlags.zero 0) (clearSession u), ?_, bytes.trans (by rw [out])⟩
  simp only [decompress, builds, HostRun.andThen, decodes, clears, result]

/-- Settles O54: `COMPRESS` hands over the entries of the input's table and its payload under that table's code, and
`DECOMPRESS` inverts both. -/
theorem decompressOfCompressIsTheInput : Obligations.DecompressOfCompressIsTheInput := by
  intro bs s ready hb
  obtain ⟨t, run, again⟩ := ready.compress_eq hb
  exact ⟨_, t, run, again, fun x u fresh hb' => fresh.decompress_payload (inputTable_terminator_ne bs)
    (fresh.inputTable_fits hb') (payloadOf_inputTable bs) x⟩

end Sys2Proof.Machine
end

section
/-! PROOF. The two smallest cases of the round trip (46_host_sequences.md R217, R218): the empty input and one byte value repeated. -/

namespace Sys2Proof.Machine

/-! ### Headers and trees of an input -/

/-- The header's pairs are those of the leaves (41_tree_builder.md R143). -/
theorem leaves_eq_map_tableEntries (ft : FreqTable) :
    leaves ft = (tableEntries allSymbols ft).map fun p => leafNode p.1 p.2 := by
  rw [leaves, tableEntries, List.map_filterMap]
  refine List.filterMap_congr fun sy _ => ?_
  by_cases h : ftGet ft sy = 0 <;> simp [h]

theorem leafNode_injective : Function.Injective fun p : Symbol × Nat => leafNode p.1 p.2 := by
  rintro ⟨a, m⟩ ⟨b, n⟩ h
  simpa [leafNode, and_comm] using h

/-- The pairs of a header are read off the leaves of the table (41_tree_builder.md R143). -/
theorem tableEntries_of_leaves {ft : FreqTable} {tbl : HostTable} (h : leaves ft = tbl.map fun p => leafNode p.1 p.2) :
    tableEntries allSymbols ft = tbl :=
  List.map_injective_iff.2 leafNode_injective ((leaves_eq_map_tableEntries ft).symm.trans h)

/-- The first pass and `TB.BUILD` in a fresh session give the tree of the input (46_host_sequences.md R210 steps 1 to 5). -/
theorem Ready.issueAll_build {s : State} (ready : Ready s) {bs : List Byte} (hb : bs.length ≤ s.cfg.maxCnt - 1) :
    ∃ t, issueAll (firstPass bs ++ [.tbBuild]) s = .ok () t ∧ HasTree t ∧ t.phase = .tree ∧ t.ft = inputTable bs := by
  obtain ⟨t, run, frame⟩ := ready.issueAll_firstPass hb
  have table : t.ft = inputTable bs := by rw [frame]
  have fresh : t.node = emptyArena := by rw [frame]; exact ready.noTree.node
  have terminator : ftGet t.ft .terminator ≠ 0 := table ▸ inputTable_terminator_ne bs
  have fits : ftTotal t.ft ≤ t.cfg.maxCnt := by rw [frame]; exact ready.inputTable_fits hb
  exact ⟨_, (issueAll_append_ok run _).trans (issueAll_tbBuild_cons (by rw [frame]; rfl) terminator fits []),
    (hasTree_withTree fresh terminator fits).answered _, rfl, table⟩

/-! ### The empty input -/

/-- The empty input has one leaf (41_tree_builder.md R147). -/
theorem leaves_inputTable_nil : leaves (inputTable []) = [leafNode .terminator 1] :=
  leaves_terminator (inputTable_terminator_ne []) fun sy hs => by
    rw [inputTable, ftGet_ftSet_ne _ _ hs]
    exact ftGet_empty sy

theorem tableEntries_inputTable_nil : tableEntries allSymbols (inputTable []) = [(.terminator, 1)] :=
  tableEntries_of_leaves leaves_inputTable_nil

/-- The one code of the empty input is empty and present (42_code_map_generator.md R164). -/
theorem tableCode_inputTable_nil : codeGet (tableCode (inputTable [])) .terminator = some [] :=
  tableCode_single (inputTable_terminator_ne []) (by rw [leaves_inputTable_nil]; rfl)

/-- Settles O57: the table of the empty input has the terminator's leaf alone, whose code is the empty payload. -/
theorem emptyInputRoundTrips : Obligations.EmptyInputRoundTrips := by
  intro x s u readyS readyU
  have payload : payloadOf (tableCode (inputTable [])) [] = some [] := tableCode_inputTable_nil
  have terminator := inputTable_terminator_ne []
  have fits := readyU.inputTable_fits (bs := []) (Nat.zero_le _)
  refine ⟨?_, ?_, ?_, ?_⟩
  · obtain ⟨t, run, tree, phase, table⟩ := readyS.issueAll_build (bs := []) (Nat.zero_le _)
    refine ⟨t, _, run, ?_, ?_, exec_cmGen phase tree.tableCode_spec.1, ?_⟩
    · rw [tree.nleaf, table, leaves_inputTable_nil]
      rfl
    · rw [tree.root, table, builtRoot, buildForest_single leaves_inputTable_nil]
    · rw [respond_code]
      simp only [table]
      exact tableCode_inputTable_nil
  · obtain ⟨t, run, -⟩ := readyS.compress_eq (bs := []) (Nat.zero_le _)
    have none : (inputStream []).payload = [] := Option.some.inj ((payloadOf_inputTable []).symm.trans payload)
    exact ⟨_, t, run, (inputStream_table []).trans tableEntries_inputTable_nil, none⟩
  · obtain ⟨u1, builds, inv, phase, table, -⟩ := readyU.issueAll_tableEntries terminator fits
    rw [tableEntries_inputTable_nil] at builds
    have code := (inv.hasTree (by rw [phase]; rfl)).tableCode_spec.1
    obtain ⟨u2, decodes, out, -⟩ := decodingInvertsEncoding [] [] x _ u1 inv (.inl phase) code (table ▸ payload)
    exact ⟨u1, u2, builds, decodes, by rw [out, List.append_nil]⟩
  · obtain ⟨w, run, -⟩ := readyU.decompress_payload terminator fits payload x
    rw [tableEntries_inputTable_nil] at run
    exact ⟨w, run⟩

/-! ### One byte value repeated -/

/-- The code of a byte value repeated: one bit for the byte and the other for the terminator (41_tree_builder.md R152). -/
theorem Ready.tableCode_repeat {s : State} (ready : Ready s) (v : Byte) {n : Nat} (positive : 1 ≤ n)
    (fits : n ≤ s.cfg.maxCnt - 1) :
    codeGet (tableCode (inputTable (List.replicate n v))) (.byte v) = some [decide (2 ≤ n)] ∧
      codeGet (tableCode (inputTable (List.replicate n v))) .terminator = some [decide (n = 1)] := by
  obtain ⟨t, u, run, generates, -, -, -, -, -, -, one, two⟩ := twoLeafTree v n s ready positive fits
  obtain ⟨t', run', tree, phase, table⟩ := ready.issueAll_build (bs := List.replicate n v) (by simpa using fits)
  obtain ⟨-, rfl⟩ := HostRun.ok.inj (run.symm.trans run')
  obtain rfl := Host.Outcome.next.inj (generates.symm.trans (exec_cmGen phase tree.tableCode_spec.1))
  rw [← table]
  by_cases e : n = 1
  · subst e
    exact (one rfl).2
  · have more : 2 ≤ n := by omega
    simpa [e, more] using (two more).2

/-- Settles O58: the two leaves are the two pairs, and the payload repeats the byte's one-bit code before the terminator's. -/
theorem repeatedByteRoundTrips : Obligations.RepeatedByteRoundTrips := by
  intro v n x s u readyS readyU positive fitsS fitsU
  have bound : ∀ {c : Nat}, n ≤ c → (List.replicate n v).length ≤ c := fun h => List.length_replicate.trans_le h
  obtain ⟨s1, builds, -, -, two, -⟩ := readyS.build_repeat v positive fitsS
  obtain ⟨t, run, -⟩ := readyS.compress_eq (bound fitsS)
  obtain ⟨w, decodes, -⟩ := readyU.decompress_payload (inputTable_terminator_ne (List.replicate n v))
    (readyU.inputTable_fits (bound fitsU)) (payloadOf_inputTable _) x
  have header : (inputStream (List.replicate n v)).table = [(.byte v, n), (.terminator, 1)] :=
    (inputStream_table _).trans (tableEntries_of_leaves (leaves_repeatTable v positive))
  obtain ⟨byte, terminator⟩ := readyS.tableCode_repeat v positive fitsS
  have payload : (inputStream (List.replicate n v)).payload = List.replicate n (decide (2 ≤ n)) ++ [decide (n = 1)] := by
    have codes := Option.some.inj ((payloadOf_inputTable _).symm.trans (payloadOf_replicate byte terminator n))
    rwa [List.flatten_replicate_singleton] at codes
  refine ⟨⟨s1, builds, two⟩, _, t, w, run, header, ?_, by simp [payload], decodes⟩
  rw [payload]
  by_cases e : n = 1
  · subst e
    rfl
  · simp [e, show 2 ≤ n by omega]

end Sys2Proof.Machine
end

section
/-! PROOF. Faults and PHASE FAULT (60_exceptions.md R240 to R243): a fault leaves nothing but fault entry, save for the byte of a
truncated `DEC.STEP`; in PHASE FAULT three commands run and every other word is refused; and only `CLR` leaves the phase. -/

namespace Sys2Proof.Machine

/-! ### What a step takes -/

theorem takeInput_of_inputs {s : State} {x : HostInput} {rest : List HostInput} (h : s.inputs = x :: rest) :
    takeInput s = { s with inputs := rest } := by
  rw [takeInput, h, List.tail_cons]

/-- A word that decodes whatever the write data runs its command (30_encoding.md R80, R90). -/
theorem step_cmdWord {s : State} {i : Instr} {d : Nat} {rest : List HostInput} (hi : s.inputs = .command (cmdWord i) d :: rest)
    (data : ∀ sy cnt, i ≠ .ftLoad sy cnt) : step s = exec i { s with inputs := rest } := by
  rw [← takeInput_of_inputs hi]
  refine step_command hi ?_
  rw [decode_cmdWord]
  exact decodeOperand_arg fun sy cnt e => absurd e (data sy cnt)

/-! ### Faults are precise -/

/-- What stands before fault entry: the state the command found, but for the byte and the cursor of a `DEC.STEP` that began at
a byte leaf (60_exceptions.md R241). -/
theorem TakesFault.precise {s u : State} {i : Instr} {f : FaultKind} {em : Bool} (h : TakesFault s i f em u) :
    (em = false ∧ u = s) ∨
    ∃ (b : Byte) (n : Node), nodeGet s.node s.cur = some n ∧ n.isLeaf = true ∧ n.sym = .symbol (.byte b) ∧
      i = .decStep .endMark ∧ f = .truncatedStream ∧ em = true ∧ u = { putByte b s with cur := s.root } := by
  cases h with
  | truncatedAfterByte hn hl hs => exact .inr ⟨_, _, hn, hl, hs, rfl, rfl, rfl, rfl⟩
  | _ => exact .inl ⟨rfl, rfl⟩

/-- Settles O13: an illegal word and a command out of phase make fault entry at once; in its phases a command is `precise`. -/
theorem faultsArePrecise : Obligations.FaultsArePrecise := by
  intro s t w d rest r f hi hs hr hf
  have taken := takeInput_of_inputs hi
  cases step_ends_with hi hs hr with
  | illegalRefused => cases hf
  | illegal =>
    cases hf
    exact .inl (taken ▸ faultEntry_raiseFault ..)
  | legal hd ends =>
    obtain rfl := cmdWord_of_decode hd
    rw [taken] at ends
    cases ends with
    | refused | completes => cases hf
    | outOfPhase =>
      cases hf
      exact .inl (faultEntry_raiseFault ..)
    | faults _ h =>
      cases hf
      obtain ⟨rfl, rfl⟩ | ⟨b, n, hn, hl, hb, rfl, rfl, rfl, rfl⟩ := h.precise
      · exact .inl (faultEntry_raiseFault ..)
      · exact .inr ⟨b, n, hn, hl, hb, rfl, rfl, faultEntry_raiseFault ..⟩

/-! ### The three commands that run in PHASE FAULT -/

/-- The words of the commands that run in PHASE FAULT (30_encoding.md R90, 60_exceptions.md R242). -/
theorem cmdWord_of_runsInFault {i : Instr} (h : runsInFault i = true) :
    cmdWord i = 0x0000#16 ∨ cmdWord i = 0x1000#16 ∨ 0x2000 ≤ (cmdWord i).toNat ∧ (cmdWord i).toNat ≤ 0x2009 := by
  cases i with
  | nop => exact .inl rfl
  | clr => exact .inr (.inl rfl)
  | stRead r => cases r <;> exact .inr (.inr (by decide))
  | _ => cases h

/-- The commands that run in PHASE FAULT take no fault there or elsewhere (60_exceptions.md R242). -/
theorem TakesFault.not_runsInFault {s u : State} {i : Instr} {f : FaultKind} {em : Bool} (h : TakesFault s i f em u) :
    runsInFault i = false := by
  cases h <;> rfl

/-- `CLR` alone of the commands that run in PHASE FAULT writes anything (45_system.md R200 to R202). -/
theorem Completes.unchanged_of_runsInFault {s u : State} {i : Instr} {fl : RspFlags} {d : Nat} (h : Completes s i fl d u)
    (runs : runsInFault i = true) (clr : i ≠ .clr) : u = s := by
  cases h with
  | nop | stRead => rfl
  | clr => exact absurd rfl clr
  | _ => cases runs

/-- In PHASE FAULT a word is refused unless it decodes to a command that runs there (60_exceptions.md R242). -/
theorem step_refused {s : State} {w : CmdWord} {d : Nat} {rest : List HostInput} (hi : s.inputs = .command w d :: rest)
    (hp : s.phase = .fault) (refused : ∀ i, cmdWord i = w → runsInFault i = false) :
    step s = .next (respond faultedResponse { s with inputs := rest }) := by
  rw [← takeInput_of_inputs hi]
  cases hd : decode w (portData s.cfg d) with
  | error e =>
    rw [step_illegal hi hd]
    obtain ⟨-, e⟩ | ⟨hn, -⟩ := illegalWord_cases w (takeInput s)
    · rw [e]
    · exact absurd hp hn
  | ok i =>
    have out : legalIn i (takeInput s).phase = false := by
      rw [takeInput_phase, hp, legalIn_fault, refused i (cmdWord_of_decode hd)]
    rw [step_command hi hd]
    obtain ⟨hn, -⟩ | ⟨-, e⟩ := exec_not_legal out
    · exact absurd hp hn
    · exact e

/-- Settles O12: a word outside the three is refused, and the word of one of the three runs its command. -/
theorem faultPhaseRefusesAllButThreeCommands : Obligations.FaultPhaseRefusesAllButThreeCommands := by
  intro s w d rest hi hp
  refine ⟨fun nop clr stRead => ⟨_, step_refused hi hp fun i hw => ?_, refusedInFault_respond _⟩, ?_, ?_, ?_⟩
  · subst hw
    refine Bool.eq_false_iff.2 fun runs => ?_
    obtain e | e | e := cmdWord_of_runsInFault runs
    exacts [nop e, clr e, stRead e]
  · rintro rfl
    exact ⟨_, (step_cmdWord (i := .nop) hi nofun).trans (Completes.nop.exec rfl), answers_ok 0 rfl, rfl⟩
  · rintro r rfl readable
    have word : 0x2000#16 + BitVec.ofNat 16 r.num = cmdWord (.stRead r) := by cases r <;> rfl
    rw [word] at hi
    have value : readReg r { s with inputs := rest } = .ok (registerValue s r) := readReg_eq (.inl readable)
    exact ⟨_, (step_cmdWord hi nofun).trans ((Completes.stRead value).exec rfl), answers_ok _ rfl, rfl⟩
  · rintro rfl
    exact ⟨_, (step_cmdWord (i := .clr) hi nofun).trans (Completes.clr.exec rfl), answers_ok 0 rfl, rfl⟩

/-! ### The return from a fault -/

/-- `CLR` leaves the cleared session, in every phase (45_system.md R201). -/
theorem clr_next {s t : State} (h : exec .clr s = .next t) : t = respond (okResponse RspFlags.zero 0) (clearSession s) :=
  Host.Outcome.next.inj (h.symm.trans (Completes.clr.exec rfl))

/-- Every word but that of `CLR` leaves a faulted block as it was (60_exceptions.md R243). -/
theorem step_unchanged_in_fault {s t : State} {w : CmdWord} {d : Nat} {rest : List HostInput}
    (hi : s.inputs = .command w d :: rest) (hp : s.phase = .fault) (hw : w ≠ 0x1000#16) (hs : step s = .next t) :
    OnlyResponses { s with inputs := rest } t := by
  rw [← takeInput_of_inputs hi]
  obtain ⟨r, ends⟩ := step_ends hi hs
  cases ends with
  | illegalRefused => rfl
  | illegal _ hn => exact absurd hp hn
  | @legal i _ _ hd ends =>
    have runs : legalIn i (takeInput s).phase = true → runsInFault i = true := by
      rw [takeInput_phase, hp, legalIn_fault]
      exact id
    have notClr : i ≠ .clr := by
      rintro rfl
      exact hw (cmdWord_of_decode hd).symm
    cases ends with
    | refused => rfl
    | outOfPhase hn => exact absurd hp hn
    | completes hl h =>
      obtain rfl := h.unchanged_of_runsInFault (runs hl) notClr
      rfl
    | faults hl h => exact nomatch h.not_runsInFault.symm.trans (runs hl)

/-- Settles O15: after `CLR` the arena is empty, so the fault of the next command leaves nothing but fault entry. -/
theorem clrIsTheOnlyReturnFromAFault : Obligations.ClrIsTheOnlyReturnFromAFault := by
  refine ⟨fun s _ => ⟨_, Completes.clr.exec rfl, answers_ok 0 rfl, sessionCleared_clearSession (respond _ s), rfl⟩,
    fun s t w d rest hi hp hw hs => step_unchanged_in_fault hi hp hw hs,
    fun s t u w d rest r f _ hc hs hr hf => ?_, fun i s t _ hc idle => ?_⟩
  · obtain rfl := clr_next hc
    obtain entry | ⟨b, n, hn, -⟩ := faultsArePrecise _ u w d rest r f rfl hs hr hf
    · exact ⟨entry, congrArg State.fsticky entry.2⟩
    · exact nomatch (nodeGet_empty _).symm.trans hn
  · obtain rfl := clr_next hc
    exact commandsFollowThePhaseTable.1 i _ idle nofun

end Sys2Proof.Machine
end

section
/-! PROOF. Decode and encode agree, and the legal words are counted (30_encoding.md R90 to R94): of each opcode the legal operand
fields are the numbers below its count. -/

namespace Sys2Proof.Machine

/-! ### Decode of encode -/

/-- The word of a command decodes to it, with the write data it is presented with (30_encoding.md R80, R94). -/
theorem decode_encode {i : Instr} {d : Nat} (h : ∀ sy cnt, i = .ftLoad sy cnt → cnt = d) : decode (cmdWord i) d = .ok i := by
  rw [decode_cmdWord, decodeOperand_arg h]

/-- A well-formed command's write data crosses the port uncut (30_encoding.md R80). -/
theorem decode_portData {c : Config} {i : Instr} (h : WellFormed c i = true) :
    decode (cmdWord i) (portData c i.wdata) = .ok i := by
  refine decode_encode fun sy cnt e => ?_
  subst e
  exact (Nat.mod_eq_of_lt (of_decide_eq_true h)).symm

/-- The write data a word is decoded with is the count of the `FT.LOAD` it decodes to (30_encoding.md R80). -/
theorem wdata_of_decode {w : CmdWord} {d : Nat} {sy : Symbol} {cnt : Nat} (h : decode w d = .ok (.ftLoad sy cnt)) :
    cnt = d := by
  rw [← cmdWord_of_decode h, decode_cmdWord] at h
  obtain ⟨sy', -, e⟩ := operandOr_map_ok h
  exact (Instr.ftLoad.inj e).2.symm

/-- Settles O7: `decode_encode` one way; the other way `cmdWord_of_decode` for the word and `wdata_of_decode` for the data. -/
theorem decodeOfEncodeIsTheCommand : Obligations.DecodeOfEncodeIsTheCommand := by
  refine ⟨fun i => decode_encode fun sy cnt e => ?_, fun w d i h => ⟨cmdWord_of_decode h, fun sy cnt e => ?_⟩,
    fun c i h => decode_portData h⟩
  · subst e
    rfl
  · subst e
    exact wdata_of_decode h

/-! ### Legal operand fields -/

theorem Opcode.ofNum_isSome {n : BitVec 4} (h : n.toNat < 12) : (Opcode.ofNum n).isSome = true := by
  revert n
  decide

theorem StReg.ofNum_isSome {n : Nat} (h : n < 10) : (StReg.ofNum n).isSome = true := by
  revert n
  decide

theorem Offer.ofNum_isSome {n : Nat} (h : n < 3) : (Offer.ofNum n).isSome = true := by
  revert n
  decide

theorem Symbol.ofIdx_isSome {n : Nat} (h : n < 257) : (Symbol.ofIdx n).isSome = true := by
  unfold Symbol.ofIdx
  by_cases byte : n < 256
  · simp [byte]
  · simp [show n = termIndex by unfold termIndex; omega]

theorem operandOr_map_isSome {α : Type} {o : Option α} (h : o.isSome = true) (k : α → Instr) :
    ∃ i, operandOr (o.map k) = .ok i := by
  obtain ⟨x, rfl⟩ := Option.isSome_iff_exists.1 h
  exact ⟨k x, rfl⟩

/-- An operand field below the opcode's count of legal words gives a command (30_encoding.md R93, R94). -/
theorem decodeOperand_ok {op : Opcode} {arg : BitVec 10} (h : arg.toNat < legalCount op) (d : Nat) :
    ∃ i, decodeOperand op arg d = .ok i := by
  cases op with
  | stRead => exact operandOr_map_isSome (StReg.ofNum_isSome h) _
  | ftRead | ftLoad => exact operandOr_map_isSome (Symbol.ofIdx_isSome h) _
  | decStep => exact operandOr_map_isSome (Offer.ofNum_isSome h) _
  | _ => exact ⟨_, rfl⟩

/-- Such a field leaves the bits outside the operand's field 0 (30_encoding.md R92). -/
theorem argClean_of_lt {op : Opcode} {arg : BitVec 10} (h : arg.toNat < legalCount op) : op.format.argClean arg = true := by
  have fits : legalCount op ≤ 2 ^ op.format.argBits := by cases op <;> decide
  exact decide_eq_true (h.trans_le fits)

/-- The rules R91 to R93 on the word of an opcode and an operand field: the field is below the opcode's count. -/
theorem wordIllegal_mkWord (op : Opcode) (arg : BitVec 10) :
    wordIllegal (mkWord op.num arg) = decide (legalCount op ≤ arg.toNat) := by
  have bound := arg.isLt
  have opField : (mkWord op.num arg).toNat / 4096 = op.num.toNat := by rw [mkWord_toNat]; omega
  have zField : (mkWord op.num arg).toNat / 1024 % 4 = 0 := by rw [mkWord_toNat]; omega
  have argField : (mkWord op.num arg).toNat % 1024 = arg.toNat := by rw [mkWord_toNat]; omega
  have zero : (arg.toNat != 0) = decide (1 ≤ arg.toNat) := by
    rw [Bool.eq_iff_iff]
    simp [Nat.one_le_iff_ne_zero]
  rw [wordIllegal, opField, zField, argField]
  cases op with
  | stRead | ftRead | ftLoad | decStep | faByte | encByte => rfl
  | _ => exact zero

/-- The decoder accepts the word of an opcode and an operand field exactly when the field is below the opcode's count
(30_encoding.md R94). -/
theorem decode_mkWord_iff (op : Opcode) (arg : BitVec 10) (d : Nat) :
    (∃ i, decode (mkWord op.num arg) d = .ok i) ↔ arg.toNat < legalCount op := by
  constructor
  · rintro ⟨i, hd⟩
    have legal := wordIllegal_cmdWord i
    rw [cmdWord_of_decode hd, wordIllegal_mkWord] at legal
    exact Nat.not_le.1 (of_decide_eq_false legal)
  · intro h
    obtain ⟨hop, hz, harg⟩ := Laws.Layout.fields_mkWord op.num arg
    obtain ⟨i, hd⟩ := decodeOperand_ok h d
    exact ⟨i, by simp [decode, hop, hz, harg, argClean_of_lt h, hd]⟩

/-- A word that breaks none of R91 to R93 is put together from an opcode and an operand field (30_encoding.md R80). -/
theorem exists_mkWord_of_legal {w : CmdWord} (h : wordIllegal w = false) : ∃ op arg, w = mkWord (Opcode.num op) arg := by
  simp only [wordIllegal, Bool.or_eq_false_iff, decide_eq_false_iff_not, bne_eq_false_iff_eq] at h
  obtain ⟨⟨inUse, reserved⟩, -⟩ := h
  have number : (opField w).toNat < 12 := by
    simp only [opField, BitVec.extractLsb'_toNat, Nat.shiftRight_eq_div_pow]
    omega
  have zero : zField w = 0#2 := by
    refine BitVec.eq_of_toNat_eq ?_
    rw [zField, BitVec.extractLsb'_toNat, Nat.shiftRight_eq_div_pow]
    exact reserved
  obtain ⟨op, hop⟩ := Option.isSome_iff_exists.1 (Opcode.ofNum_isSome number)
  exact ⟨op, argField w, by rw [← num_of_ofNum hop, mkWord_fields zero]⟩

/-! ### Counting -/

/-- The legal words of an opcode, in ascending order of the operand field (30_encoding.md R94). -/
def legalWords (op : Opcode) : List CmdWord :=
  (List.range (legalCount op)).map fun n => mkWord op.num (BitVec.ofNat 10 n)

theorem legalCount_le (op : Opcode) : legalCount op ≤ 257 := by
  cases op <;> decide

theorem legalWords_nodup (op : Opcode) : (legalWords op).Nodup := by
  refine List.Nodup.map_on (fun m hm n hn e => ?_) List.nodup_range
  have bound := legalCount_le op
  have hm := List.mem_range.1 hm
  have hn := List.mem_range.1 hn
  have words := congrArg BitVec.toNat e
  simp only [mkWord_toNat, BitVec.toNat_ofNat] at words
  omega

theorem mem_legalWords {op : Opcode} {w : CmdWord} :
    w ∈ legalWords op ↔ ∃ arg : BitVec 10, arg.toNat < legalCount op ∧ w = mkWord op.num arg := by
  have bound := legalCount_le op
  simp only [legalWords, List.mem_map, List.mem_range]
  constructor
  · rintro ⟨n, lt, rfl⟩
    exact ⟨BitVec.ofNat 10 n, (Nat.mod_le ..).trans_lt lt, rfl⟩
  · rintro ⟨arg, lt, rfl⟩
    exact ⟨arg.toNat, lt, by rw [BitVec.ofNat_toNat, BitVec.setWidth_eq]⟩

/-- Settles O8: a word is legal exactly when its operand field is below its opcode's count, so those words are `legalWords`. -/
theorem legalWordsAreCounted : Obligations.LegalWordsAreCounted := by
  refine ⟨fun w d => ⟨fun ⟨i, hd⟩ => cmdWord_of_decode hd ▸ wordIllegal_cmdWord i, fun legal => ?_⟩,
    fun op => ⟨legalWords op, legalWords_nodup op, by simp [legalWords], fun w => ?_⟩, rfl⟩
  · obtain ⟨op, arg, rfl⟩ := exists_mkWord_of_legal legal
    rw [wordIllegal_mkWord] at legal
    exact (decode_mkWord_iff op arg d).2 (Nat.not_le.1 (of_decide_eq_false legal))
  · rw [mem_legalWords]
    constructor
    · rintro ⟨arg, lt, rfl⟩
      obtain ⟨i, hd⟩ := (decode_mkWord_iff op arg 0).2 lt
      have number : op.num = i.opcode.num := (Laws.Layout.fields_mkWord op.num arg).1.symm.trans (opField_of_decode hd)
      have same := congrArg Opcode.ofNum number
      rw [ofNum_num, ofNum_num] at same
      exact ⟨i, 0, hd, (Option.some.inj same).symm⟩
    · rintro ⟨i, d, hd, rfl⟩
      have word : w = mkWord i.opcode.num i.arg := (cmdWord_of_decode hd).symm
      exact ⟨i.arg, (decode_mkWord_iff i.opcode i.arg d).1 ⟨i, word ▸ hd⟩, word⟩

/-- Settles O9: the words are closed, so the decoder computes on them. -/
theorem sampleWordsDecode : Obligations.SampleWordsDecode :=
  ⟨rfl, rfl, rfl, rfl, rfl, rfl, rfl, rfl, rfl⟩

end Sys2Proof.Machine
end

section
/-! PROOF. The invariant `Inv`: reset has it, every step keeps it, and no step stops under it (10_state.md R23 to R33, R44 to R49;
20_memory.md R61, R73). A command changes table, tree and code map in the ways of `Completes`, and a fault leaves all three. -/

namespace Sys2Proof.Machine

/-! ### Reset and what the invariant does not speak of -/

/-- Settles O3: reset leaves an empty table, no tree, no code and no fault, so each part of `Inv` holds at once. -/
theorem invariantHoldsAtReset : Obligations.InvariantHoldsAtReset := fun _ _ legal =>
  { cntW := legal
    counts := fun sy => (ftGet_empty sy).trans_le (Nat.zero_le _)
    len := Nat.zero_le _
    sticky := ⟨BitVec.getLsbD_zero, BitVec.getLsbD_zero⟩
    record := ⟨rfl, rfl⟩
    table := ⟨rfl, rfl⟩
    tree := ⟨rfl, rfl, rfl, rfl, rfl⟩
    code := rfl }

theorem noTree_respond (r : Response) (s : State) : NoTree (respond r s) ↔ NoTree s :=
  ⟨fun h => { h with }, fun h => { h with }⟩

theorem hasTree_respond (r : Response) (s : State) : HasTree (respond r s) ↔ HasTree s :=
  ⟨fun h => { h with }, fun h => h.answered r⟩

/-- The invariant does not speak of the responses. -/
theorem Inv.respond {s : State} (h : Inv s) (r : Response) : Inv (respond r s) :=
  { h with
    tree := by
      simp only [TreeOk, noTree_respond, hasTree_respond]
      exact h.tree
    code := by
      simp only [CodeOk, hasTree_respond]
      exact h.code }

/-! ### Faults -/

/-- LEN is 0 or counts the bytes of the table (10_state.md R27). -/
theorem Inv.len_counts {s : State} (h : Inv s) : s.len = 0 ∨ s.len = byteTotal s.ft := by
  have table := h.table
  unfold TableOk at table
  cases e : s.phase <;> simp only [e] at table
  case idle => exact .inl table.2
  case count => exact .inr table.2.1
  case load => exact .inl table.1
  case table => exact .inr table.2
  case fault => exact table
  all_goals exact table.imp_right And.right

/-- There is no code, or the code of the tree there is (10_state.md R49). -/
theorem Inv.noCode_or_hasCode {s : State} (h : Inv s) : NoCode s ∨ (HasTree s ∧ HasCode s) := by
  by_cases hp : treePhase s.phase = true
  · have tree := h.hasTree hp
    have code := h.code
    unfold CodeOk at code
    cases e : s.phase <;> simp only [e] at code hp
    case tree => exact .inl code
    case mapped | encode => exact .inr ⟨tree, code⟩
    case decode | done => exact code.imp_right fun made => ⟨tree, made⟩
    all_goals cases hp
  · have code := h.code
    unfold CodeOk at code
    cases e : s.phase <;> simp only [e] at code hp
    case fault => exact code
    case idle | count | load | table => exact .inl code
    all_goals exact absurd rfl hp

/-- The sticky bit of a fault taken is set (60_exceptions.md R240). -/
theorem stickySet_self (sticky : BitVec 8) (f : FaultKind) : (stickySet sticky f).getLsbD f.code.toNat = true := by
  cases f <;> simp [stickySet, FaultKind.code]

/-- Fault entry keeps the invariant: it writes the fault record and leaves table, tree and code map (60_exceptions.md R240). -/
theorem Inv.raiseFault {s : State} (h : Inv s) (f : FaultKind) (w : CmdWord) (em : Bool) : Inv (raiseFault f w em s) where
  cntW := h.cntW
  counts := h.counts
  len := h.len
  sticky := by
    have unused := stickyAfter_unused s.fsticky (.faultTaken f)
    exact ⟨unused.1.trans h.sticky.1, unused.2.trans h.sticky.2⟩
  record := ⟨f, rfl, stickySet_self s.fsticky f⟩
  table := h.len_counts
  tree := h.noTree_or_hasTree.imp (fun none => { none with }) fun tree => { tree with }
  code := h.noCode_or_hasCode.imp_right fun ⟨tree, code⟩ => ⟨{ tree with }, code⟩

/-! ### Counting and building -/

/-- No byte's count exceeds the sum of the byte entries (10_state.md R27). -/
theorem ftGet_byte_le_byteTotal (ft : FreqTable) (b : Byte) : ftGet ft (.byte b) ≤ byteTotal ft :=
  List.le_sum_of_mem (List.mem_map.2 ⟨b.toNat, List.mem_range.2 b.isLt, by simp⟩)

/-- Writing a count that fits keeps every count within `MAXCNT` (10_state.md R44). -/
theorem Inv.counts_ftSet {s : State} (h : Inv s) (sy : Symbol) {v : Nat} (le : v ≤ s.cfg.maxCnt) (z : Symbol) :
    ftGet (ftSet s.ft sy v) z ≤ s.cfg.maxCnt := by
  by_cases e : z = sy
  · rwa [e, ftGet_ftSet_same]
  · rw [ftGet_ftSet_ne _ _ e]
    exact h.counts z

/-- Where the first pass counts, LEN is the number of bytes counted and the terminator is not (10_state.md R27). -/
theorem Inv.counting {s : State} (h : Inv s) (hp : s.phase = .idle ∨ s.phase = .count) :
    ftGet s.ft .terminator = 0 ∧ s.len = byteTotal s.ft := by
  have table := h.table
  rcases hp with e | e <;> simp only [TableOk, e] at table
  · rw [table.1, table.2, byteTotal_empty]
    exact ⟨ftGet_empty _, rfl⟩
  · exact ⟨table.1, table.2.1⟩

/-- A byte counted is counted no more often than there were bytes (40_frequency_analyzer.md R122). -/
theorem Inv.count_le_len {s : State} (h : Inv s) (hp : s.phase = .idle ∨ s.phase = .count) (b : Byte) :
    ftGet s.ft (.byte b) ≤ s.len :=
  (ftGet_byte_le_byteTotal s.ft b).trans_eq (h.counting hp).2.symm

/-- Short of the bound of `FA.BYTE`, one byte more is within it (40_frequency_analyzer.md R122). -/
theorem Inv.len_succ_le {s : State} (h : Inv s) (room : s.len ≠ s.cfg.maxCnt - 1) : s.len + 1 ≤ s.cfg.maxCnt - 1 :=
  Nat.lt_of_le_of_ne h.len room

/-- Outside PHASE FAULT no fault is recorded (10_state.md R24). -/
theorem Inv.noFault {s : State} (h : Inv s) (hp : s.phase ≠ .fault) : s.fcode = 0#4 ∧ s.finfo = 0#16 := by
  simpa only [FaultRecordOk, if_neg hp] using h.record

/-- The first pass keeps the invariant where the table it leaves is right: there is no tree, no code and no fault, and it makes
none (40_frequency_analyzer.md R121, R123). -/
theorem Inv.firstPass {s : State} (h : Inv s) (hp : s.phase = .idle ∨ s.phase = .count) {ft : FreqTable} {len : Nat}
    {p : Phase} (hp' : p = .count ∨ p = .table) (counts : ∀ sy, ftGet ft sy ≤ s.cfg.maxCnt)
    (bound : len ≤ s.cfg.maxCnt - 1) (table : TableOk { s with ft := ft, len := len, phase := p }) :
    Inv { s with ft := ft, len := len, phase := p } := by
  have noFault := h.noFault (by rcases hp with e | e <;> rw [e] <;> nofun)
  have noTree : NoTree s := by
    have tree := h.tree
    rcases hp with e | e <;> simpa only [TreeOk, e] using tree
  have noCode : NoCode s := by
    have code := h.code
    rcases hp with e | e <;> simpa only [CodeOk, e] using code
  refine ⟨h.cntW, counts, bound, h.sticky, ?_, table, ?_, ?_⟩ <;> rcases hp' with rfl | rfl
  · exact noFault
  · exact noFault
  · exact { noTree with }
  · exact { noTree with }
  · exact noCode
  · exact noCode

/-- An `FA.BYTE` that completes keeps the invariant (40_frequency_analyzer.md R121, R122). -/
theorem Inv.faByte {s : State} (h : Inv s) (hp : s.phase = .idle ∨ s.phase = .count) (b : Byte)
    (room : s.len ≠ s.cfg.maxCnt - 1) :
    Inv { s with ft := ftSet s.ft (.byte b) (ftGet s.ft (.byte b) + 1), len := s.len + 1, phase := .count } := by
  obtain ⟨terminator, len⟩ := h.counting hp
  have bound := h.len_succ_le room
  have fits : ftGet s.ft (.byte b) + 1 ≤ s.cfg.maxCnt := by
    have := h.count_le_len hp b
    omega
  refine h.firstPass hp (.inl rfl) (h.counts_ftSet _ fits) bound ⟨?_, ?_, Nat.succ_pos _⟩
  · exact (ftGet_ftSet_ne _ _ Symbol.noConfusion).trans terminator
  · rw [byteTotal_count, ← len]

/-- `FA.END` keeps the invariant (40_frequency_analyzer.md R123). -/
theorem Inv.faEnd {s : State} (h : Inv s) (hp : s.phase = .idle ∨ s.phase = .count) :
    Inv { s with ft := ftSet s.ft .terminator 1, phase := .table } := by
  refine h.firstPass hp (.inr rfl) (h.counts_ftSet _ (Config.one_le_maxCnt h.cntW)) h.len ⟨ftGet_ftSet_same .., ?_⟩
  rw [byteTotal_ftSet_terminator, (h.counting hp).2]

/-- Between the first pass and a fault, the table was loaded, or counted and ended (10_state.md R27). -/
theorem Inv.loaded_or_counted {s : State} (h : Inv s) (count : s.phase ≠ .count) (fault : s.phase ≠ .fault) :
    s.len = 0 ∨ (ftGet s.ft .terminator = 1 ∧ s.len = byteTotal s.ft) := by
  have table := h.table
  unfold TableOk at table
  cases e : s.phase <;> simp only [e] at table
  case idle => exact .inl table.2
  case load => exact .inl table.1
  case table => exact .inr table
  case count => exact absurd e count
  case fault => exact absurd e fault
  all_goals exact table

/-- A `TB.BUILD` that completes keeps the invariant, after loads and after the first pass (41_tree_builder.md R140). -/
theorem Inv.withTree {s : State} (h : Inv s) (legal : legalIn .tbBuild s.phase = true)
    (terminator : ftGet s.ft .terminator ≠ 0) (fits : ftTotal s.ft ≤ s.cfg.maxCnt) : Inv s.withTree where
  cntW := h.cntW
  counts := h.counts
  len := h.len
  sticky := h.sticky
  record := h.noFault_of_legal legal
  table := h.loaded_or_counted (fun e => by rw [e] at legal; cases legal) fun e => by rw [e] at legal; cases legal
  tree := ⟨hasTree_withTree (h.noTree_of_legal legal).node terminator fits, rfl⟩
  code := h.noCode_of_legal legal

/-! ### Encoding and decoding -/

/-- A child followed is a valid node (44_decoder.md R186). -/
theorem HasTree.child_isSome {s : State} (h : HasTree s) {i : NodeIndex} {n : Node} {b : Bit} (hn : nodeGet s.node i = some n)
    (hc : n.child b ≠ nilIndex) : (nodeGet s.node (n.child b)).isSome = true := by
  have internal : n.isLeaf = false := Bool.eq_false_iff.2 fun hl => hc (child_of_isLeaf hl b)
  exact Option.isSome_iff_exists.2 (h.treeInvariants.child_valid hn internal b).1

/-- Once a tree exists the invariant is kept by what leaves the tree and the table, where the cursor stays in the tree, at ROOT
until the decoder moves it, and the code map fits the phase (10_state.md R33, R49). -/
theorem Inv.inTree {s : State} (h : Inv s) (hp : treePhase s.phase = true) {cm : CodeMap} {c : NodeIndex} {p : Phase}
    {bits : List Bit} {bytes : List Byte} (hp' : treePhase p = true) (valid : (nodeGet s.node c).isSome = true)
    (atRoot : p = .decode ∨ p = .done ∨ c = s.root)
    (code : CodeOk { s with code := cm, cur := c, phase := p, bitout := bits, byteout := bytes }) :
    Inv { s with code := cm, cur := c, phase := p, bitout := bits, byteout := bytes } := by
  have notFault : s.phase ≠ .fault := fun e => by rw [e] at hp; cases hp
  have notCount : s.phase ≠ .count := fun e => by rw [e] at hp; cases hp
  have noFault := h.noFault notFault
  have counted := h.loaded_or_counted notCount notFault
  have tree : HasTree { s with code := cm, cur := c, phase := p, bitout := bits, byteout := bytes } :=
    { h.hasTree hp with cur := valid }
  refine ⟨h.cntW, h.counts, h.len, h.sticky, ?_, ?_, ?_, code⟩
  · cases p
    case fault => cases hp'
    all_goals exact noFault
  · cases p
    case tree | mapped | encode | decode | done => exact counted
    all_goals cases hp'
  · cases p
    case decode | done => exact tree
    case tree | mapped | encode => exact ⟨tree, (atRoot.resolve_left nofun).resolve_left nofun⟩
    all_goals cases hp'

/-- `CM.GEN` keeps the invariant (42_code_map_generator.md R160). -/
theorem Inv.cmGen {s : State} (h : Inv s) (hp : s.phase = .tree) {cm : CodeMap} (hm : generatedMap s.node s.root = .ok cm) :
    Inv { s with code := cm, phase := .mapped } := by
  have inTree : treePhase s.phase = true := by rw [hp]; rfl
  have code : CodeOk { s with code := cm, phase := .mapped } := hm
  exact h.inTree inTree rfl (h.hasTree inTree).cur (.inr (.inr (h.cur_eq_root (.inl hp)))) code

/-- Where the encoder runs there are a tree and its code, and the cursor stands at ROOT (10_state.md R33, R49). -/
theorem Inv.encoding {s : State} (h : Inv s) (hp : s.phase = .mapped ∨ s.phase = .encode) :
    HasTree s ∧ HasCode s ∧ s.cur = s.root := by
  obtain ⟨tree, code⟩ := h.hasTree_hasCode (hp.imp_right .inl)
  have phase := h.tree
  refine ⟨tree, code, ?_⟩
  rcases hp with e | e <;> simp only [TreeOk, e] at phase <;> exact phase.2

/-- Emitting a code keeps the invariant, in ENCODE and on to DONE (43_encoder.md R170, R172). -/
theorem Inv.putBits {s : State} (h : Inv s) (hp : s.phase = .mapped ∨ s.phase = .encode) (c : BitString) {p : Phase}
    (hp' : p = .encode ∨ p = .done) : Inv { putBits c s with phase := p } := by
  obtain ⟨tree, code, atRoot⟩ := h.encoding hp
  have inTree : treePhase s.phase = true := by rcases hp with e | e <;> rw [e] <;> rfl
  rcases hp' with rfl | rfl
  · exact h.inTree inTree rfl tree.cur (.inr (.inr atRoot)) code
  · exact h.inTree inTree rfl tree.cur (.inr (.inl rfl)) (.inr code)

/-- Where `DEC.STEP` is legal, moving the cursor to a valid node keeps the invariant, in DECODE and on to DONE
(44_decoder.md R181). -/
theorem Inv.decode {s : State} (h : Inv s) (hp : s.phase = .tree ∨ s.phase = .mapped ∨ s.phase = .decode) {c : NodeIndex}
    {p : Phase} {bytes : List Byte} (hp' : p = .decode ∨ p = .done) (valid : (nodeGet s.node c).isSome = true) :
    Inv { s with cur := c, phase := p, byteout := bytes } := by
  have inTree : treePhase s.phase = true := by rcases hp with e | e | e <;> rw [e] <;> rfl
  have code : NoCode s ∨ HasCode s := h.noCode_or_hasCode.imp_right And.right
  rcases hp' with rfl | rfl
  · exact h.inTree inTree rfl valid (.inl rfl) code
  · exact h.inTree inTree rfl valid (.inr (.inl rfl)) code

/-! ### Every step -/

/-- A command that completes keeps the invariant, where the count loaded fits the port. -/
theorem Completes.inv {s u : State} {i : Instr} {fl : RspFlags} {d : Nat} (h : Completes s i fl d u) (inv : Inv s)
    (legal : legalIn i s.phase = true) (fits : ∀ sy cnt, i = .ftLoad sy cnt → cnt ≤ s.cfg.maxCnt) (r : Response) :
    Inv (respond r u) := by
  have phases := (mem_tableLegal i s.phase).2 legal
  cases h with
  | nop | stRead | ftRead => exact inv.respond r
  | clr => exact (ready_clearSession inv.cntW inv.sticky r).1
  | ftLoad positive => exact inv.ftLoad (by simpa [tableLegal] using phases) positive (fits _ _ rfl) r
  | faByte room => exact (inv.faByte (by simpa [tableLegal] using phases) _ room).respond r
  | faEnd => exact (inv.faEnd (by simpa [tableLegal] using phases)).respond r
  | tbBuild terminator total => exact (inv.withTree legal terminator total).respond r
  | cmGen hm =>
    have hp : s.phase = .tree := by simpa [tableLegal] using phases
    exact (inv.cmGen hp hm).respond r
  | encByte => exact (inv.putBits (by simpa [tableLegal] using phases) _ (.inl rfl)).respond r
  | encEnd => exact (inv.putBits (by simpa [tableLegal] using phases) _ (.inr rfl)).respond r
  | decDone hn =>
    have hp := (decStep_legal_iff _ _).1 legal
    exact (inv.decode hp (.inr rfl) (by simp [hn])).respond r
  | decEmit hn hl hs ho hm hc =>
    have hp := (decStep_legal_iff _ _).1 legal
    exact (inv.decode hp (.inl rfl) ((inv.hasTree_of_decStep hp).child_isSome hm hc)).respond r
  | decMove hn hl ho hc =>
    have hp := (decStep_legal_iff _ _).1 legal
    exact (inv.decode hp (.inl rfl) ((inv.hasTree_of_decStep hp).child_isSome hn hc)).respond r

/-- A command that takes a fault keeps the invariant: a truncated `DEC.STEP` has brought the cursor back to ROOT
(60_exceptions.md R241). -/
theorem TakesFault.inv {s u : State} {i : Instr} {f : FaultKind} {em : Bool} (h : TakesFault s i f em u) (inv : Inv s)
    (legal : legalIn i s.phase = true) (w : CmdWord) : Inv (raiseFault f w em u) := by
  obtain ⟨-, rfl⟩ | ⟨b, n, -, -, -, rfl, rfl, rfl, rfl⟩ := h.precise
  · exact inv.raiseFault f w em
  · have hp := (decStep_legal_iff _ _).1 legal
    have root := (inv.hasTree_of_decStep hp).treeInvariants.rootFree.1
    exact (inv.decode (bytes := s.byteout ++ [b]) hp (.inl rfl) root).raiseFault _ w _

/-- A command keeps the invariant, where the count it loads fits the port. -/
theorem Ends.inv {s t : State} {i : Instr} {r : Response} (h : Ends s i r t) (inv : Inv s)
    (fits : ∀ sy cnt, i = .ftLoad sy cnt → cnt ≤ s.cfg.maxCnt) : Inv t := by
  cases h with
  | refused => exact inv.respond _
  | outOfPhase => exact inv.raiseFault ..
  | completes legal h => exact h.inv inv legal fits _
  | faults legal h => exact h.inv inv legal _

/-- Settles O4: a reset gives the invariant of reset, a legal word ends as its command does (`Ends.inv`), and an illegal word is
refused or makes fault entry. -/
theorem everyStepKeepsTheInvariant : Obligations.EveryStepKeepsTheInvariant := by
  intro s t inv run
  obtain ⟨-, e⟩ | ⟨_, -, e⟩ | ⟨w, d, _, i, -, hd, e⟩ | ⟨w, _, _, _, -, -, e⟩ := step_cases s <;> rw [e] at run
  · exact Host.Outcome.next.inj run ▸ inv
  · exact Host.Outcome.next.inj run ▸ invariantHoldsAtReset s.cfg _ inv.cntW
  · obtain ⟨r, ends⟩ := exec_ends run
    refine ends.inv inv.takeInput fun sy cnt load => ?_
    subst load
    rw [wdata_of_decode hd]
    exact portData_le_maxCnt ..
  · obtain rfl := Host.Outcome.next.inj run
    obtain ⟨-, e⟩ | ⟨-, e⟩ := illegalWord_cases w (takeInput s) <;> rw [e]
    · exact inv.takeInput.respond _
    · exact inv.takeInput.raiseFault ..

/-! ### No step stops -/

/-- ROOT is `NIL` or a valid node (10_state.md R41). -/
theorem Inv.rootReadable {s : State} (h : Inv s) : RootReadable s :=
  h.noTree_or_hasTree.imp NoTree.root fun tree => tree.treeInvariants.rootFree.1

/-- Under the invariant a command in a phase legal for it answers a next state: it completes or takes a fault. -/
theorem Inv.exec_next {s : State} (h : Inv s) {i : Instr} (legal : legalIn i s.phase = true) : ∃ t, exec i s = .next t := by
  have done : ∀ {fl d u}, Completes s i fl d u → ∃ t, exec i s = .next t := fun c => ⟨_, c.exec legal⟩
  have bad : ∀ {f em u}, TakesFault s i f em u → ∃ t, exec i s = .next t := fun f => ⟨_, f.exec legal⟩
  cases i with
  | nop => exact done .nop
  | clr => exact done .clr
  | stRead r => exact done (.stRead (readReg_eq (.inl h.rootReadable)))
  | ftRead sy => exact done .ftRead
  | ftLoad sy cnt =>
    by_cases hb : cnt = 0 ∨ ftGet s.ft sy ≠ 0
    · exact bad (.badPair hb)
    · exact done (.ftLoad (not_or.1 hb).1 (not_not.1 (not_or.1 hb).2))
  | faByte b =>
    by_cases hl : s.len = s.cfg.maxCnt - 1
    · exact bad (.lenFull hl)
    · exact done (.faByte hl)
  | faEnd => exact done .faEnd
  | tbBuild =>
    by_cases ht : ftGet s.ft .terminator = 0
    · exact bad (.noTerminator ht)
    · rcases Nat.lt_or_ge s.cfg.maxCnt (ftTotal s.ft) with large | fits
      · exact bad (.totalTooLarge ht large)
      · exact done (.tbBuild ht fits)
  | cmGen =>
    have hp : s.phase = .tree := beq_iff_eq.1 legal
    have tree := h.hasTree (by rw [hp]; rfl)
    obtain ⟨cm, hm⟩ := tree.generatedMap_ok
    exact done (.cmGen hm)
  | encByte b =>
    cases hc : codeGet s.code (.byte b) with
    | none => exact bad (.noByteCode hc)
    | some c => exact done (.encByte hc)
  | encEnd =>
    cases hc : codeGet s.code .terminator with
    | none => exact bad (.noTerminatorCode hc)
    | some c => exact done (.encEnd hc)
  | decStep o => exact (h.hasTree_of_decStep ((decStep_legal_iff o s.phase).1 legal)).decStep_next legal

/-- Settles O5: a command out of phase is refused or faults, and one in phase reads valid nodes only (`Inv.exec_next`). -/
theorem noStepStopsUnderTheInvariant : Obligations.NoStepStopsUnderTheInvariant := by
  intro s inv
  obtain ⟨-, e⟩ | ⟨_, -, e⟩ | ⟨w, d, _, i, -, -, e⟩ | ⟨w, _, _, _, -, -, e⟩ := step_cases s
  · exact ⟨_, e⟩
  · exact ⟨_, e⟩
  · unfold Runs
    rw [e]
    cases legal : legalIn i (takeInput s).phase with
    | true => exact inv.takeInput.exec_next legal
    | false =>
      obtain ⟨-, run⟩ | ⟨-, run⟩ := exec_not_legal legal
      · exact ⟨_, run⟩
      · exact ⟨_, run⟩
  · exact ⟨_, e⟩

end Sys2Proof.Machine
end

section
/-! PROOF. The merges of `TB.BUILD` (41_tree_builder.md R144, R145): each node made joins the two least elements of the queue, and
the queue of that moment is read off the nodes made before: it holds those that no node made before has for a child. -/

namespace Sys2Proof.Machine

/-! ### The join of the two least -/

/-- A node joins the two least elements a and b of the queue that the nodes made before it leave: with their child links that
queue makes up all of them (41_tree_builder.md R144, R145). -/
def JoinsLeast (ns : List Node) (n : Node) : Prop :=
  ∃ (a b : QEntry) (q : List QEntry), n = joinNode a b ∧ a.before b = true ∧ (∀ x ∈ q, b.before x = true) ∧
    (∀ x ∈ a :: b :: q, x.StandsIn ns) ∧ (allLinks ns ++ (a :: b :: q).map QEntry.idx).Perm (List.range ns.length)

/-- Every node from the leaves up was made of the two least elements of the queue of its time. -/
def JoinedLeast (ft : FreqTable) (f : Forest) : Prop :=
  ∀ (i : Nat) (n : Node), f.nodes[i]? = some n → (leaves ft).length ≤ i → JoinsLeast (f.nodes.take i) n

theorem joinedLeast_leaves (ft : FreqTable) : JoinedLeast ft { nodes := leaves ft, queue := leafQueue (leaves ft) } :=
  fun _ _ hn hi => absurd (List.getElem?_eq_some_iff.1 hn).1 (Nat.not_lt.2 hi)

/-- The node a run of the loop makes is the join of the two least; the nodes made before stand as they did. -/
theorem JoinedLeast.mergeOnce {ft : FreqTable} {f : Forest} (h : JoinedLeast ft f) (ok : ForestOk ft f) :
    JoinedLeast ft (mergeOnce f) := by
  obtain ⟨-, e⟩ | ⟨a, b, q, perm, ab, bq, e⟩ := ok.mergeOnce_least <;> rw [e]
  · exact h
  · intro i n hn hi
    rcases Nat.lt_or_ge i f.nodes.length with old | new
    · rw [List.getElem?_append_left old] at hn
      rw [List.take_append_of_le_length old.le]
      exact h i n hn hi
    · rw [List.getElem?_append_right new, List.getElem?_singleton, Option.ite_none_right_eq_some] at hn
      obtain rfl : i = f.nodes.length := by omega
      rw [List.take_left]
      have links := (perm.map QEntry.idx).append_left (allLinks f.nodes)
      exact ⟨a, b, q, (Option.some.inj hn.2).symm, ab, bq, fun x hx => ok.queue x (perm.mem_iff.1 hx), links.trans ok.owned⟩

theorem JoinedLeast.mergeLoop {ft : FreqTable} (n : Nat) {f : Forest} (h : JoinedLeast ft f) (ok : ForestOk ft f) :
    JoinedLeast ft (mergeLoop n f) := by
  induction n generalizing f with
  | zero => exact h
  | succ n ih => exact ih (h.mergeOnce ok) ok.mergeOnce

/-- Every internal node `TB.BUILD` makes joins the two least (41_tree_builder.md R145). -/
theorem builtNodes_joinsLeast {ft : FreqTable} {i : Nat} {n : Node} (hn : (builtNodes ft)[i]? = some n)
    (hi : (leaves ft).length ≤ i) : JoinsLeast ((builtNodes ft).take i) n :=
  (joinedLeast_leaves ft).mergeLoop _ (forestOk_leaves ft) i n hn hi

/-! ### The queue as the arena shows it -/

/-- Where two lists make up the numbers below a bound, the second holds those that are not in the first. -/
theorem mem_right_of_perm_range {l m : List Nat} {k : Nat} (h : (l ++ m).Perm (List.range k)) {j : Nat} :
    j ∈ m ↔ j < k ∧ j ∉ l := by
  have apart := (List.nodup_append.1 (h.nodup_iff.2 List.nodup_range)).2.2
  have mem : j ∈ l ∨ j ∈ m ↔ j < k := by rw [← List.mem_append, h.mem_iff, List.mem_range]
  exact ⟨fun hm => ⟨mem.1 (.inr hm), fun hl => apart j hl j hm rfl⟩, fun ⟨lt, hl⟩ => (mem.2 lt).resolve_left hl⟩

section
variable {s : State} (h : HasTree s)
include h

/-- A node is available to node `i` exactly when it was made before `i` and no node made before `i` links to it. -/
theorem HasTree.available_iff {i j : NodeIndex} (hi : i.toNat ≤ (builtNodes s.ft).length) :
    available s.node i j ↔ j.toNat < i.toNat ∧ j.toNat ∉ allLinks ((builtNodes s.ft).take i.toNat) := by
  have atMost := builtNodes_length_le s.ft
  have valid : j.toNat < i.toNat → (nodeGet s.node j).isSome = true := fun lt => by
    rw [h.nodeGet_eq, isSome_getElem?]
    exact lt.trans_le hi
  have linked : j.toNat < i.toNat → (j.toNat ∈ allLinks ((builtNodes s.ft).take i.toNat) ↔
      ∃ (k : NodeIndex) (n : Node), k.toNat < i.toNat ∧ nodeGet s.node k = some n ∧ (n.c0 = j ∨ n.c1 = j)) := fun lt => by
    have child := isChild_iff (ne_nil_of_toNat (i := j) (by omega))
    simp only [allLinks, List.mem_flatMap, child]
    constructor
    · rintro ⟨n, hn, hl⟩
      obtain ⟨k, hk, rfl⟩ := List.mem_take_iff_getElem.1 hn
      have kk : (BitVec.ofNat 10 k).toNat = k := Nat.mod_eq_of_lt (by omega)
      exact ⟨BitVec.ofNat 10 k, _, by omega, by rw [h.nodeGet_eq, kk]; exact List.getElem?_eq_getElem _, hl⟩
    · rintro ⟨k, n, lt, hn, hl⟩
      rw [h.nodeGet_eq] at hn
      exact ⟨n, List.mem_of_getElem? ((List.getElem?_take_of_lt lt).trans hn), hl⟩
  constructor
  · rintro ⟨lt, -, free⟩
    refine ⟨lt, fun hl => ?_⟩
    obtain ⟨k, n, hk, hn, hc⟩ := (linked lt).1 hl
    exact hc.elim (free k n hk hn).1 (free k n hk hn).2
  · rintro ⟨lt, free⟩
    exact ⟨lt, valid lt, fun k n hk hn => not_or.1 fun hc => free ((linked lt).2 ⟨k, n, hk, hn, hc⟩)⟩

/-- The key of `remove_min` on queue elements is the one on the nodes they stand for (41_tree_builder.md R145). -/
theorem HasTree.keyBefore_of_before {x y : QEntry} {i j : NodeIndex} (hx : x.StandsIn (builtNodes s.ft))
    (hy : y.StandsIn (builtNodes s.ft)) (hi : i.toNat = x.idx) (hj : j.toNat = y.idx) (before : x.before y = true) :
    keyBefore s.node i j := by
  obtain ⟨m, hm, wm⟩ := hx
  obtain ⟨n, hn, wn⟩ := hy
  rw [before_iff, ← wm, ← wn, ← hi, ← hj] at before
  exact ⟨m, n, by rw [h.nodeGet_eq, hi, hm], by rw [h.nodeGet_eq, hj, hn], before⟩

/-- An internal node joins a and b, the two least of a queue of nodes made before it, and that queue holds what the arena shows
as available to it (41_tree_builder.md R144, R145). -/
theorem HasTree.joins_least_available {i : NodeIndex} {n : Node} (hn : nodeGet s.node i = some n) (hl : n.isLeaf = false) :
    ∃ (a b : QEntry) (q : List QEntry), n = joinNode a b ∧ a.before b = true ∧ (∀ x ∈ q, b.before x = true) ∧
      (∀ x ∈ a :: b :: q, x.idx < i.toNat ∧ x.StandsIn (builtNodes s.ft)) ∧
      ∀ j : NodeIndex, available s.node i j ↔ ∃ x ∈ a :: b :: q, j.toNat = x.idx := by
  have lt := h.lt_length hn
  have high : (leaves s.ft).length ≤ i.toNat := Nat.le_of_not_lt fun low => by
    simp [(h.isLeaf_iff hn).2 (h.nleaf_toNat ▸ low)] at hl
  obtain ⟨a, b, q, e, ab, bq, stands, made⟩ := builtNodes_joinsLeast ((h.nodeGet_eq i).symm.trans hn) high
  have length : ((builtNodes s.ft).take i.toNat).length = i.toNat := List.length_take_of_le lt.le
  rw [length] at made
  refine ⟨a, b, q, e, ab, bq, fun x hx => ⟨length ▸ (stands x hx).lt, ?_⟩, fun j => ?_⟩
  · exact List.take_append_drop i.toNat (builtNodes s.ft) ▸ (stands x hx).append _
  · rw [h.available_iff lt.le, ← mem_right_of_perm_range made, List.mem_map]
    simp only [eq_comm]

end

/-- Settles O36: the children are the two least of the queue of that time, which is what the arena shows as available. -/
theorem mergesTakeTheTwoLeastNodes : Obligations.MergesTakeTheTwoLeastNodes := by
  intro s inv hp i n hn hl
  have tree := inv.hasTree hp
  obtain ⟨a, b, q, rfl, ab, bq, made, queued⟩ := tree.joins_least_available hn hl
  have atMost := (tree.lt_length hn).trans_le (builtNodes_length_le s.ft)
  obtain ⟨la, sa⟩ := made a (by simp)
  obtain ⟨lb, sb⟩ := made b (by simp)
  have c0 := joinNode_c0 (a := a) (b := b) (by omega)
  have c1 := joinNode_c1 (a := a) (b := b) (by omega)
  refine ⟨(queued _).2 ⟨a, by simp, c0⟩, (queued _).2 ⟨b, by simp, c1⟩, tree.keyBefore_of_before sa sb c0 c1 ab,
    fun j free ne0 ne1 => ?_⟩
  obtain ⟨x, hx, e⟩ := (queued j).1 free
  have notA : x ≠ a := fun same => ne0 (BitVec.eq_of_toNat_eq (by rw [c0, e, same]))
  have notB : x ≠ b := fun same => ne1 (BitVec.eq_of_toNat_eq (by rw [c1, e, same]))
  have rest : x ∈ q := by simpa [notA, notB] using hx
  exact tree.keyBefore_of_before sb (made x hx).2 c1 e (bq x rest)

end Sys2Proof.Machine
end

section
/-! PROOF. Single commands: what each writes and answers, and what it leaves unchanged (20_memory.md R65, R73; 10_state.md R27;
40_frequency_analyzer.md R121 to R129; 41_tree_builder.md R140; 43_encoder.md R170 to R172; 45_system.md R200). -/

namespace Sys2Proof.Machine

/-! ### What no command changes -/

/-- Settles O2: `step_command` for a word presented, `issue_eq_exec` for a command a host can present. -/
theorem stepRunsTheDecodedCommand : Obligations.StepRunsTheDecodedCommand :=
  ⟨fun _ _ _ _ _ hi hd => (step_command hi hd).trans (by rw [takeInput_of_inputs hi]), fun _ _ fits => issue_eq_exec fits,
    fun _ => step_idle⟩

/-- No completion writes `CNT_W` or what the host presents next (log 1, log 3). -/
theorem Completes.host {s u : State} {i : Instr} {fl : RspFlags} {d : Nat} (h : Completes s i fl d u) :
    u.cfg = s.cfg ∧ u.inputs = s.inputs := by
  cases h <;> exact ⟨rfl, rfl⟩

theorem TakesFault.host {s u : State} {i : Instr} {f : FaultKind} {em : Bool} (h : TakesFault s i f em u) :
    u.cfg = s.cfg ∧ u.inputs = s.inputs := by
  cases h <;> exact ⟨rfl, rfl⟩

theorem Ends.host {s t : State} {i : Instr} {r : Response} (h : Ends s i r t) : t.cfg = s.cfg ∧ t.inputs = s.inputs := by
  cases h with
  | refused | outOfPhase => exact ⟨rfl, rfl⟩
  | completes _ h => exact h.host
  | faults _ h => exact h.host

/-- Settles O6: by how a command ends. -/
theorem commandsKeepTheInstanceAndTheHostsInputs : Obligations.CommandsKeepTheInstanceAndTheHostsInputs := by
  intro i s t run
  obtain ⟨r, ends⟩ := exec_ends run
  exact ⟨ends.host.1, ends.host.2, r, ends.responses⟩

/-! ### Reads -/

/-- Settles O21: `NOP` and `FT.READ` complete from the state they found. -/
theorem nopAndTableReadsComplete : Obligations.NopAndTableReadsComplete :=
  ⟨fun _ => ⟨_, Completes.nop.exec rfl, answers_ok 0 rfl, rfl⟩,
    fun _ _ hp => ⟨_, Completes.ftRead.exec (bne_iff_ne.2 hp), answers_ok _ rfl, rfl⟩⟩

/-- A read ends with a response and nothing else: it completes, or PHASE FAULT refuses it (20_memory.md R65). -/
theorem read_only_responds {i : Instr} {s t : State} (read : (∃ r, i = .stRead r) ∨ ∃ sy, i = .ftRead sy)
    (run : exec i s = .next t) : ∃ rs, t = { s with responses := rs } := by
  obtain ⟨r, ends⟩ := exec_ends run
  cases ends with
  | refused => exact ⟨_, rfl⟩
  | outOfPhase hp hl =>
    obtain ⟨_, rfl⟩ | ⟨_, rfl⟩ := read
    · cases hl
    · exact absurd (bne_eq_false_iff_eq.1 hl) hp
  | completes _ h =>
    obtain ⟨_, rfl⟩ | ⟨_, rfl⟩ := read <;> cases h <;> exact ⟨_, rfl⟩
  | faults _ h => obtain ⟨_, rfl⟩ | ⟨_, rfl⟩ := read <;> cases h

/-- A command completes alike whatever responses were given before (log 11). -/
theorem Completes.of_responses {s u : State} {i : Instr} {fl : RspFlags} {d : Nat} (h : Completes s i fl d u)
    (rs : List Response) : Completes { s with responses := rs } i fl d { u with responses := rs } := by
  cases h with
  | nop => exact .nop
  | clr => exact .clr
  | stRead hv => exact .stRead hv
  | ftRead => exact .ftRead
  | ftLoad hc ha => exact .ftLoad hc ha
  | faByte hl => exact .faByte hl
  | faEnd => exact .faEnd
  | tbBuild ht hs => exact .tbBuild ht hs
  | cmGen hm => exact .cmGen hm
  | encByte hc => exact .encByte hc
  | encEnd hc => exact .encEnd hc
  | decDone hn hl hs => exact .decDone hn hl hs
  | decEmit hn hl hs ho hm hc => exact .decEmit hn hl hs ho hm hc
  | decMove hn hl ho hc => exact .decMove hn hl ho hc

/-- A command takes the same fault whatever responses were given before (log 11). -/
theorem TakesFault.of_responses {s u : State} {i : Instr} {f : FaultKind} {em : Bool} (h : TakesFault s i f em u)
    (rs : List Response) : TakesFault { s with responses := rs } i f em { u with responses := rs } := by
  cases h with
  | badPair h => exact .badPair h
  | lenFull hl => exact .lenFull hl
  | noTerminator ht => exact .noTerminator ht
  | totalTooLarge ht hs => exact .totalTooLarge ht hs
  | noByteCode hc => exact .noByteCode hc
  | noTerminatorCode hc => exact .noTerminatorCode hc
  | truncated hn hl => exact .truncated hn hl
  | truncatedAfterByte hn hl hs => exact .truncatedAfterByte hn hl hs

/-- No command reads the responses given: it ends alike, with one response more (log 11). -/
theorem Ends.exec_of_responses {s u : State} {i : Instr} {r : Response} (h : Ends s i r u) (rs : List Response) :
    exec i { s with responses := rs } = .next { u with responses := rs ++ [r] } := by
  cases h with
  | refused hp hr =>
    have out : legalIn i s.phase = false := by rw [hp, legalIn_fault, hr]
    obtain ⟨hn, -⟩ | ⟨-, e⟩ := exec_not_legal (s := { s with responses := rs }) out
    · exact absurd hp hn
    · exact e
  | outOfPhase hp hl =>
    obtain ⟨-, e⟩ | ⟨hf, -⟩ := exec_not_legal (s := { s with responses := rs }) hl
    · exact e
    · exact absurd hf hp
  | completes hl h => exact Completes.exec (s := { s with responses := rs }) hl (h.of_responses rs)
  | faults hl h => exact TakesFault.exec (s := { s with responses := rs }) hl (h.of_responses rs)

/-- Settles O22: a read changes the responses alone, and no command reads those. -/
theorem laterCommandsDoNotSeeReads : Obligations.LaterCommandsDoNotSeeReads := by
  intro i j s t u read run later
  obtain ⟨rs, rfl⟩ := read_only_responds read run
  obtain ⟨r, ends⟩ := exec_ends later
  exact ⟨r, ends.responses, ends.exec_of_responses rs⟩

/-! ### LEN, the table and the tree -/

theorem TakesFault.len {s u : State} {i : Instr} {f : FaultKind} {em : Bool} (h : TakesFault s i f em u) : u.len = s.len := by
  cases h <;> rfl

/-- Settles O23: by how a command ends; of the completions `clr` and `faByte` write LEN. -/
theorem lenChangesOnlyByCountingAndClearing : Obligations.LenChangesOnlyByCountingAndClearing := by
  intro i s t r run hr
  cases exec_ends_with run hr with
  | refused _ hn =>
    refine ⟨?_, fun _ _ => nofun, fun _ _ _ => rfl, fun _ _ => rfl⟩
    rintro rfl
    cases hn
  | outOfPhase _ hl =>
    refine ⟨?_, fun _ _ => nofun, fun _ _ _ => rfl, fun _ _ => rfl⟩
    rintro rfl
    cases hl
  | faults _ h =>
    refine ⟨?_, fun _ _ => nofun, fun _ _ _ => h.len, fun _ _ => h.len⟩
    rintro rfl
    cases h
  | completes _ h =>
    cases h with
    | clr => exact ⟨fun _ => rfl, nofun, nofun, fun other => absurd rfl other⟩
    | faByte => exact ⟨nofun, fun _ _ _ => rfl, fun _ _ failed => absurd rfl failed, fun _ other => absurd rfl (other _)⟩
    | _ => exact ⟨nofun, nofun, nofun, fun _ _ => rfl⟩

/-- Table, node array and the registers of the tree, what stays as built (20_memory.md R73). -/
def State.built (s : State) : FreqTable × NodeArena × NodeIndex × BitVec 9 × BitVec 10 :=
  (s.ft, s.node, s.root, s.nleaf, s.nnode)

/-- Once a tree exists the commands that count, load and build are out of phase (10_state.md R32). -/
theorem writers_not_legal {p : Phase} (hp : treePhase p = true) :
    (∀ sy cnt, legalIn (.ftLoad sy cnt) p = false) ∧ (∀ b, legalIn (.faByte b) p = false) ∧ legalIn .faEnd p = false ∧
      legalIn .tbBuild p = false := by
  cases p <;> cases hp <;> exact ⟨fun _ _ => rfl, fun _ => rfl, rfl, rfl⟩

/-- Once a tree exists no command that completes but `CLR` writes table or tree (20_memory.md R73). -/
theorem Completes.built {s u : State} {i : Instr} {fl : RspFlags} {d : Nat} (h : Completes s i fl d u)
    (hl : legalIn i s.phase = true) (hp : treePhase s.phase = true) (clr : i ≠ .clr) : u.built = s.built := by
  obtain ⟨ftLoad, faByte, faEnd, tbBuild⟩ := writers_not_legal hp
  cases h with
  | clr => exact absurd rfl clr
  | ftLoad => exact nomatch (ftLoad _ _).symm.trans hl
  | faByte => exact nomatch (faByte _).symm.trans hl
  | faEnd => exact nomatch faEnd.symm.trans hl
  | tbBuild => exact nomatch tbBuild.symm.trans hl
  | _ => rfl

theorem TakesFault.built {s u : State} {i : Instr} {f : FaultKind} {em : Bool} (h : TakesFault s i f em u) :
    u.built = s.built := by
  cases h <;> rfl

/-- Settles O24: by how a command ends. -/
theorem tableAndTreeStayAsBuilt : Obligations.TableAndTreeStayAsBuilt := by
  intro i s t hp clr run
  have same : t.built = s.built := by
    obtain ⟨r, ends⟩ := exec_ends run
    cases ends with
    | refused | outOfPhase => rfl
    | completes hl h => exact h.built hl hp clr
    | faults _ h => exact h.built
  simpa only [State.built, Prod.mk.injEq] using same

/-! ### The frequency analyzer and the table port -/

/-- The phases of the first pass before its end (10_state.md R32). -/
theorem counting_legal {s : State} (h : s.phase = .idle ∨ s.phase = .count) (b : Byte) :
    legalIn (.faByte b) s.phase = true ∧ legalIn .faEnd s.phase = true := by
  rcases h with e | e <;> rw [e] <;> exact ⟨rfl, rfl⟩

/-- The word of an opcode and an operand field as a sum (30_encoding.md R80). -/
theorem mkWord_eq_add (op : BitVec 4) (arg : BitVec 10) :
    mkWord op arg = BitVec.ofNat 16 (op.toNat * 4096) + arg.setWidth 16 := by
  refine BitVec.eq_of_toNat_eq ?_
  rw [mkWord_toNat]
  have := op.isLt
  have := arg.isLt
  simp
  omega

/-- The word of a command with a byte operand (30_encoding.md R81 format B). -/
theorem mkWord_byte (op : BitVec 4) (b : Byte) :
    mkWord op (b.setWidth 10) = BitVec.ofNat 16 (op.toNat * 4096) + b.setWidth 16 :=
  mkWord_eq_add op (b.setWidth 10)

/-- The word of a command with a symbol operand (30_encoding.md R81 format SC). -/
theorem mkWord_symbol (op : BitVec 4) (sy : Symbol) :
    mkWord op (BitVec.ofNat 10 sy.idx) = BitVec.ofNat 16 (op.toNat * 4096) + BitVec.ofNat 16 sy.idx := by
  have small : sy.idx < 1024 := (symbol_idx_lt sy).trans (by decide)
  rw [mkWord_eq_add]
  congr 1
  refine BitVec.eq_of_toNat_eq ?_
  simp [Nat.mod_eq_of_lt small]

/-- Settles O25: the two outcomes of `FA.BYTE`, and no byte is counted more often than LEN says (`Inv.count_le_len`). -/
theorem faByteCountsOneByte : Obligations.FaByteCountsOneByte := by
  refine ⟨fun b s hp room => ?_, fun b s hp full => ?_⟩
  · refine ⟨_, (Completes.faByte room).exec (counting_legal hp b).1, answers_ok 0 rfl, ftGet_ftSet_same ..,
      fun sy other => ftGet_ftSet_ne _ _ other, rfl, fun inv => ⟨?_, inv.len_succ_le room⟩⟩
    rw [respond_ft, ftGet_ftSet_same]
    exact Nat.succ_le_succ (inv.count_le_len hp b)
  · have word : cmdWord (.faByte b) = 0x5000#16 + b.setWidth 16 := mkWord_byte 0x5#4 b
    rw [← word]
    exact (TakesFault.lenFull full).faultEntry (counting_legal hp b).1

/-- Settles O26: `FA.END` completes where it is legal. -/
theorem faEndSetsTheTerminatorsCount : Obligations.FaEndSetsTheTerminatorsCount := fun _ hp =>
  ⟨_, Completes.faEnd.exec (counting_legal hp 0).2, answers_ok 0 rfl, ftGet_ftSet_same ..,
    fun _ other => ftGet_ftSet_ne _ _ other, rfl⟩

/-- Settles O29: the two outcomes of `FT.LOAD`. -/
theorem ftLoadStoresOnePair : Obligations.FtLoadStoresOnePair := by
  intro sy cnt s hp
  have legal : legalIn (.ftLoad sy cnt) s.phase = true := by rcases hp with e | e <;> rw [e] <;> rfl
  refine ⟨fun positive absent => ?_, fun bad => ?_⟩
  · exact ⟨_, (Completes.ftLoad positive absent).exec legal, answers_ok 0 rfl, ftGet_ftSet_same ..,
      fun z other => ftGet_ftSet_ne _ _ other, rfl⟩
  · have word : cmdWord (.ftLoad sy cnt) = 0x4000#16 + BitVec.ofNat 16 sy.idx := mkWord_symbol 0x4#4 sy
    rw [← word]
    exact (TakesFault.badPair bad).faultEntry legal

/-! ### The tree builder and the encoder -/

/-- Settles O34: `TB.BUILD` completes, and of the arena it writes the nodes built, which NNODE counts. -/
theorem tbBuildBuildsAndWritesOnlyTheTree : Obligations.TbBuildBuildsAndWritesOnlyTheTree := by
  intro s hp terminator fits
  refine ⟨_, (Completes.tbBuild terminator fits).exec (tbBuild_legal hp), answers_ok 0 rfl, rfl, fun i high => ?_, rfl⟩
  have atMost := builtNodes_length_le s.ft
  simp only [respond_nnode, BitVec.toNat_ofNat] at high
  rw [respond_node, nodeGet_writeNodes _ _ _ _ (by simpa using atMost), if_neg (by omega)]

/-- The flags of a completion in DONE (30_encoding.md R95). -/
theorem done_bits : RspFlags.bits { consumed := false, emitted := false, done := true } = 4#3 := by decide

/-- Settles O45: a code present is emitted, a code absent is MissingCodeForSymbol. -/
theorem encoderEmitsTheCodeOrFaults : Obligations.EncoderEmitsTheCodeOrFaults := by
  intro s hp
  have encByte : ∀ b, legalIn (.encByte b) s.phase = true := fun _ => by rcases hp with e | e <;> rw [e] <;> rfl
  have encEnd : legalIn .encEnd s.phase = true := by rcases hp with e | e <;> rw [e] <;> rfl
  refine ⟨fun b c hc => ?_, fun c hc => ?_, fun b hc => ?_, fun hc => ?_⟩
  · exact ⟨_, (Completes.encByte hc).exec (encByte b), answers_ok _ rfl, rfl⟩
  · exact ⟨_, exec_encEnd hp hc, ⟨_, rfl, rfl, done_bits, rfl⟩, rfl⟩
  · have word : cmdWord (.encByte b) = 0x9000#16 + b.setWidth 16 := mkWord_byte 0x9#4 b
    rw [← word]
    exact (TakesFault.noByteCode hc).faultEntry (encByte b)
  · exact (TakesFault.noTerminatorCode hc).faultEntry encEnd

end Sys2Proof.Machine
end

section
/-! PROOF. Second passes, decode loops and payload lengths (43_encoder.md R175; 44_decoder.md R188, R189; 46_host_sequences.md
R219). -/

namespace Sys2Proof.Machine

/-! ### The second pass -/

/-- A second pass without a fault found a code for each of its bytes and for the terminator (43_encoder.md R171, R175). -/
theorem exists_payloadOf_of_issueAll {bs : List Byte} {s t : State}
    (run : issueAll (encBytes bs ++ [.encEnd]) s = .ok () t) : ∃ p, payloadOf s.code bs = some p := by
  induction bs generalizing s with
  | nil =>
    obtain ⟨r, u, ends, -⟩ := issueAll_cons_ok run
    obtain ⟨-, _, _, _, completes, -⟩ := completes_of_issueOk ends (issue_eq_exec rfl)
    cases completes with
    | encEnd hc => exact ⟨_, hc⟩
  | cons b bs ih =>
    obtain ⟨r, u, emits, rest⟩ := issueAll_cons_ok run
    obtain ⟨-, _, _, _, completes, rfl⟩ := completes_of_issueOk emits (issue_eq_exec rfl)
    cases completes with
    | @encByte _ c hc =>
      obtain ⟨p, hp⟩ := ih rest
      have rest' : payloadOf s.code bs = some p := hp
      exact ⟨c ++ p, by simp only [payloadOf, hc, rest']⟩

/-- Settles O48: a payload is appended whole (`issueAll_encBytes_encEnd`), and a pass without a fault has a payload. -/
theorem secondPassEmitsThePayload : Obligations.SecondPassEmitsThePayload := by
  intro bs s hp
  refine ⟨fun p payload => ?_, fun t run => ?_⟩
  · obtain ⟨t, run, frame⟩ := issueAll_encBytes_encEnd (.inl hp) payload
    exact ⟨t, run, by rw [frame], by rw [frame]⟩
  · obtain ⟨p, payload⟩ := exists_payloadOf_of_issueAll run
    obtain ⟨t', run', frame⟩ := issueAll_encBytes_encEnd (.inl hp) payload
    obtain ⟨-, rfl⟩ := HostRun.ok.inj (run.symm.trans run')
    exact ⟨p, payload, by rw [frame]⟩

/-! ### The decode loop ends -/

/-- A decode loop that ends within a number of steps, done or with TruncatedStream (44_decoder.md R188, R189). -/
def DoneOrTruncated (steps : Nat) (e : LoopEnd) : Prop :=
  (∃ t left n, e = .done t left n ∧ n ≤ steps ∧ t.phase = .done) ∨
    ∃ r t left n, e = .failed r t left n ∧ n ≤ steps ∧ r.status = .faultTaken .truncatedStream ∧ t.phase = .fault

/-- At the end of the source, away from the terminator's leaf, the loop ends with TruncatedStream (44_decoder.md R184). -/
theorem Consults.decodeLoop_truncated {s : State} {i : NodeIndex} {q : List Byte} (h : Consults s i q)
    (hp : s.phase = .tree ∨ s.phase = .mapped ∨ s.phase = .decode) (fuel n : Nat) :
    DoneOrTruncated (n + 1) (decodeLoop (fuel + 1) n [] s) := by
  obtain ⟨em, u, faults⟩ := h.truncated
  have run := (issue_eq_exec rfl).trans (faults.exec ((decStep_legal_iff .endMark s.phase).2 hp))
  refine .inr ⟨faultResponse .truncatedStream (cmdWord (.decStep .endMark)) em,
    raiseFault .truncatedStream (cmdWord (.decStep .endMark)) em u, [], n + 1, ?_, Nat.le_refl _, rfl, rfl⟩
  simp [decodeLoop, peek, run, lastResponse, faultResponse]

/-- In a tree the loop ends within one step more than there are bits: each step that goes on takes a bit (44_decoder.md R188). -/
theorem HasTree.decodeLoop_ends {src : BitString} {s : State} (h : HasTree s)
    (hp : s.phase = .tree ∨ s.phase = .mapped ∨ s.phase = .decode) (n : Nat) :
    DoneOrTruncated (n + (src.length + 1)) (decodeLoop (src.length + 1) n src s) := by
  induction src generalizing s n with
  | nil =>
    obtain ⟨m, hm, hl, hs⟩ | ⟨i, q, m, consults, -⟩ := h.terminator_or_consults
    · exact .inl ⟨_, _, _, (Completes.decDone hm hl hs).decodeLoop_succ hp _ n, Nat.le_refl _, rfl⟩
    · exact consults.decodeLoop_truncated hp 0 n
  | cons b src ih =>
    obtain ⟨m, hm, hl, hs⟩ | ⟨i, q, m, consults, hm, internal⟩ := h.terminator_or_consults
    · exact .inl ⟨_, _, _, (Completes.decDone hm hl hs).decodeLoop_succ hp _ n, by omega, rfl⟩
    · obtain ⟨⟨c, hc⟩, -⟩ := h.treeInvariants.child_valid hm internal b
      obtain ⟨r, step⟩ := consults.decodeLoop_bit hp hm (ne_nil_of_nodeGet hc) (src.length + 1) n src
      have tree : HasTree (respond r { s with byteout := s.byteout ++ q, cur := m.child b, phase := .decode }) :=
        { h with cur := Option.isSome_iff_exists.2 ⟨c, hc⟩ }
      rw [List.length_cons, step, ← Nat.add_assoc, Nat.add_right_comm]
      exact ih tree (.inr (.inr rfl)) (n + 1)

/-- Settles O52: where `DEC.STEP` is legal there is a tree, and in a tree the loop ends. -/
theorem decodeLoopEndsDoneOrTruncated : Obligations.DecodeLoopEndsDoneOrTruncated := by
  intro src s inv hp
  have ends := (inv.hasTree_of_decStep hp).decodeLoop_ends (src := src) hp 0
  rwa [Nat.zero_add] at ends

/-! ### The length of a payload -/

/-- The number of bits a code map gives a symbol, 0 for a symbol without a code (46_host_sequences.md R219). -/
def codeLength (cm : CodeMap) (sy : Symbol) : Nat := ((codeGet cm sy).getD []).length

/-- The symbols a payload encodes: the bytes, then the terminator (30_encoding.md R100). -/
def message (bs : List Byte) : List Symbol := bs.map .byte ++ [.terminator]

/-- A payload is as long as the codes of its symbols are together (30_encoding.md R100). -/
theorem payloadOf_length {cm : CodeMap} {bs : List Byte} {p : BitString} (payload : payloadOf cm bs = some p) :
    p.length = ((message bs).map (codeLength cm)).sum := by
  induction bs generalizing p with
  | nil =>
    have code : codeGet cm .terminator = some p := payload
    simp [message, codeLength, code]
  | cons b bs ih =>
    obtain ⟨c, q, hc, hq, rfl⟩ := payloadOf_cons payload
    have byte : codeLength cm (.byte b) = c.length := by rw [codeLength, hc, Option.getD_some]
    rw [List.length_append, ih hq, ← byte]
    rfl

theorem message_count_byte (bs : List Byte) (v : Byte) : (message bs).count (.byte v) = occurrences bs v := by
  induction bs with
  | nil => rfl
  | cons b bs ih =>
    rw [occurrences_cons, ← ih]
    simp [message, List.count_cons]

theorem message_count_terminator (bs : List Byte) : (message bs).count .terminator = 1 := by
  have absent : Symbol.terminator ∉ bs.map .byte := by simp
  rw [message, List.count_append, List.count_eq_zero.2 absent, List.count_singleton_self]

/-- A sum over a list of symbols counts each symbol as often as it occurs. -/
theorem sum_map_eq_sum_count (l : List Symbol) (f : Symbol → Nat) :
    (l.map f).sum = (allSymbols.map fun sy => l.count sy * f sy).sum := by
  rw [Finset.sum_list_map_count, ← List.sum_toFinset _ allSymbols_nodup]
  refine Finset.sum_subset (fun sy _ => List.mem_toFinset.2 (mem_allSymbols sy)) fun sy _ absent => ?_
  rw [List.count_eq_zero.2 (mt List.mem_toFinset.2 absent), zero_nsmul]

/-- The payload of a sequence with the counts of a table has the sum of count times code length bits (46_host_sequences.md
R219). -/
theorem payload_length_eq {ft : FreqTable} {cm : CodeMap} {bs : List Byte} {p : BitString}
    (terminator : ftGet ft .terminator = 1) (bytes : ∀ v, ftGet ft (.byte v) = occurrences bs v)
    (payload : payloadOf cm bs = some p) :
    p.length = (allSymbols.map fun sy => ftGet ft sy * codeLength cm sy).sum := by
  have counts : ∀ sy, (message bs).count sy = ftGet ft sy := fun sy => by
    cases sy with
    | byte v => rw [message_count_byte, bytes]
    | terminator => rw [message_count_terminator, terminator]
  rw [payloadOf_length payload, sum_map_eq_sum_count]
  simp only [counts]

theorem inputTable_byte (bs : List Byte) (v : Byte) : ftGet (inputTable bs) (.byte v) = occurrences bs v := by
  rw [inputTable, ftGet_ftSet_ne _ _ Symbol.noConfusion, ftGet_countBytes, ftGet_empty, Nat.zero_add]

/-- The session of `COMPRESS` up to the code map: the table of the input and its code (46_host_sequences.md R210 steps 1 to
6). -/
theorem Ready.issueAll_codeMap {s : State} (ready : Ready s) {bs : List Byte} (hb : bs.length ≤ s.cfg.maxCnt - 1) :
    ∃ u, issueAll (firstPass bs ++ [.tbBuild, .cmGen]) s = .ok () u ∧ u.ft = inputTable bs ∧
      u.code = tableCode (inputTable bs) := by
  obtain ⟨t, run, tree, phase, table⟩ := ready.issueAll_build hb
  have generates := (Completes.cmGen tree.tableCode_spec.1).issueAll_cons rfl (by rw [phase]; rfl) []
  have whole : issueAll (firstPass bs ++ [.tbBuild, .cmGen]) s = issueAll [.cmGen] t := by
    rw [← issueAll_append_ok run, List.append_assoc]
    rfl
  exact ⟨_, whole.trans generates, table, congrArg tableCode table⟩

/-- Settles O59: the payload handed over encodes the input under the code of its table, which counts its symbols. -/
theorem payloadLengthIsTheWeightedSum : Obligations.PayloadLengthIsTheWeightedSum := by
  refine ⟨fun bs s ready hb => ?_, fun bs p s _ _ terminator bytes payload => payload_length_eq terminator bytes payload⟩
  obtain ⟨t, run, -⟩ := ready.compress_eq hb
  obtain ⟨u, builds, table, code⟩ := ready.issueAll_codeMap hb
  refine ⟨_, t, u, run, builds, ?_⟩
  rw [table, code]
  exact payload_length_eq (inputTable_terminator bs) (inputTable_byte bs) (payloadOf_inputTable bs)

end Sys2Proof.Machine
end
